-- ==== Sys2Proof/Word.lean ====
section
/-!
DEFINITION. The word types of WTSYN: every value that crosses a port is a 32-bit word (20 R30), and every
real-valued quantity is an IEEE 754 binary32 bit pattern in such a word (00 R2).
-/

namespace Sys2Proof

/-- A 32-bit word, bit 0 least significant (00 §4.1). -/
abbrev Word := BitVec 32

/-- One byte of a byte transport (20 R30). -/
abbrev Byte := BitVec 8

/-- A binary32 value as its bit pattern: sign in bit 31, biased exponent in bits 30:23, fraction in
bits 22:0 (00 R2). -/
abbrev F32 := BitVec 32

end Sys2Proof
end

