-- ==== Sys2Proof/Config.lean ====
section
/-!
DEFINITION. What an instance of the block fixes (00 §3, R1, R8): the constants the spec gives, and the values it leaves open.
An open value is an `opaque` constant with no body, so a theorem about it holds whatever it is. The limits that the
spec puts on an open value are applied where it is read (`Machine/Functions.lean`, `Machine/Ops.lean`,
`Machine/Float.lean`). The five size parameters are plain data and stand in State (`Params`, log 1).
-/

namespace Sys2Proof

/-- The four rounded operations of 00 R3, as a name for the operation whose NaN result is left open. -/
inductive FOp where
  | add | sub | mul | div
  deriving DecidableEq, Repr

namespace Config

/-! ### Constants the spec gives (00 §3 and R8) -/

/-- `F32_ONE`, 1.0 (00 R8). -/
def f32One : F32 := 0x3F800000#32
/-- `F32_TWO`, 2.0 (00 R8). -/
def f32Two : F32 := 0x40000000#32
/-- The value minus 1.0, the lower end of a sample's range (00 R9 (b)). -/
def f32NegOne : F32 := 0xBF800000#32
/-- 12.0, `MIDI_STEPS` as F32 (00 R8). -/
def f32Twelve : F32 := 0x41400000#32
/-- 60.0, minutes to seconds (00 R8, 43 R77). -/
def f32Sixty : F32 := 0x42700000#32
/-- 440.0, `MIDI_REF_HZ` (00 §3, R8). -/
def midiRefHz : F32 := 0x43DC0000#32
/-- `MIDI_REF_NOTE` (00 §3). -/
def midiRefNote : Nat := 69
/-- `MIDI_MAX` (00 §3). -/
def midiMax : Nat := 127
/-- `RANDOM_THRESHOLD`, 0.5 (00 §3). -/
def randomThreshold : F32 := 0x3F000000#32
/-- `FREQ_MAX`, 2^64 (00 §3). -/
def freqMax : F32 := 0x5F800000#32
/-- `SR_MIN`, 1.0 (00 §3). -/
def srMin : F32 := 0x3F800000#32
/-- `SPN_MAX`, 2^32 - 1 (00 §3). -/
def spnMax : Nat := 2 ^ 32 - 1

/-! ### Open values -/

/-- The free part of `SIN_TURN` (00 R9): read only through `Machine.sinTurn`, which applies R9's limits (log 7). -/
opaque sinTurnFree : Nat → Nat → F32

/-- The free part of `EXP2` (00 R10): read only through `Machine.exp2`, which applies R10's limits (log 8). -/
opaque exp2Free : F32 → F32

/-- The free raw draw at each position of the random-draw stream (42 R73): read only when State holds no supplied draw,
through `State.drawR` and `State.drawJ`, which apply R73's ranges (log 6). -/
opaque freeDraw : Nat → Nat

/-- The free payload and sign of a NaN result, for each operation and operand pair. The spec gives none: it keeps NaN
out of every register (00 R5). Read only through `Machine.nanResult` (log 9). -/
opaque nanFree : FOp → F32 → F32 → F32

/-- The free phase after an OscStep whose sum `osc_index + osc_delta` is not a finite value of at least zero, for each such
sum and table size: 00 R7 states no result there. Read only through `Machine.phaseAfter`, which applies 10 R18's range
(log 22). -/
opaque phaseFree : F32 → Nat → F32

/-- `WTSYN_BASE`, the platform address of the block, if it has one (20 R33): no rule uses it (log 19). -/
opaque wtsynBase : Option Nat

/-- `FILL_LATENCY_MAX`, a bound on the time of a FILL_BLOCK (70 R114): no rule uses it (log 19). -/
opaque fillLatencyMax : Nat

end Config

end Sys2Proof
end

