-- ==== Sys2Proof/Syntax.lean ====
section
/-!
DEFINITION. The command set of WTSYN, edition 1 (30 R42): one constructor per row of `spec/opcode_table.json`, with the
packet types of 30 R40.
-/

namespace Sys2Proof

/-- The two request ports (30 R45). -/
inductive Port where
  /-- the control agent's port -/
  | control
  /-- the audio agent's port -/
  | audio
  deriving DecidableEq, Repr

/-- Header bit K: what the entries of a SET_SEQUENCE are (30 §2, R43). -/
inductive EntryKind where
  /-- K = 0: frequencies in Hz, as F32 -/
  | hz
  /-- K = 1: MIDI note numbers, as u32 -/
  | midi
  deriving DecidableEq, Repr

/-- The frequency-source variant, header bit V of SET_SEQUENCE and the register `gen_variant` (30 §2, 10 R23). -/
inductive Variant where
  /-- V = 0: cyclic playback of the list -/
  | sequence
  /-- V = 1: a step or a jump -/
  | random
  deriving DecidableEq, Repr

/-- The ten mnemonics of 30 R42. -/
inductive Mnemonic where
  | buildTable | prepare | setFrequency | setAmplitude | setTempo
  | setSequence | fillBlock | readTable | readReg | readSeq
  deriving DecidableEq, Repr

/-- The ten commands (30 R42), operand words taken whole (30 R43). -/
inductive Instr where
  /-- BUILD_TABLE N, H (41 R58) -/
  | buildTable (size harmonics : Word)
  /-- PREPARE samples_per_block, sample_rate (43 R76) -/
  | prepare (samplesPerBlock : Word) (sampleRate : F32)
  /-- SET_FREQUENCY hz (40 R52) -/
  | setFrequency (freq : F32)
  /-- SET_AMPLITUDE a (40 R51) -/
  | setAmplitude (amp : F32)
  /-- SET_TEMPO notes_per_minute (43 R77) -/
  | setTempo (npm : F32)
  /-- SET_SEQUENCE.v.k e1, ..., eL (42 R67): the header's A is the number of entries -/
  | setSequence (kind : EntryKind) (variant : Variant) (entries : List Word)
  /-- FILL_BLOCK C, B (43 R78): C is the header's A -/
  | fillBlock (channels : BitVec 16) (frames : Word)
  /-- READ_TABLE index (44 R84) -/
  | readTable (index : Word)
  /-- READ_REG selector (44 R85) -/
  | readReg (selector : Word)
  /-- READ_SEQ index (44 R86) -/
  | readSeq (index : Word)
  deriving DecidableEq, Repr

/-- A command packet: a header word and its operand words; the transport delimits it, so the word count is known and is
at least one (30 R40). -/
structure Packet where
  header : Word
  operands : List Word
  deriving DecidableEq, Repr

/-- The mnemonic of a command (30 R42). -/
def Instr.mnemonic : Instr → Mnemonic
  | .buildTable _ _ => .buildTable
  | .prepare _ _ => .prepare
  | .setFrequency _ => .setFrequency
  | .setAmplitude _ => .setAmplitude
  | .setTempo _ => .setTempo
  | .setSequence _ _ _ => .setSequence
  | .fillBlock _ _ => .fillBlock
  | .readTable _ => .readTable
  | .readReg _ => .readReg
  | .readSeq _ => .readSeq

end Sys2Proof
end

