-- ==== Sys2Proof/WellFormed.lean ====
section
/-!
DEFINITION. Which commands have an encoding: the header's count field A is 16 bits, so a SET_SEQUENCE has at most 65535
entries (30 R41, R42). Every other operand's width is in its type.
-/

namespace Sys2Proof

/-- A command that some packet encodes (30 R42). -/
def Instr.wellFormed : Instr → Bool
  | .buildTable _ _ => true
  | .prepare _ _ => true
  | .setFrequency _ => true
  | .setAmplitude _ => true
  | .setTempo _ => true
  | .setSequence _ _ entries => decide (entries.length < 2 ^ 16)
  | .fillBlock _ _ => true
  | .readTable _ => true
  | .readReg _ => true
  | .readSeq _ => true

end Sys2Proof
end

