-- ==== Sys2Proof/Decode.lean ====
section
/-!
DEFINITION. Decoding a packet (30 R40 to R47), total and rejecting by name, the encoder written from the same tables, the
byte transport's little-endian words (20 R30), and the two functions that read a row of `spec/opcode_table.json` as a packet.
-/

namespace Sys2Proof

/-! ### Header fields (30 R41) -/

/-- OP, header bits 31:24. -/
def headerOp (h : Word) : BitVec 8 := h.extractLsb' 24 8
/-- K, header bit 21. -/
def headerK (h : Word) : Bool := h.getLsbD 21
/-- V, header bit 20. -/
def headerV (h : Word) : Bool := h.getLsbD 20
/-- A, header bits 15:0. -/
def headerA (h : Word) : BitVec 16 := h.extractLsb' 0 16

/-! ### The opcode map (30 R42) -/

/-- One row of the header pattern table of 30 R42. -/
structure HeaderRow where
  op : Mnemonic
  pattern : Word
  mask : Word
  deriving DecidableEq, Repr

/-- The header pattern table of 30 R42. -/
def headerRows : List HeaderRow :=
  [ ⟨.buildTable,   0x01000000#32, 0xFFFFFFFF#32⟩,
    ⟨.prepare,      0x02000000#32, 0xFFFFFFFF#32⟩,
    ⟨.setFrequency, 0x03000000#32, 0xFFFFFFFF#32⟩,
    ⟨.setAmplitude, 0x04000000#32, 0xFFFFFFFF#32⟩,
    ⟨.setTempo,     0x05000000#32, 0xFFFFFFFF#32⟩,
    ⟨.setSequence,  0x06000000#32, 0xFFCF0000#32⟩,
    ⟨.fillBlock,    0x07000000#32, 0xFFFF0000#32⟩,
    ⟨.readTable,    0x08000000#32, 0xFFFFFFFF#32⟩,
    ⟨.readReg,      0x09000000#32, 0xFFFFFFFF#32⟩,
    ⟨.readSeq,      0x0A000000#32, 0xFFFFFFFF#32⟩ ]

/-- A header selects a row when `h AND mask == match` (30 R42). -/
def HeaderRow.selects (h : Word) (r : HeaderRow) : Bool := h &&& r.mask == r.pattern

/-- The mnemonic a header selects, if any row matches it (30 R42). -/
def selectRow (h : Word) : Option Mnemonic :=
  (headerRows.find? (HeaderRow.selects h)).map HeaderRow.op

/-- How many operand words follow the header: `operands(OP, A)` of 30 R44. -/
def operandCount (op : Mnemonic) (a : BitVec 16) : Nat :=
  match op with
  | .buildTable | .prepare => 2
  | .setSequence => a.toNat
  | .setFrequency | .setAmplitude | .setTempo | .fillBlock | .readTable | .readReg | .readSeq => 1

/-- The only port that accepts the command (30 R45). -/
def Mnemonic.port : Mnemonic → Port
  | .fillBlock => .audio
  | .buildTable | .prepare | .setFrequency | .setAmplitude | .setTempo | .setSequence
  | .readTable | .readReg | .readSeq => .control

/-! ### Decoding (30 R44) -/

/-- Why a packet is ILLEGAL_COMMAND (30 R44), in the order of the checks. The first two concern the byte transport only (log 13). -/
inductive Illegal where
  /-- the bytes are not a whole number of words (20 R30, log 13) -/
  | raggedBytes
  /-- there is no header word (30 R40, log 13) -/
  | emptyPacket
  /-- no row of 30 R42 matches the header -/
  | noHeaderRow
  /-- the word count is not one more than the row's operand count -/
  | wrongLength
  /-- the packet came on the other port -/
  | wrongPort
  deriving DecidableEq, Repr

/-- What decoding a packet gives. -/
inductive Decoded where
  | instr (i : Instr)
  | illegal (why : Illegal)
  deriving DecidableEq, Repr

/-- The instruction, if there is one. -/
def Decoded.toOption : Decoded → Option Instr
  | .instr i => some i
  | .illegal _ => none

/-- Operand word number `j` (w1 is number 0), taken whole (30 R43). Read only where the length check has passed. -/
def operandWord (ws : List Word) (j : Nat) : Word := ws.getD j 0#32

/-- Header bit K as the entry kind (30 §2). -/
def kindOfBit (k : Bool) : EntryKind := if k then .midi else .hz
/-- Header bit V as the variant (30 §2). -/
def variantOfBit (v : Bool) : Variant := if v then .random else .sequence

/-- The command of a packet whose header row, length and port are right (30 R42, R43). -/
def instrOf (op : Mnemonic) (h : Word) (ws : List Word) : Instr :=
  match op with
  | .buildTable => .buildTable (operandWord ws 0) (operandWord ws 1)
  | .prepare => .prepare (operandWord ws 0) (operandWord ws 1)
  | .setFrequency => .setFrequency (operandWord ws 0)
  | .setAmplitude => .setAmplitude (operandWord ws 0)
  | .setTempo => .setTempo (operandWord ws 0)
  | .setSequence => .setSequence (kindOfBit (headerK h)) (variantOfBit (headerV h)) ws
  | .fillBlock => .fillBlock (headerA h) (operandWord ws 0)
  | .readTable => .readTable (operandWord ws 0)
  | .readReg => .readReg (operandWord ws 0)
  | .readSeq => .readSeq (operandWord ws 0)

/-- Decode a packet that arrived on port `p`, in the order of 30 R44: header row, then length, then port. -/
def decode (p : Port) (k : Packet) : Decoded :=
  match selectRow k.header with
  | none => .illegal .noHeaderRow
  | some op =>
    if k.operands.length ≠ operandCount op (headerA k.header) then .illegal .wrongLength
    else if p ≠ op.port then .illegal .wrongPort
    else .instr (instrOf op k.header k.operands)

/-! ### Encoding (30 R41, R42) -/

/-- The opcode of a mnemonic (30 R42). -/
def Mnemonic.opcode : Mnemonic → BitVec 8
  | .buildTable => 0x01#8
  | .prepare => 0x02#8
  | .setFrequency => 0x03#8
  | .setAmplitude => 0x04#8
  | .setTempo => 0x05#8
  | .setSequence => 0x06#8
  | .fillBlock => 0x07#8
  | .readTable => 0x08#8
  | .readReg => 0x09#8
  | .readSeq => 0x0A#8

/-- A header word from its fields, `OP RSV1 K V RSV2 A` from bit 31 down, the reserved fields zero (30 §2). -/
def headerOf (op : Mnemonic) (k v : Bool) (a : BitVec 16) : Word :=
  op.opcode ++ 0#2 ++ BitVec.ofBool k ++ BitVec.ofBool v ++ 0#4 ++ a

/-- Bit K of an entry kind (30 §2). -/
def EntryKind.bit : EntryKind → Bool
  | .hz => false
  | .midi => true

/-- Bit V of a variant (30 §2). -/
def Variant.bit : Variant → Bool
  | .sequence => false
  | .random => true

/-- The packet of a command (30 R42). -/
def encode : Instr → Packet
  | .buildTable n h => ⟨headerOf .buildTable false false 0, [n, h]⟩
  | .prepare p r => ⟨headerOf .prepare false false 0, [p, r]⟩
  | .setFrequency f => ⟨headerOf .setFrequency false false 0, [f]⟩
  | .setAmplitude a => ⟨headerOf .setAmplitude false false 0, [a]⟩
  | .setTempo npm => ⟨headerOf .setTempo false false 0, [npm]⟩
  | .setSequence k v es => ⟨headerOf .setSequence k.bit v.bit (BitVec.ofNat 16 es.length), es⟩
  | .fillBlock c b => ⟨headerOf .fillBlock false false c, [b]⟩
  | .readTable i => ⟨headerOf .readTable false false 0, [i]⟩
  | .readReg sel => ⟨headerOf .readReg false false 0, [sel]⟩
  | .readSeq i => ⟨headerOf .readSeq false false 0, [i]⟩

/-- The port a command must come on (30 R45). -/
def Instr.port (i : Instr) : Port := i.mnemonic.port

/-! ### The byte transport (20 R30) -/

/-- A word from its four transport bytes, bits 7:0 first (20 R30). -/
def wordOfBytes (b0 b1 b2 b3 : Byte) : Word := b3 ++ b2 ++ b1 ++ b0

/-- The four transport bytes of a word, bits 7:0 first (20 R30). -/
def bytesOfWord (w : Word) : List Byte :=
  [w.extractLsb' 0 8, w.extractLsb' 8 8, w.extractLsb' 16 8, w.extractLsb' 24 8]

/-- The words of a byte sequence, if it is a whole number of them (20 R30). -/
def wordsOfBytes : List Byte → Option (List Word)
  | [] => some []
  | b0 :: b1 :: b2 :: b3 :: bs => (wordsOfBytes bs).map (wordOfBytes b0 b1 b2 b3 :: ·)
  | _ => none

/-- The words of a packet, header first (30 R40). -/
def Packet.words (k : Packet) : List Word := k.header :: k.operands

/-- A packet as transport bytes (20 R30). -/
def Packet.bytes (k : Packet) : List Byte := k.words.flatMap bytesOfWord

/-- Decode any byte sequence that a byte transport delivers as one packet (20 R30, 30 R44, log 13). -/
def decodeBytes (p : Port) (bs : List Byte) : Decoded :=
  match wordsOfBytes bs with
  | none => .illegal .raggedBytes
  | some [] => .illegal .emptyPacket
  | some (h :: ws) => decode p ⟨h, ws⟩

/-! ### A row of the opcode table as a packet (log 15) -/

/-- The packet whose words are `w`, the first word in bits 31:0 and each later word above it, bits from `nbits` up zero.
Its word count is the one its header row asks for, one word when no row matches (log 15). -/
def tablePacket (nbits w : Nat) : Packet :=
  let bits := w % 2 ^ nbits
  let h : Word := BitVec.ofNat 32 bits
  let count := match selectRow h with
    | some op => operandCount op (headerA h)
    | none => 0
  ⟨h, (List.range count).map fun j => BitVec.ofNat 32 (bits >>> (32 * (j + 1)))⟩

/-- The port that the header's row gives, the control port when no row matches (30 R45, log 15). -/
def tablePort (nbits w : Nat) : Port :=
  match selectRow (tablePacket nbits w).header with
  | some op => op.port
  | none => .control

/-- The instruction the decoder reads from a row's bits. -/
def decodeTableWord (nbits w : Nat) : Option Instr :=
  (decode (tablePort nbits w) (tablePacket nbits w)).toOption

end Sys2Proof
end

