-- ==== Sys2Proof/Machine/State.lean ====
section
/-!
DEFINITION. The state of the block (10_state.md §2, 20_memory.md §1), the events and histories it exchanges with its
environment (60 R98), the state after reset (70 R102), and the reasons a step of the model can stop.
-/

namespace Sys2Proof.Machine

/-- The sizes an instance fixes (00 §3, R1). No step writes them (log 1). -/
structure Params where
  tableSizeMax : Nat
  harmonicsMax : Nat
  seqMax : Nat
  blockMax : Nat
  channelsMax : Nat
  deriving DecidableEq, Repr

/-- The instance of the vectors of 95 part 2, which `State.reset` uses (DESIGN CHOICE, unsafe: log 1). -/
def Params.reference : Params :=
  { tableSizeMax := 4096, harmonicsMax := 4096, seqMax := 64, blockMax := 4096, channelsMax := 8 }

/-- `seq_mode`, the sequencer's state flag (10 R14). -/
inductive SeqMode where
  | idle | running
  deriving DecidableEq, Repr

/-- `fault_cause`: the recorded causes of 60 R89. Codes 6 to 255 are never recorded (log 12). -/
inductive FaultCause where
  | none | badShape | noTable | notPrepared | noTempo | blockTooLarge
  deriving DecidableEq, Repr

/-- The response codes of 60 R88. Codes 6 to 255 are never sent. -/
inductive ResponseCode where
  | ok | invalidArgument | invalidState | illegalCommand | faulted | fatal
  deriving DecidableEq, Repr

/-- One response: the port it goes back to (30 R40), its code (60 R88) and its data words (30 R48). -/
structure Response where
  port : Port
  code : ResponseCode
  data : List Word
  deriving DecidableEq, Repr

/-- One NoteChanged event, word 0 the entry index and word 1 the frequency (60 R94). -/
structure NoteChanged where
  index : Word
  freq : F32
  deriving DecidableEq, Repr

/-- What an agent of the environment does (60 R98). The list of these in State is the total order of 20 R35 (log 4). -/
inductive Event where
  /-- the control or the audio agent sends a packet on its port (30 R40) -/
  | command (port : Port) (packet : Packet)
  /-- the random source makes one more answer available (42 R73, log 6) -/
  | supplyDraw (raw : Nat)
  /-- the notification consumer takes an event (60 R94) -/
  | takeNote
  /-- reset is asserted (70 R104) -/
  | reset
  deriving DecidableEq, Repr

/-- A word-indexed memory: the words something has written, by rising index (20 R31, R33; log 2). An index that is not
listed holds no readable value (20 R26, R28; log 3). -/
abbrev WordMem := List (Nat × Word)

/-- The whole state: the registers of 10 §2 under their own names, the memories of 20 §1, the instance's parameters
(00 R1), and the model's own record of the environment (INVENTORY.md, State). -/
structure State where
  /-- the instance's sizes (00 R1) -/
  params : Params
  /-- `seq_mode` (10 R14) -/
  seqMode : SeqMode
  /-- `faulted` (10 R15) -/
  faulted : Bool
  /-- `fault_cause` (10 R15) -/
  faultCause : FaultCause
  /-- `tbl_valid` (10 R16) -/
  tblValid : Bool
  /-- `tbl_size`, N (10 R16) -/
  tblSize : BitVec 32
  /-- `tbl_harm`, H (10 R16) -/
  tblHarm : BitVec 32
  /-- `osc_index` (10 R17, R18) -/
  oscIndex : F32
  /-- `osc_delta` (10 R17, R19) -/
  oscDelta : F32
  /-- `osc_amp` (10 R17) -/
  oscAmp : F32
  /-- `osc_freq` (10 R17) -/
  oscFreq : F32
  /-- `prepared` (10 R20) -/
  prepared : Bool
  /-- `sr` (10 R20) -/
  sr : F32
  /-- `spb` (10 R20) -/
  spb : BitVec 32
  /-- `tempo_valid` (10 R21) -/
  tempoValid : Bool
  /-- `spn` (10 R21) -/
  spn : BitVec 32
  /-- `elapsed` (10 R22) -/
  elapsed : BitVec 64
  /-- `gen_variant` (10 R23) -/
  genVariant : Variant
  /-- `gen_bank` (10 R23) -/
  genBank : Bool
  /-- `gen_len`, L (10 R23) -/
  genLen : BitVec 16
  /-- `gen_cursor` (10 R23) -/
  genCursor : BitVec 16
  /-- the table memory `TBL` (20 R26) -/
  tbl : WordMem
  /-- sequence bank `SEQ[0]` (20 R28) -/
  seq0 : WordMem
  /-- sequence bank `SEQ[1]` (20 R28) -/
  seq1 : WordMem
  /-- the model's own: what the agents do next, in the total order of 20 R35 (log 4) -/
  pending : List Event
  /-- the model's own: the responses sent, newest first (30 R40, 70 R104, log 5) -/
  responses : List Response
  /-- the model's own: the NoteChanged history, newest first (60 R94, log 5) -/
  notes : List NoteChanged
  /-- the model's own: raw answers of the random source not yet asked for (42 R73, log 6) -/
  draws : List Nat
  /-- the model's own: how many draws have been consumed (10 R25 (b), log 6) -/
  drawPos : Nat
  deriving DecidableEq, Repr

/-- Every register at the value of 70 R102, for an instance with the given sizes, before any agent has done anything. -/
def State.resetWith (p : Params) : State :=
  { params := p
    seqMode := .idle
    faulted := false
    faultCause := .none
    tblValid := false
    tblSize := 0#32
    tblHarm := 0#32
    oscIndex := 0#32
    oscDelta := 0#32
    oscAmp := 0#32
    oscFreq := 0#32
    prepared := false
    sr := 0#32
    spb := 0#32
    tempoValid := false
    spn := 0#32
    elapsed := 0#64
    genVariant := .sequence
    genBank := false
    genLen := 0#16
    genCursor := 0#16
    tbl := []
    seq0 := []
    seq1 := []
    pending := []
    responses := []
    notes := []
    draws := []
    drawPos := 0 }

/-- The machine right after reset (70 R102), with the sizes of the vectors of 95 part 2 (log 1). -/
def State.reset : State := State.resetWith Params.reference

/-- Why the model stops. Each one is raised only in a state that no run from reset reaches, where the spec gives the
operation no meaning; stopping there is safe (log 11). -/
inductive Fault where
  /-- Raised by OscStep and READ_TABLE: word `index` of TBL holds no readable value (20 R26, R31 (b)). Safe. -/
  | tableWordUnreadable (index : Nat)
  /-- Raised by NextFrequency and READ_SEQ: word `index` of the active bank holds no readable value (20 R28, R31 (c)). Safe. -/
  | sequenceWordUnreadable (index : Nat)
  /-- Raised by OscStep and SET_TEMPO: `floorNat` or `roundHalfAway` is asked for a value that is not a finite
  value of at least zero, where 00 R5 and R6 do not define it. Safe. -/
  | outsideDomain (value : F32)
  deriving DecidableEq, Repr

/-- Why an instruction has no meaning in the model. -/
inductive Refusal where
  /-- Raised by an arm of `exec` whose instruction is not modelled; no arm is. Safe. -/
  | notModelled (mnemonic : String)
  deriving DecidableEq, Repr

/-- What running one command gives. -/
abbrev Result := Host.Outcome State Fault Refusal

end Sys2Proof.Machine
end

