-- ==== Sys2Proof/Machine/Flags.lean ====
section
/-!
DEFINITION. The block's flags as software sees them: the codes of the enumerated registers (10 §2, 60 R88, R89), the
STATUS word of READ_REG 0 (44 R85) and the words of a response and of a notification (30 R48, 60 R94). The block has no
arithmetic flags: `seq_mode` is its only condition flag (10 R14).
-/

namespace Sys2Proof.Machine

/-- IDLE = 0, RUNNING = 1 (10 §2). -/
def seqModeBit : SeqMode → Bool
  | .idle => false
  | .running => true

/-- The cause codes of 60 R89. -/
def faultCauseCode : FaultCause → BitVec 8
  | .none => 0#8
  | .badShape => 1#8
  | .noTable => 2#8
  | .notPrepared => 3#8
  | .noTempo => 4#8
  | .blockTooLarge => 5#8

/-- The response codes of 60 R88. -/
def responseCodeByte : ResponseCode → BitVec 8
  | .ok => 0#8
  | .invalidArgument => 1#8
  | .invalidState => 2#8
  | .illegalCommand => 3#8
  | .faulted => 4#8
  | .fatal => 5#8

/-- A response as the words sent: the status word, code in bits 7:0 and zeros above, then the data words (30 R48). -/
def responseWords (r : Response) : List Word := (responseCodeByte r.code).zeroExtend 32 :: r.data

/-- A NoteChanged event as its two words (60 R94). -/
def noteWords (n : NoteChanged) : List Word := [n.index, n.freq]

/-- The STATUS word, READ_REG selector 0 (44 R85): bits 7 and 31:16 are 0. -/
def statusWord (s : State) : Word :=
  0#16 ++ faultCauseCode s.faultCause ++ 0#1 ++ BitVec.ofBool s.genBank ++ BitVec.ofBool s.genVariant.bit
    ++ BitVec.ofBool s.tempoValid ++ BitVec.ofBool s.prepared ++ BitVec.ofBool s.tblValid
    ++ BitVec.ofBool s.faulted ++ BitVec.ofBool (seqModeBit s.seqMode)

end Sys2Proof.Machine
end

