-- ==== Sys2Proof/Machine/Float.lean ====
section
/-!
DEFINITION. Binary32 arithmetic (00 R2 to R7). Every finite binary32 value is a whole number of units of 2^-149, so the
operations compute exactly on whole numbers and round once, to nearest with ties to even.
-/

namespace Sys2Proof.Machine

/-! ### The layout (00 R2) -/

/-- The sign bit, bit 31. -/
def fsign (x : F32) : Bool := x.msb

/-- Bits 30:0, exponent and fraction, as a number: the magnitudes in their numeric order. -/
def fmag (x : F32) : Nat := x.toNat % 2 ^ 31

/-- The magnitude of infinity; every larger magnitude is a NaN (00 R2). -/
def infMag : Nat := 0x7F800000

/-- The magnitude `m` counted in units of 2^-149, the smallest subnormal: `m` itself when the exponent field is 0,
else the 24-bit significand shifted by one less than the exponent field. Infinity counts as 2^277 units, above every
finite value. -/
def units (m : Nat) : Nat :=
  if m < 2 ^ 23 then m else (2 ^ 23 + m % 2 ^ 23) * 2 ^ (m / 2 ^ 23 - 1)

/-- The value 1.0 in units of 2^-149. -/
def oneUnits : Nat := 2 ^ 149

/-- The value in units of 2^-149, exactly, for every value that is no NaN. -/
def fval (x : F32) : Int := if fsign x then -(units (fmag x) : Int) else units (fmag x)

/-- A value from its sign and magnitude. -/
def fpack (neg : Bool) (m : Nat) : F32 := BitVec.ofNat 32 (if neg then m + 2 ^ 31 else m)

def isNaN (x : F32) : Bool := decide (infMag < fmag x)
def isInf (x : F32) : Bool := decide (fmag x = infMag)
/-- Neither an infinity nor a NaN (00 R5). -/
def isFinite (x : F32) : Bool := decide (fmag x < infMag)

/-! ### Comparisons (00 R5): numeric, zeros equal, false on NaN -/

def flt (a b : F32) : Bool := !isNaN a && !isNaN b && decide (fval a < fval b)
def fle (a b : F32) : Bool := !isNaN a && !isNaN b && decide (fval a ≤ fval b)
def feq (a b : F32) : Bool := !isNaN a && !isNaN b && decide (fval a = fval b)

/-! ### Rounding (00 R3) -/

/-- The whole number nearest to `a / b`, the even one when two are equally near. -/
def nearestEven (a b : Nat) : Nat :=
  if b < 2 * (a % b) ∨ (2 * (a % b) = b ∧ a / b % 2 = 1) then a / b + 1 else a / b

/-- How many low binary places of `q` units lie below the last place of a 24-bit significand. -/
def dropped (q : Nat) : Nat := Nat.log2 q - 23

/-- The magnitude of `num / den` units rounded once to binary32, ties to even, subnormals kept; what is too large for
a finite value becomes infinity. -/
def roundMag (num den : Nat) : Nat :=
  let t := dropped (num / den)
  min (t * 2 ^ 23 + nearestEven num (den * 2 ^ t)) infMag

/-- A NaN result: some quiet NaN, which one the spec does not say (log 9). -/
def nanResult (op : FOp) (a b : F32) : F32 := Config.nanFree op a b ||| 0x7FC00000#32

/-- The opposite value. -/
def fneg (x : F32) : F32 := x ^^^ 0x80000000#32

/-- The sum of two values, each no NaN: exact, then rounded once. An exact zero is +0.0 unless both operands are -0.0. -/
def addCore (op : FOp) (a b : F32) : F32 :=
  if isInf a && isInf b && (fsign a != fsign b) then nanResult op a b
  else if isInf a then a
  else if isInf b then b
  else
    let x := fval a + fval b
    if x = 0 then fpack (fsign a && fsign b) 0 else fpack (decide (x < 0)) (roundMag x.natAbs 1)

/-- `fadd` (00 R3). -/
def fadd (a b : F32) : F32 :=
  if isNaN a || isNaN b then nanResult .add a b else addCore .add a b

/-- `fsub` (00 R3). -/
def fsub (a b : F32) : F32 :=
  if isNaN a || isNaN b then nanResult .sub a b else addCore .sub a (fneg b)

/-- `fmul` (00 R3). -/
def fmul (a b : F32) : F32 :=
  let neg := fsign a != fsign b
  if isNaN a || isNaN b then nanResult .mul a b
  else if isInf a || isInf b then
    if fmag a = 0 ∨ fmag b = 0 then nanResult .mul a b else fpack neg infMag
  else fpack neg (roundMag (units (fmag a) * units (fmag b)) oneUnits)

/-- `fdiv` (00 R3). A finite nonzero value over a zero is an infinity (43 R77). -/
def fdiv (a b : F32) : F32 :=
  let neg := fsign a != fsign b
  if isNaN a || isNaN b then nanResult .div a b
  else if isInf a then (if isInf b then nanResult .div a b else fpack neg infMag)
  else if isInf b then fpack neg 0
  else if fmag b = 0 then (if fmag a = 0 then nanResult .div a b else fpack neg infMag)
  else fpack neg (roundMag (units (fmag a) * oneUnits) (units (fmag b)))

/-! ### Conversions (00 R4 to R7) -/

/-- `toF32` (00 R4): exact for |n| up to 2^24; beyond that range, which no rule uses, rounded (log 10). -/
def toF32 (n : Int) : F32 := fpack (decide (n < 0)) (roundMag (n.natAbs * oneUnits) 1)

/-- The values on which `floorNat`, `roundHalfAway` and `wrapN` are defined: finite and at least zero (00 R5, R6, R7). -/
def inDomain (x : F32) : Bool := isFinite x && decide (0 ≤ fval x)

/-- `floorNat` (00 R5), for a value in the domain. -/
def floorNat (x : F32) : Nat := units (fmag x) / oneUnits

/-- `roundHalfAway` (00 R6), for a value in the domain. -/
def roundHalfAway (x : F32) : Nat := (2 * units (fmag x) + oneUnits) / (2 * oneUnits)

/-- `wrapN` (00 R7), for a value in the domain: the exact remainder, which is always representable; a zero is +0.0. -/
def wrapN (x : F32) (n : Nat) : F32 := fpack false (roundMag (units (fmag x) % (n * oneUnits)) 1)

/-! ### Numeric minimum and maximum of a list (41 R58) -/

/-- The numerically smaller value, the first when they are equal (log 16). -/
def fmin (a b : F32) : F32 := if flt b a then b else a
/-- The numerically larger value, the first when they are equal (log 16). -/
def fmax (a b : F32) : F32 := if flt a b then b else a

/-- The numeric minimum of a nonempty list. -/
def fminList : List F32 → F32
  | [] => 0#32
  | x :: xs => xs.foldl fmin x

/-- The numeric maximum of a nonempty list. -/
def fmaxList : List F32 → F32
  | [] => 0#32
  | x :: xs => xs.foldl fmax x

end Sys2Proof.Machine
end

