-- ==== Sys2Proof/Machine/Functions.lean ====
section
/-!
DEFINITION. The two function parameters `SIN_TURN` (00 R9) and `EXP2` (00 R10): a free function of Config held to the
properties the spec assumes, so that the function ranges over exactly the functions with those properties.
-/

namespace Sys2Proof.Machine

/-- The exact value of sin at `q` quarter turns, `q` below 4 (00 R9 (a)). -/
def quarterTurn (q : Nat) : F32 :=
  if q = 1 then Config.f32One else if q = 3 then Config.f32NegOne else 0#32

/-- Whether a value lies in [-1.0, 1.0] (00 R9 (b)). -/
def inUnitRange (v : F32) : Bool := fle Config.f32NegOne v && fle v Config.f32One

/-- A function from `(k, M)` held to 00 R9: exact at the quarter turns, in [-1.0, 1.0] everywhere. -/
def sinTurnWith (free : Nat → Nat → F32) (k m : Nat) : F32 :=
  if 4 * k % m = 0 then quarterTurn (4 * k / m)
  else if inUnitRange (free k m) then free k m else 0#32

/-- `SIN_TURN(k, M)` (00 R9, log 7). -/
def sinTurn (k m : Nat) : F32 := sinTurnWith Config.sinTurnFree k m

/-- 2 to the power `j`, for a whole `j` that binary32 holds as a normal number. -/
def pow2 (j : Int) : F32 := fpack false ((127 + j).toNat * 2 ^ 23)

/-- Whether `e` lies in [-5.75, 4.8334], exactly (00 R10 (c)). -/
def exp2InRange (e : F32) : Bool :=
  isFinite e && decide (-(23 * 2 ^ 147) ≤ fval e) && decide (fval e * 5000 ≤ 24167 * 2 ^ 149)

/-- What 00 R10 (c) requires of `EXP2(e)` for `e` in that range: finite and above zero. Nothing else is assumed (log 8). -/
def exp2Legal (v : F32) : Bool := isFinite v && flt 0#32 v

/-- A function from F32 held to 00 R10 (log 8): exact at the integers from -6 to 4, legal on the range of (c). -/
def exp2With (free : F32 → F32) (e : F32) : F32 :=
  if isFinite e ∧ fval e % 2 ^ 149 = 0 ∧ -6 ≤ fval e / 2 ^ 149 ∧ fval e / 2 ^ 149 ≤ 4 then
    pow2 (fval e / 2 ^ 149)
  else if exp2InRange e && !exp2Legal (free e) then Config.f32One
  else free e

/-- `EXP2(e)` (00 R10, log 8). -/
def exp2 (e : F32) : F32 := exp2With Config.exp2Free e

end Sys2Proof.Machine
end

