-- ==== Sys2Proof/Machine/Operands.lean ====
section
/-!
DEFINITION. How operand words are read (30 R43) and the range checks the commands share: frequencies (40 R52, 42 R67),
MIDI entries (42 R67, R69), sample rates and tempos (43 R76, R77).
-/

namespace Sys2Proof.Machine

/-- A u32 operand: the word as an unsigned integer (30 R43). -/
def u32Operand (w : Word) : Nat := w.toNat

/-- An F32 operand: the word as a binary32 bit pattern (30 R43). -/
def f32Operand (w : Word) : F32 := w

/-- The check on a frequency: finite, at least 0.0 (so -0.0 passes), at most FREQ_MAX (40 R52, 42 R67). -/
def freqAccepted (f : F32) : Bool :=
  isFinite f && fle 0#32 f && !flt Config.freqMax f

/-- The check on a sample rate: finite and at least SR_MIN (43 R76). -/
def rateAccepted (r : F32) : Bool := isFinite r && fle Config.srMin r

/-- The check on a tempo: finite and above 0.0 (43 R77). -/
def tempoAccepted (npm : F32) : Bool := isFinite npm && flt 0#32 npm

/-- `MidiToHz(n)` (42 R69). -/
def midiToHz (n : Nat) : F32 :=
  fmul Config.midiRefHz (exp2 (fdiv (toF32 ((n : Int) - Config.midiRefNote)) Config.f32Twelve))

/-- One entry of a SET_SEQUENCE as a frequency in Hz, or nothing when it is a bad entry (42 R67). -/
def loadEntry (k : EntryKind) (w : Word) : Option F32 :=
  match k with
  | .hz => if freqAccepted (f32Operand w) then some (f32Operand w) else none
  | .midi => if u32Operand w ≤ Config.midiMax then some (midiToHz (u32Operand w)) else none

/-- The entries of a SET_SEQUENCE from first to last; one bad entry rejects the whole list (42 R67, 60 R93). -/
def loadEntries (k : EntryKind) : List Word → Option (List F32)
  | [] => some []
  | w :: ws =>
    match loadEntry k w with
    | none => none
    | some v => (loadEntries k ws).map (v :: ·)

end Sys2Proof.Machine
end

