-- ==== Sys2Proof/Machine/Ops.lean ====
section
/-!
DEFINITION. The operations every command shares: the word memories (20 R26 to R33), responses (30 R40, R48), the fault gate
(60 R91), raising a fatal fault (60 R90) and its only exit, reset (70 R102, R104), notifications (60 R94), the random-draw
input (42 R73), and the events of the environment (60 R98).
-/

namespace Sys2Proof.Machine

/-! ### Word memories -/

/-- Word `i`, if something has written it (log 3). -/
def memRead (m : WordMem) (i : Nat) : Option Word :=
  match m with
  | [] => none
  | (a, w) :: rest => if a = i then some w else memRead rest i

/-- Write word `i`, keeping the indices rising. -/
def memWrite (m : WordMem) (i : Nat) (v : Word) : WordMem :=
  match m with
  | [] => [(i, v)]
  | (a, w) :: rest =>
    if i < a then (i, v) :: (a, w) :: rest
    else if i = a then (i, v) :: rest
    else (a, w) :: memWrite rest i v

/-- Write the given words at `i`, `i + 1`, and so on. -/
def memWriteAll (m : WordMem) (i : Nat) : List Word → WordMem
  | [] => m
  | v :: vs => memWrite (memWriteAll m (i + 1) vs) i v

/-- The canonical form: indices strictly rising. An unlisted word has no value, so no entry can equal it (log 3). -/
abbrev memWf (m : WordMem) : Prop := (m.map Prod.fst).Pairwise (· < ·)

/-- Sequence bank `SEQ[b]` (20 R28). -/
def State.bank (s : State) (b : Bool) : WordMem := if b then s.seq1 else s.seq0

/-- The state with sequence bank `SEQ[b]` replaced (20 R28). -/
def State.setBank (s : State) (b : Bool) (m : WordMem) : State :=
  if b then { s with seq1 := m } else { s with seq0 := m }

/-- `MemRead(TBL, i)`: readable while `tbl_valid` is 1, for `i` up to N (20 R26). -/
def State.tblRead (s : State) (i : Nat) : Except Fault Word :=
  if s.tblValid && decide (i ≤ s.tblSize.toNat) then
    match memRead s.tbl i with
    | some v => .ok v
    | none => .error (.tableWordUnreadable i)
  else .error (.tableWordUnreadable i)

/-- `MemRead(SEQ[gen_bank], i)`: readable for `i` below `gen_len` (20 R28). -/
def State.seqRead (s : State) (i : Nat) : Except Fault Word :=
  if i < s.genLen.toNat then
    match memRead (s.bank s.genBank) i with
    | some v => .ok v
    | none => .error (.sequenceWordUnreadable i)
  else .error (.sequenceWordUnreadable i)

/-- A value on which `floorNat` or `roundHalfAway` is to be taken: outside their domain they have no meaning (00 R5, R6,
log 11). -/
def domain (x : F32) : Except Fault F32 :=
  if inDomain x then .ok x else .error (.outsideDomain x)

/-- What a computation that may meet no meaning gives as a step. -/
def outcomeOf : Except Fault State → Result
  | .ok s => .next s
  | .error f => .fault f

/-! ### Responses and the fault gate -/

/-- Send one response (30 R40): it joins the history (log 5). -/
def State.respond (s : State) (p : Port) (c : ResponseCode) (data : List Word) : State :=
  { s with responses := ⟨p, c, data⟩ :: s.responses }

/-- `respond(status)` on the control port, no data words. -/
def State.answer (s : State) (c : ResponseCode) : Result := .next (s.respond .control c [])

/-- `respond(OK, w)` on the control port, one data word (30 R48). -/
def State.answerWord (s : State) (w : Word) : Result := .next (s.respond .control .ok [w])

/-- The fault gate of a control command: while faulted it answers FAULTED and changes nothing (60 R91). -/
def State.gated (s : State) (k : Result) : Result := if s.faulted then s.answer .faulted else k

/-! ### Fatal faults (60 R90) and reset (70 R102, R104) -/

/-- `raise Fatal(cause)`: the fault state is recorded and the audio agent is answered FATAL with the given words;
nothing else changes (60 R90). -/
def State.raiseFatal (s : State) (cause : FaultCause) (silence : List Word) : State :=
  { s with faulted := true, faultCause := cause }.respond .audio .fatal silence

/-- The reset agent's step: every register at its reset value and no memory word readable; the environment and the
instance's parameters stay as they are (70 R102 to R104, log 21). It is the only exit from the fault state. -/
def State.doReset (s : State) : State :=
  { State.resetWith s.params with
    pending := s.pending, responses := s.responses, notes := s.notes, draws := s.draws, drawPos := s.drawPos }

/-! ### Notification (60 R94) -/

/-- `emit NoteChanged(idx, f)` (60 R94): the event joins the history (log 5). -/
def State.emitNote (s : State) (idx : Nat) (f : F32) : State :=
  { s with notes := ⟨BitVec.ofNat 32 idx, f⟩ :: s.notes }

/-! ### Random draws (42 R73, log 6) -/

/-- The next raw answer of the random source, a supplied one if there is one, else the free one at this position. -/
def State.rawDraw (s : State) : Nat :=
  match s.draws with
  | n :: _ => n
  | [] => Config.freeDraw s.drawPos

/-- The state after one draw has been consumed. -/
def State.afterDraw (s : State) : State :=
  { s with draws := s.draws.tail, drawPos := s.drawPos + 1 }

/-- The F32 in [0, 1) that a raw answer stands for: every such value, -0.0 among them, is one (42 R73, log 6). -/
def drawROf (n : Nat) : F32 :=
  let k := n % (Config.f32One.toNat + 1)
  if k = Config.f32One.toNat then 0x80000000#32 else BitVec.ofNat 32 k

/-- The natural below `len` that a raw answer stands for (42 R73, log 6). -/
def drawJOf (n len : Nat) : Nat := n % len

/-! ### Events of the environment (60 R98) -/

/-- The answer to a packet that encodes no command: ILLEGAL_COMMAND to the port it came on, nothing changes (30 R44). -/
def State.illegal (s : State) (p : Port) : State := s.respond p .illegalCommand []

/-- The random source makes one more answer available (42 R73). -/
def State.supply (s : State) (raw : Nat) : State := { s with draws := s.draws ++ [raw] }

/-- The notification consumer takes an event: no state of the block depends on it (60 R94). -/
def State.consume (s : State) : State := s

/-- The state once the first pending event has left the list. -/
def State.dequeue (s : State) : State := { s with pending := s.pending.tail }

end Sys2Proof.Machine
end

