-- ==== Sys2Proof/Machine/ReadBack.lean ====
section
/-!
DEFINITION. The read-back commands (44_debug.md). No fault gate applies to them and none of them changes a register.
-/

namespace Sys2Proof.Machine

/-- Answer OK with a word read from a memory, or stop where the word holds no readable value (log 11). -/
def State.answerRead (s : State) : Except Fault Word → Result
  | .ok w => s.answerWord w
  | .error f => .fault f

/-- READ_TABLE (44 R84). -/
def execReadTable (index : Word) (s : State) : Result :=
  if !s.tblValid then s.answer .invalidState
  else if u32Operand index > s.tblSize.toNat then s.answer .invalidArgument
  else s.answerRead (s.tblRead (u32Operand index))

/-- The register a selector names, as a data word (44 R85). -/
def State.regWord (s : State) (sel : Nat) : Option Word :=
  match sel with
  | 0 => some (statusWord s)
  | 1 => some s.tblSize
  | 2 => some s.tblHarm
  | 3 => some s.oscIndex
  | 4 => some s.oscDelta
  | 5 => some s.oscAmp
  | 6 => some s.oscFreq
  | 7 => some s.sr
  | 8 => some s.spb
  | 9 => some s.spn
  | 10 => some (s.elapsed.extractLsb' 0 32)
  | 11 => some (s.elapsed.extractLsb' 32 32)
  | 12 => some (s.genLen.zeroExtend 32)
  | 13 => some (s.genCursor.zeroExtend 32)
  | _ => none

/-- READ_REG (44 R85). -/
def execReadReg (selector : Word) (s : State) : Result :=
  match s.regWord (u32Operand selector) with
  | none => s.answer .invalidArgument
  | some w => s.answerWord w

/-- READ_SEQ (44 R86). -/
def execReadSeq (index : Word) (s : State) : Result :=
  if s.seqMode = .idle then s.answer .invalidState
  else if u32Operand index ≥ s.genLen.toNat then s.answer .invalidArgument
  else s.answerRead (s.seqRead (u32Operand index))

end Sys2Proof.Machine
end

