-- ==== Sys2Proof/Machine/FrequencySource.lean ====
section
/-!
DEFINITION. The frequency sources (42_frequency_source.md): SET_SEQUENCE, which installs one, and NextFrequency, which
advances it at a note boundary.
-/

namespace Sys2Proof.Machine

/-- The installed source: the inactive bank written, then the bank flip and the registers, in one transition (42 R67). -/
def State.installSequence (s : State) (v : Variant) (hz : List F32) : State :=
  { s.setBank (!s.genBank) (memWriteAll (s.bank (!s.genBank)) 0 hz) with
    genBank := !s.genBank, genLen := BitVec.ofNat 16 hz.length, genVariant := v, genCursor := 0#16,
    seqMode := .running }

/-- SET_SEQUENCE (42 R67), the checks in its order: empty list, too long, each entry. -/
def execSetSequence (kind : EntryKind) (variant : Variant) (entries : List Word) (s : State) : Result :=
  s.gated <|
    if entries.length = 0 then s.answer .invalidState
    else if entries.length > s.params.seqMax then s.answer .invalidArgument
    else match loadEntries kind entries with
      | none => s.answer .invalidArgument
      | some hz => (s.installSequence variant hz).answer .ok

/-- The cursor moved to the index after `idx`, cyclically (42 R71, R72). -/
def State.cursorAfter (s : State) (idx : Nat) : State :=
  { s with genCursor := BitVec.ofNat 16 ((idx + 1) % s.genLen.toNat) }

/-- The index a Random advance chooses, and the state after its draws: one draw for a step, two for a jump (42 R72). -/
def State.randomIndex (s : State) : Nat × State :=
  if flt (drawROf s.rawDraw) Config.randomThreshold then (s.genCursor.toNat, s.afterDraw)
  else (drawJOf s.afterDraw.rawDraw s.genLen.toNat, s.afterDraw.afterDraw)

/-- The index an advance chooses, by variant (42 R70 to R72). -/
def State.nextIndex (s : State) : Nat × State :=
  match s.genVariant with
  | .sequence => (s.genCursor.toNat, s)
  | .random => s.randomIndex

/-- `NextFrequency()` (42 R70): the index chosen, its frequency, and the state with the cursor moved on. -/
def State.nextFrequency (s : State) : Except Fault (Nat × F32 × State) := do
  let (idx, s1) := s.nextIndex
  let f ← s.seqRead idx
  return (idx, f, s1.cursorAfter idx)

end Sys2Proof.Machine
end

