-- ==== Sys2Proof/Machine/Oscillator.lean ====
section
/-!
DEFINITION. The oscillator (40_oscillator.md): SET_AMPLITUDE, SET_FREQUENCY, the phase increment, one sample, and the block
render that FILL_BLOCK runs.
-/

namespace Sys2Proof.Machine

/-- `RecomputeDelta()` (40 R53): the multiply first, then the divide, and only once both the table and the stream exist. -/
def State.recomputeDelta (s : State) : State :=
  if s.tblValid && s.prepared then
    { s with oscDelta := fdiv (fmul s.oscFreq (toF32 s.tblSize.toNat)) s.sr }
  else s

/-- `Interp(x)` (40 R54). -/
def State.interp (s : State) (x : F32) : Except Fault F32 := do
  let x ← domain x
  let v0 ← s.tblRead (floorNat x)
  let v1 ← s.tblRead (floorNat x + 1)
  return fadd v0 (fmul (fsub x (toF32 (floorNat x))) (fsub v1 v0))

/-- The phase after the sum `osc_index + osc_delta` (40 R55): `wrapN` of it where 00 R7 defines that. A sum that is not
finite arises only from a MIDI frequency above FREQ_MAX, which an EXP2 that 00 R10 allows may give; R7 states no result for
it, so the phase is then free in the range of 10 R18 (log 22). -/
def phaseAfter (sum : F32) (n : Nat) : F32 :=
  if inDomain sum then wrapN sum n
  else if inDomain (Config.phaseFree sum n) then wrapN (Config.phaseFree sum n) n else 0#32

/-- `OscStep()` (40 R55): the sample at the phase before the advance, and the state with the phase advanced. -/
def State.oscStep (s : State) : Except Fault (F32 × State) := do
  let v ← s.interp s.oscIndex
  return (fmul s.oscAmp v, { s with oscIndex := phaseAfter (fadd s.oscIndex s.oscDelta) s.tblSize.toNat })

/-- `frames` successive OscSteps: channel 0 of a block (40 R57). -/
def State.renderMono : Nat → State → Except Fault (List F32 × State)
  | 0, s => .ok ([], s)
  | frames + 1, s => do
    let (y, s1) ← s.oscStep
    let (ys, s2) ← State.renderMono frames s1
    return (y :: ys, s2)

/-- The planar output buffer: every channel is a copy of channel 0 (20 R29, 40 R57). -/
def planar (channels : Nat) (mono : List F32) : List F32 := (List.replicate channels mono).flatten

/-- `RenderBlock(C, B)` (40 R57). -/
def State.renderBlock (s : State) (channels frames : Nat) : Except Fault (List F32 × State) := do
  let (mono, s1) ← State.renderMono frames s
  return (planar channels mono, s1)

/-- SET_AMPLITUDE (40 R51). -/
def execSetAmplitude (amp : F32) (s : State) : Result :=
  s.gated <|
    if !isFinite amp then s.answer .invalidArgument
    else State.answer { s with oscAmp := amp } .ok

/-- SET_FREQUENCY (40 R52). -/
def execSetFrequency (freq : F32) (s : State) : Result :=
  s.gated <|
    if !freqAccepted freq then s.answer .invalidArgument
    else (State.recomputeDelta { s with oscFreq := freq }).answer .ok

end Sys2Proof.Machine
end

