-- ==== Sys2Proof/Machine/Sequencer.lean ====
section
/-!
DEFINITION. The sequencer (43_sequencer.md): PREPARE, SET_TEMPO, and FILL_BLOCK with its note boundary.
-/

namespace Sys2Proof.Machine

/-- PREPARE (43 R76). -/
def execPrepare (samplesPerBlock : Word) (sampleRate : F32) (s : State) : Result :=
  s.gated <|
    if u32Operand samplesPerBlock < 1 || u32Operand samplesPerBlock > s.params.blockMax then
      s.answer .invalidArgument
    else if !rateAccepted sampleRate then s.answer .invalidArgument
    else (State.recomputeDelta { s with spb := samplesPerBlock, sr := sampleRate, prepared := true }).answer .ok

/-- The note length in frames before it is rounded: the rate over the tempo per second, each division rounded once (43 R77). -/
def noteLength (sr npm : F32) : F32 := fdiv sr (fdiv npm Config.f32Sixty)

/-- SET_TEMPO (43 R77), the checks in its order. -/
def execSetTempo (npm : F32) (s : State) : Result :=
  s.gated <|
    if !tempoAccepted npm then s.answer .invalidArgument
    else if !s.prepared then s.answer .invalidState
    else if !isFinite (noteLength s.sr npm) then s.answer .invalidArgument
    else match domain (noteLength s.sr npm) with
      | .error f => .fault f
      | .ok d =>
        if roundHalfAway d > Config.spnMax then s.answer .invalidArgument
        else State.answer { s with spn := BitVec.ofNat 32 (roundHalfAway d), tempoValid := true } .ok

/-- Whether the output buffer can hold a block of this shape (43 R78, 60 R89 BAD_SHAPE). -/
def State.shapeOk (s : State) (channels : BitVec 16) (frames : Word) : Bool :=
  decide (1 ≤ channels.toNat) && decide (channels.toNat ≤ s.params.channelsMax)
    && decide (u32Operand frames ≤ s.params.blockMax)

/-- The all-zero buffer of `C` times `B` samples (20 R29). -/
def silence (channels : BitVec 16) (frames : Word) : List Word :=
  List.replicate (channels.toNat * u32Operand frames) 0#32

/-- The buffer of a FAULTED response: silence when the shape is one the buffer holds, else no words (60 R91). -/
def State.faultedBuffer (s : State) (channels : BitVec 16) (frames : Word) : List Word :=
  if s.shapeOk channels frames then silence channels frames else []

/-- The fatal cause a RUNNING FILL_BLOCK finds first, if there is one (43 R78, 60 R89). -/
def State.runningCause (s : State) (frames : Word) : Option FaultCause :=
  if !s.tblValid then some .noTable
  else if !s.prepared then some .notPrepared
  else if !s.tempoValid then some .noTempo
  else if u32Operand frames > s.spb.toNat then some .blockTooLarge
  else none

/-- What a note boundary does, in the order of 43 R79: advance, push the frequency, restart the timer, notify. -/
def State.noteBoundary (s : State) : Except Fault State := do
  let (idx, f, s1) ← s.nextFrequency
  return State.emitNote { State.recomputeDelta { s1 with oscFreq := f } with elapsed := 0#64 } idx f

/-- The boundary check of a RUNNING FILL_BLOCK: strictly more than `spn` frames have passed (43 R78). -/
def State.boundaryCheck (s : State) : Except Fault State :=
  if s.elapsed.toNat > s.spn.toNat then s.noteBoundary else .ok s

/-- A RUNNING FILL_BLOCK that has passed its checks (43 R78): the boundary check, the render, the timer, the response. -/
def State.runBlock (s : State) (channels : BitVec 16) (frames : Word) : Except Fault State := do
  let s1 ← s.boundaryCheck
  let (out, s2) ← s1.renderBlock channels.toNat (u32Operand frames)
  return State.respond { s2 with elapsed := s2.elapsed + frames.zeroExtend 64 } .audio .ok out

/-- FILL_BLOCK (43 R78), the checks in the order of 60 R93. -/
def execFillBlock (channels : BitVec 16) (frames : Word) (s : State) : Result :=
  if s.faulted then .next (s.respond .audio .faulted (s.faultedBuffer channels frames))
  else if !s.shapeOk channels frames then .next (s.raiseFatal .badShape [])
  else match s.seqMode with
    | .idle => .next (s.respond .audio .ok (silence channels frames))
    | .running =>
      match s.runningCause frames with
      | some cause => .next (s.raiseFatal cause (silence channels frames))
      | none => outcomeOf (s.runBlock channels frames)

end Sys2Proof.Machine
end

