-- ==== Sys2Proof/Machine/TableBuilder.lean ====
section
/-!
DEFINITION. The band-limited sawtooth table generator (41_table_builder.md). The sums take the sine as an argument, so that
they can be evaluated for a given one; BUILD_TABLE runs them with `SIN_TURN`.
-/

namespace Sys2Proof.Machine

/-- The partial sum of harmonics 1 to `h` at table index `i`, ascending from +0.0, the angle reduced on integers modulo
`m` (41 R58, R59). -/
def partialSum (sin : Nat → Nat → F32) (m i : Nat) : Nat → F32
  | 0 => 0#32
  | h + 1 => fadd (partialSum sin m i h) (fdiv (sin ((h + 1) * i % m) m) (toF32 (h + 1 : Nat)))

/-- The raw sums `raw[0 .. N-1]` (41 R58). -/
def rawTable (sin : Nat → Nat → F32) (size harmonics : Nat) : List F32 :=
  (List.range size).map fun i => partialSum sin (size - 1) i harmonics

/-- One normalized sample (41 R58, R60). -/
def normalizeSample (mn rng x : F32) : F32 :=
  fsub (fdiv (fmul Config.f32Two (fsub x mn)) rng) Config.f32One

/-- The normalized samples, or nothing when all raw values are equal (41 R58, R63). -/
def normalizeTable (raw : List F32) : Option (List F32) :=
  if feq (fmaxList raw) (fminList raw) then none
  else some (raw.map (normalizeSample (fminList raw) (fsub (fmaxList raw) (fminList raw))))

/-- The words `TBL[0 .. N]`: the normalized samples and the wrap guard, a copy of word 0; nothing when the table is
degenerate (41 R58, R61, R63). -/
def tableWords (sin : Nat → Nat → F32) (size harmonics : Nat) : Option (List F32) :=
  (normalizeTable (rawTable sin size harmonics)).map fun ws => ws ++ ws.take 1

/-- The state once a table has been built (41 R58). -/
def State.installTable (s : State) (size harmonics : Word) (ws : List F32) : State :=
  State.recomputeDelta
    { s with tbl := memWriteAll s.tbl 0 ws, tblSize := size, tblHarm := harmonics, tblValid := true }

/-- BUILD_TABLE (41 R58), the checks in its order: size, harmonics, built once, degenerate. -/
def execBuildTable (size harmonics : Word) (s : State) : Result :=
  s.gated <|
    if u32Operand size < 4 || u32Operand size > s.params.tableSizeMax then s.answer .invalidArgument
    else if u32Operand harmonics < 1 || u32Operand harmonics > s.params.harmonicsMax then s.answer .invalidArgument
    else if s.tblValid then s.answer .invalidState
    else match tableWords sinTurn (u32Operand size) (u32Operand harmonics) with
      | none => s.answer .invalidArgument
      | some ws => (s.installTable size harmonics ws).answer .ok

end Sys2Proof.Machine
end

