-- ==== Sys2Proof/Machine/Dispatch.lean ====
section
/-!
DEFINITION. One arm per command, each one direct call of the command's meaning (00 R11: a command is one atomic transition).
-/

namespace Sys2Proof.Machine

def exec (i : Instr) (s : State) : Host.Outcome State Fault Refusal :=
  match i with
  | .buildTable size harmonics => Sys2Proof.Machine.execBuildTable size harmonics s
  | .prepare samplesPerBlock sampleRate => Sys2Proof.Machine.execPrepare samplesPerBlock sampleRate s
  | .setFrequency freq => Sys2Proof.Machine.execSetFrequency freq s
  | .setAmplitude amp => Sys2Proof.Machine.execSetAmplitude amp s
  | .setTempo npm => Sys2Proof.Machine.execSetTempo npm s
  | .setSequence kind variant entries => Sys2Proof.Machine.execSetSequence kind variant entries s
  | .fillBlock channels frames => Sys2Proof.Machine.execFillBlock channels frames s
  | .readTable index => Sys2Proof.Machine.execReadTable index s
  | .readReg selector => Sys2Proof.Machine.execReadReg selector s
  | .readSeq index => Sys2Proof.Machine.execReadSeq index s

end Sys2Proof.Machine
end

