-- ==== Sys2Proof/Machine/Events.lean ====
section
/-!
DEFINITION. What each agent's event does (60 R98). A command is decoded and run as one atomic transition (00 R11), or
answered ILLEGAL_COMMAND (30 R44).
-/

namespace Sys2Proof.Machine

/-- What one event does to the state (60 R98). -/
def runEvent (e : Event) (s : State) : Host.Outcome State Fault Refusal :=
  match e with
  | .command p k =>
    match decode p k with
    | .instr i => exec i s
    | .illegal _ => .next (s.illegal p)
  | .supplyDraw raw => .next (s.supply raw)
  | .takeNote => .next s.consume
  | .reset => .next s.doReset

end Sys2Proof.Machine
end

