-- ==== Sys2Proof/Machine/Step.lean ====
section
/-!
DEFINITION. One step of the system: the first event of the total order happens (20 R35, 60 R98, log 4). A command is
decoded and run as one atomic transition (00 R11), or answered ILLEGAL_COMMAND (30 R44).
-/

namespace Sys2Proof.Machine

/-- One step: the first pending event leaves the list and happens. With nothing pending the block holds all its state
(60 R101, 70 R115). -/
def step (s : State) : Host.Outcome State Fault Refusal :=
  match s.pending with
  | [] => .next s
  | e :: _ => runEvent e s.dequeue

/-- The state with the packet of the given bits sent next, on the port its header's row gives (log 4, 15). -/
def State.withFetchWord (s : State) (nbits w : Nat) : State :=
  { s with pending := .command (tablePort nbits w) (tablePacket nbits w) :: s.pending }

end Sys2Proof.Machine
end

