-- ==== Sys2Proof/Machine/Assembler.lean ====
section
/-!
DEFINITION. The assembler syntax of 30 R49 and its three pseudo-commands (30 R50): one line of text gives one command, and
`lineOf` prints a command as such a line. A line is the mnemonic, spaces, and the operands with commas between them (log 20).
-/

namespace Sys2Proof.Machine

/-! ### Words of a line -/

/-- The pieces of a text between the given characters. -/
def splitChars (sep : Char) (cs : List Char) : List (List Char) :=
  cs.foldr (fun c acc =>
    if c = sep then [] :: acc
    else match acc with
      | [] => [[c]]
      | w :: ws => (c :: w) :: ws) [[]]

/-- A text without the spaces at its ends. -/
def trimSpaces (cs : List Char) : List Char :=
  ((cs.dropWhile (· = ' ')).reverse.dropWhile (· = ' ')).reverse

/-- The first word of a line, and the rest. -/
def firstWord (cs : List Char) : List Char × List Char :=
  let t := trimSpaces cs
  (t.takeWhile (· ≠ ' '), t.dropWhile (· ≠ ' '))

/-- The operands of a line: none for an empty rest, else the pieces between commas. -/
def operandTexts (rest : List Char) : List (List Char) :=
  let t := trimSpaces rest
  if t = [] then [] else (splitChars ',' t).map trimSpaces

/-! ### Literals (30 R49) -/

/-- The value of a digit in the given base, 10 or 16. -/
def digitValue (base : Nat) (c : Char) : Option Nat :=
  let n := c.toNat
  let d := if 48 ≤ n ∧ n ≤ 57 then n - 48
    else if 65 ≤ n ∧ n ≤ 70 then n - 55
    else if 97 ≤ n ∧ n ≤ 102 then n - 87
    else base
  if d < base then some d else none

/-- A nonempty run of digits as a number. -/
def digitsValue (base : Nat) (cs : List Char) : Option Nat :=
  if cs = [] then none
  else cs.foldl (fun acc c => acc.bind fun a => (digitValue base c).map fun d => a * base + d) (some 0)

/-- An unsigned literal, decimal or `0x` hexadecimal. -/
def natLiteral (cs : List Char) : Option Nat :=
  match cs with
  | '0' :: 'x' :: hs => digitsValue 16 hs
  | _ => digitsValue 10 cs

/-- A u32 operand (30 R49): a literal that fits in 32 bits. -/
def u32Literal (cs : List Char) : Option Word :=
  (natLiteral cs).bind fun n => if n < 2 ^ 32 then some (BitVec.ofNat 32 n) else none

/-- An unsigned decimal literal as a fraction `num / den`. -/
def decimalFraction (cs : List Char) : Option (Nat × Nat) :=
  match splitChars '.' cs with
  | [whole] => (digitsValue 10 whole).map fun n => (n, 1)
  | [whole, frac] => (digitsValue 10 (whole ++ frac)).bind fun n =>
      if whole = [] ∨ frac = [] then none else some (n, 10 ^ frac.length)
  | _ => none

/-- A decimal literal converted to the nearest F32 with ties to even (30 R49). -/
def decimalLiteral (cs : List Char) : Option F32 :=
  match cs with
  | '-' :: ds => (decimalFraction ds).map fun nd => fpack true (roundMag (nd.1 * oneUnits) nd.2)
  | _ => (decimalFraction cs).map fun nd => fpack false (roundMag (nd.1 * oneUnits) nd.2)

/-- An F32 operand (30 R49): a decimal literal, or a raw bit pattern `f32:0xHHHHHHHH`. -/
def f32Literal (cs : List Char) : Option F32 :=
  match cs with
  | 'f' :: '3' :: '2' :: ':' :: '0' :: 'x' :: hs =>
    if hs.length = 8 then (digitsValue 16 hs).map (BitVec.ofNat 32) else none
  | _ => decimalLiteral cs

/-- Every text of a list read, or nothing. -/
def allLiterals (read : List Char → Option Word) : List (List Char) → Option (List Word)
  | [] => some []
  | t :: ts =>
    match read t, allLiterals read ts with
    | some w, some ws => some (w :: ws)
    | _, _ => none

/-- The register names of 44 R85, in selector order. -/
def regNames : List String :=
  ["STATUS", "TBL_SIZE", "TBL_HARM", "OSC_INDEX", "OSC_DELTA", "OSC_AMP", "OSC_FREQ", "SAMPLE_RATE", "BLOCK_SIZE",
   "SPN", "ELAPSED_LO", "ELAPSED_HI", "GEN_LEN", "GEN_CURSOR"]

/-- A READ_REG operand (30 R49): a name of 44 R85, or a number 0 to 13. -/
def selectorLiteral (cs : List Char) : Option Word :=
  match (regNames.map String.toList).findIdx? (· = cs) with
  | some i => some (BitVec.ofNat 32 i)
  | none => (u32Literal cs).bind fun w => if w.toNat ≤ 13 then some w else none

/-! ### Lines (30 R49, R50) -/

/-- A channel count: a literal that the 16-bit field A holds (30 §2). -/
def channelLiteral (cs : List Char) : Option (BitVec 16) :=
  (natLiteral cs).bind fun n => if n < 2 ^ 16 then some (BitVec.ofNat 16 n) else none

/-- A SET_SEQUENCE line: the entries in the form of their kind, as many as the field A can count. -/
def sequenceLine (k : EntryKind) (v : Variant) (ops : List (List Char)) : Option Instr :=
  (allLiterals (match k with | .hz => f32Literal | .midi => u32Literal) ops).bind fun ws =>
    if ws.length < 2 ^ 16 then some (.setSequence k v ws) else none

/-- A line with one operand. -/
def oneOperand (read : List Char → Option Word) (mk : Word → Instr) (ops : List (List Char)) : Option Instr :=
  match ops with
  | [a] => (read a).map mk
  | _ => none

/-- A line with two operands. -/
def twoOperands (read1 read2 : List Char → Option Word) (mk : Word → Word → Instr) (ops : List (List Char)) :
    Option Instr :=
  match ops with
  | [a, b] => (read1 a).bind fun x => (read2 b).map (mk x)
  | _ => none

/-- A FILL_BLOCK line: C goes into the header field A, B into the operand word (30 R49). -/
def fillLine (ops : List (List Char)) : Option Instr :=
  match ops with
  | [c, b] => (channelLiteral c).bind fun x => (u32Literal b).map (Instr.fillBlock x)
  | _ => none

/-- The forms of 30 R49 and the pseudo-commands of R50, by their first word. -/
def lineForms : List (String × (List (List Char) → Option Instr)) :=
  [ ("BUILD_TABLE", twoOperands u32Literal u32Literal .buildTable),
    ("PREPARE", twoOperands u32Literal f32Literal .prepare),
    ("SET_FREQUENCY", oneOperand f32Literal .setFrequency),
    ("SET_AMPLITUDE", oneOperand f32Literal .setAmplitude),
    ("SET_TEMPO", oneOperand f32Literal .setTempo),
    ("SET_SEQUENCE.seq.hz", sequenceLine .hz .sequence),
    ("SET_SEQUENCE.seq.midi", sequenceLine .midi .sequence),
    ("SET_SEQUENCE.rand.hz", sequenceLine .hz .random),
    ("SET_SEQUENCE.rand.midi", sequenceLine .midi .random),
    ("FILL_BLOCK", fillLine),
    ("READ_TABLE", oneOperand u32Literal .readTable),
    ("READ_REG", oneOperand selectorLiteral .readReg),
    ("READ_SEQ", oneOperand u32Literal .readSeq),
    ("SILENCE", fun ops => if ops = [] then some (.setAmplitude 0#32) else none),
    ("SET_SEQUENCE", sequenceLine .hz .sequence),
    ("SET_SEQUENCE_MIDI", sequenceLine .midi .sequence) ]

/-- The command a line of the listing stands for, if it is one (30 R49, R50). -/
def assembleLine (line : String) : Option Instr :=
  let (word, rest) := firstWord line.toList
  match lineForms.find? (fun f => f.1.toList = word) with
  | some form => form.2 (operandTexts rest)
  | none => none

/-! ### The line of a command (30 R49) -/

/-- A u32 operand as a decimal literal. -/
def u32Text (w : Word) : List Char := Nat.toDigits 10 w.toNat

/-- An F32 operand as its raw bit pattern, eight hexadecimal digits. -/
def f32Text (w : F32) : List Char := "f32:0x".toList ++ List.leftpad 8 '0' (Nat.toDigits 16 w.toNat)

/-- Operands with commas between them. -/
def operandsText : List (List Char) → List Char
  | [] => []
  | [a] => a
  | a :: b :: rest => a ++ ',' :: ' ' :: operandsText (b :: rest)

/-- A mnemonic and its operands as one line. -/
def lineText (word : String) (ops : List (List Char)) : String := String.ofList (word.toList ++ ' ' :: operandsText ops)

/-- The mnemonic of a SET_SEQUENCE with its kind and variant: `SET_SEQUENCE.<v>.<k>`. -/
def sequenceWord : EntryKind → Variant → String
  | .hz, .sequence => "SET_SEQUENCE.seq.hz"
  | .midi, .sequence => "SET_SEQUENCE.seq.midi"
  | .hz, .random => "SET_SEQUENCE.rand.hz"
  | .midi, .random => "SET_SEQUENCE.rand.midi"

/-- One entry of a SET_SEQUENCE line, in the form of its kind. -/
def entryText : EntryKind → Word → List Char
  | .hz, w => f32Text w
  | .midi, w => u32Text w

/-- A line of the listing that stands for the command (30 R49): integers in decimal, F32 operands as raw bits. -/
def lineOf : Instr → String
  | .buildTable n h => lineText "BUILD_TABLE" [u32Text n, u32Text h]
  | .prepare p r => lineText "PREPARE" [u32Text p, f32Text r]
  | .setFrequency f => lineText "SET_FREQUENCY" [f32Text f]
  | .setAmplitude a => lineText "SET_AMPLITUDE" [f32Text a]
  | .setTempo npm => lineText "SET_TEMPO" [f32Text npm]
  | .setSequence k v es => lineText (sequenceWord k v) (es.map (entryText k))
  | .fillBlock c b => lineText "FILL_BLOCK" [Nat.toDigits 10 c.toNat, u32Text b]
  | .readTable i => lineText "READ_TABLE" [u32Text i]
  | .readReg sel => lineText "READ_REG" [u32Text sel]
  | .readSeq i => lineText "READ_SEQ" [u32Text i]

end Sys2Proof.Machine
end

