-- ==== Sys2Proof/Safety.lean ====
section
/-!
DEFINITION. What claims call a legal instance and a sound state: the parameter ranges of 00 §3, and the invariants that the
spec's rules state about every command boundary (10 R16, R18 to R20, R24; 43 R80; 70 R106). They come in two parts:
`State.Inv` holds whatever EXP2 an instance has within 00 R10, and `State.FreqSound` holds as well while the MIDI entries
loaded convert to frequencies below FREQ_MAX, as 42 R69 says they do (log 8).
-/

namespace Sys2Proof.Machine

/-- The parameter ranges of 00 §3. -/
structure Params.Legal (p : Params) : Prop where
  tableSize : 4 ≤ p.tableSizeMax ∧ p.tableSizeMax ≤ 2 ^ 24
  harmonics : 1 ≤ p.harmonicsMax ∧ p.harmonicsMax ≤ 2 ^ 24
  seqLen : 1 ≤ p.seqMax ∧ p.seqMax ≤ 65535
  block : 1 ≤ p.blockMax ∧ p.blockMax ≤ 2 ^ 32 - 1
  channels : 1 ≤ p.channelsMax ∧ p.channelsMax ≤ 65535

/-- The fault registers agree: a cause is recorded exactly while the block is faulted (10 R15). -/
def State.FaultSound (s : State) : Prop := s.faulted = true ↔ s.faultCause ≠ .none

/-- The table registers before a table is built (10 R16). -/
def State.TableUnbuilt (s : State) : Prop := s.tblSize = 0#32 ∧ s.tblHarm = 0#32

/-- A built table: N and H within the instance's limits, words 0 to N readable and in [-1.0, 1.0], the guard a copy of
word 0 (10 R16, 20 R26, 41 R61). -/
structure State.TableBuilt (s : State) : Prop where
  size : 4 ≤ s.tblSize.toNat ∧ s.tblSize.toNat ≤ s.params.tableSizeMax
  harm : 1 ≤ s.tblHarm.toNat ∧ s.tblHarm.toNat ≤ s.params.harmonicsMax
  readable : ∀ i, i ≤ s.tblSize.toNat → ∃ v, memRead s.tbl i = some v ∧ inUnitRange v = true
  guardWord : memRead s.tbl s.tblSize.toNat = memRead s.tbl 0

/-- The table state (10 R16): built or not, as `tbl_valid` says. -/
def State.TableSound (s : State) : Prop :=
  (s.tblValid = false → s.TableUnbuilt) ∧ (s.tblValid = true → s.TableBuilt)

/-- The phase (10 R18): finite and at least +0.0, below N while the table is valid, and still +0.0 before that. -/
def State.IndexSound (s : State) : Prop :=
  fsign s.oscIndex = false ∧ isFinite s.oscIndex = true ∧
  (s.tblValid = true → fval s.oscIndex < s.tblSize.toNat * oneUnits) ∧
  (s.tblValid = false → s.oscIndex = 0#32)

/-- The increment as 40 R53 derives it from `osc_freq`, N and `sr`. -/
def State.derivedDelta (s : State) : F32 := fdiv (fmul s.oscFreq (toF32 s.tblSize.toNat)) s.sr

/-- The increment (10 R19, 70 R106): +0.0 until a table exists and the stream is prepared, and never stale after that. -/
def State.DeltaSound (s : State) : Prop :=
  (s.tblValid = true ∧ s.prepared = true → s.oscDelta = s.derivedDelta) ∧
  (¬(s.tblValid = true ∧ s.prepared = true) → s.oscDelta = 0#32)

/-- A finite increment of at least zero and at most 2^88 (10 R19). -/
def State.DeltaBounded (s : State) : Prop :=
  isFinite s.oscDelta = true ∧ 0 ≤ fval s.oscDelta ∧ fval s.oscDelta ≤ 2 ^ 88 * oneUnits

/-- The stream registers (10 R20, 43 R76). -/
def State.StreamSound (s : State) : Prop :=
  (s.prepared = true → rateAccepted s.sr = true ∧ 1 ≤ s.spb.toNat ∧ s.spb.toNat ≤ s.params.blockMax) ∧
  (s.prepared = false → s.sr = 0#32 ∧ s.spb = 0#32)

/-- The tempo registers (10 R21): a tempo needs a prepared stream. -/
def State.TempoSound (s : State) : Prop :=
  (s.tempoValid = true → s.prepared = true) ∧ (s.tempoValid = false → s.spn = 0#32)

/-- An installed frequency source (10 R23, R24; 42 R67): a legal length, a cursor within it, and every entry readable. -/
structure State.SourceInstalled (s : State) : Prop where
  len : 1 ≤ s.genLen.toNat ∧ s.genLen.toNat ≤ s.params.seqMax
  cursor : s.genCursor.toNat < s.genLen.toNat
  readable : ∀ j, j < s.genLen.toNat → ∃ v, memRead (s.bank s.genBank) j = some v

/-- The frequency-source registers while none is installed (10 R23), the timer not yet started (10 R22). -/
def State.SourceIdle (s : State) : Prop :=
  s.genLen = 0#16 ∧ s.genCursor = 0#16 ∧ s.genVariant = .sequence ∧ s.genBank = false ∧ s.elapsed = 0#64

/-- The frequency-source state, as `seq_mode` says (10 R14, R23, R24). -/
def State.SourceSound (s : State) : Prop :=
  (s.seqMode = .running → s.SourceInstalled) ∧ (s.seqMode = .idle → s.SourceIdle)

/-- The three memories are in canonical form (log 2). -/
def State.MemoriesWf (s : State) : Prop := memWf s.tbl ∧ memWf s.seq0 ∧ memWf s.seq1

/-- What holds at every command boundary of a legal instance, whatever EXP2 it has (00 R10). -/
structure State.Inv (s : State) : Prop where
  legal : s.params.Legal
  fault : s.FaultSound
  table : s.TableSound
  index : s.IndexSound
  delta : s.DeltaSound
  amp : isFinite s.oscAmp = true
  stream : s.StreamSound
  tempo : s.TempoSound
  source : s.SourceSound
  timer : s.elapsed.toNat ≤ Config.spnMax + s.params.blockMax
  memories : s.MemoriesWf

/-- The frequencies of a sound state (40 R52, 42 R67, 10 R19): `osc_freq` and every entry of the active bank within the limits
of a load, and the increment finite and bounded. -/
structure State.FreqSound (s : State) : Prop where
  freq : freqAccepted s.oscFreq = true
  bounded : s.DeltaBounded
  entries : s.seqMode = .running →
    ∀ j v, j < s.genLen.toNat → memRead (s.bank s.genBank) j = some v → freqAccepted v = true

/-- What 42 R69 says of the notes of a SET_SEQUENCE, for the EXP2 of the instance: each converts to a frequency below
FREQ_MAX. 00 R10 alone does not give it, so claims that need it take it as a premise (log 8). -/
def Event.MidiFits (e : Event) : Prop :=
  ∀ p k v es, e = .command p k → decode p k = .instr (.setSequence .midi v es) →
    ∀ w ∈ es, w.toNat ≤ Config.midiMax → freqAccepted (midiToHz w.toNat) = true

/-- The conditions under which a RUNNING FILL_BLOCK of `channels` and `frames` passes every check (43 R78, 70 R112). -/
structure State.ReadyToFill (s : State) (channels : BitVec 16) (frames : Word) : Prop where
  notFaulted : s.faulted = false
  shape : s.shapeOk channels frames = true
  running : s.seqMode = .running
  checks : s.runningCause frames = none

/-! ### What claims about several steps speak of -/

/-- `k` successive advances of the installed source: the indices returned and the state after them (42 R74). -/
def State.advances : Nat → State → Except Fault (List Nat × State)
  | 0, s => .ok ([], s)
  | k + 1, s => do
    let (idx, _, s1) ← s.nextFrequency
    let (rest, s2) ← State.advances k s1
    return (idx :: rest, s2)

/-- `n` FILL_BLOCKs of one shape, one after another, while each gives a next state (43 R81). -/
def fillTimes (channels : BitVec 16) (frames : Word) : Nat → State → Option State
  | 0, s => some s
  | n + 1, s =>
    match exec (.fillBlock channels frames) s with
    | .next t => fillTimes channels frames n t
    | _ => none

/-- The exact value of a finite binary32 pattern as a rational number (00 R2). -/
def realValue (x : F32) : ℚ := (fval x : ℚ) / 2 ^ 149

/-- A finite `r` is the rounding of the exact value `v` to nearest with ties to even (00 R3): no finite value is nearer,
and where another value is as near, `r` has an even significand. -/
def RoundsTo (v : ℚ) (r : F32) : Prop :=
  ∀ c : F32, isFinite c = true →
    |realValue r - v| ≤ |realValue c - v| ∧
    (|realValue r - v| = |realValue c - v| → realValue c ≠ realValue r → r.getLsbD 0 = false)

/-- Whether a command is one of the three read-backs (44 §1). -/
def isReadBack : Instr → Bool
  | .readTable _ | .readReg _ | .readSeq _ => true
  | .buildTable _ _ | .prepare _ _ | .setFrequency _ | .setAmplitude _ | .setTempo _ | .setSequence _ _ _
  | .fillBlock _ _ => false

/-- How many data words a response with this code carries (30 R48). -/
def dataWordCount (s : State) (i : Instr) (c : ResponseCode) : Nat :=
  match i with
  | .fillBlock channels frames => if s.shapeOk channels frames then channels.toNat * frames.toNat else 0
  | .readTable _ | .readReg _ | .readSeq _ => if c = .ok then 1 else 0
  | .buildTable _ _ | .prepare _ _ | .setFrequency _ | .setAmplitude _ | .setTempo _ | .setSequence _ _ _ => 0

end Sys2Proof.Machine
end

