-- ==== Sys2Proof/Certificates/Slice0/Obligations.lean ====
section
/-!
DEFINITION. The statements for the provers. Each docstring names the rule of the spec that the statement formalises; where a
statement rests on a choice of the model, it names the log entry.
-/

open Sys2Proof Sys2Proof.Machine

/-! ### Encoding and decoding -/

/-- Every well-formed command survives encoding and decoding, with every operand at every value (30 R41, R42, R44, R45). -/
def Obligations.DecodeOfEncodeIsTheCommand : Prop :=
  ∀ i : Instr, i.wellFormed = true → decode i.port (encode i) = .instr i

/-- A packet that decodes is the encoding of what it decodes to, on that command's port (30 R41, R42, R44, R45). -/
def Obligations.DecodedPacketIsTheEncoding : Prop :=
  ∀ (p : Port) (k : Packet) (i : Instr), decode p k = .instr i →
    i.wellFormed = true ∧ p = i.port ∧ k = encode i

/-- 30 R44 as one step of the machine: header row, then length, then port, each failure answered ILLEGAL_COMMAND with
nothing changed and no data, else the command is performed. -/
def Obligations.StepDecodesInOrder : Prop :=
  ∀ (s : State) (p : Port) (k : Packet) (rest : List Event), s.pending = .command p k :: rest →
    (selectRow k.header = none →
      step s = .next { s with pending := rest, responses := ⟨p, .illegalCommand, []⟩ :: s.responses }) ∧
    (∀ op, selectRow k.header = some op →
      (k.operands.length ≠ operandCount op (headerA k.header) →
        step s = .next { s with pending := rest, responses := ⟨p, .illegalCommand, []⟩ :: s.responses }) ∧
      (k.operands.length = operandCount op (headerA k.header) → p ≠ op.port →
        step s = .next { s with pending := rest, responses := ⟨p, .illegalCommand, []⟩ :: s.responses }) ∧
      (k.operands.length = operandCount op (headerA k.header) → p = op.port →
        step s = exec (instrOf op k.header k.operands) { s with pending := rest }))

/-- A step runs the decoded command: nothing is added around it but that the packet leaves the pending list (20 R35). -/
def Obligations.StepRunsTheDecodedCommand : Prop :=
  ∀ (s : State) (p : Port) (k : Packet) (rest : List Event) (i : Instr), s.pending = .command p k :: rest →
    decode p k = .instr i → step s = exec i { s with pending := rest }

/-- 30 R46: a header that no row matches, an unknown opcode, or a reserved header bit that is not zero, is answered
ILLEGAL_COMMAND and changes nothing. -/
def Obligations.UnknownHeadersAreIllegal : Prop :=
  ∀ (s : State) (p : Port) (k : Packet) (rest : List Event), s.pending = .command p k :: rest →
    (selectRow k.header = none ∨ k.header.toNat / 2 ^ 24 = 0 ∨ 0x0B ≤ k.header.toNat / 2 ^ 24 ∨
      k.header.toNat / 2 ^ 22 % 4 ≠ 0 ∨ k.header.toNat / 2 ^ 16 % 16 ≠ 0) →
    step s = .next { s with pending := rest, responses := ⟨p, .illegalCommand, []⟩ :: s.responses }

/-- 30 R45: FILL_BLOCK is accepted only on the audio port, every other command only on the control port. -/
def Obligations.OnlyFillBlockComesOnTheAudioPort : Prop :=
  ∀ (p : Port) (k : Packet) (i : Instr), decode p k = .instr i →
    (p = .audio ↔ ∃ c b, i = .fillBlock c b)

/-- Words written out from the tables of 30 R42 decode to the commands they stand for. -/
def Obligations.TableWordsDecode : Prop :=
  decode .control ⟨0x01000000#32, [5#32, 1#32]⟩ = .instr (.buildTable 5#32 1#32) ∧
  decode .control ⟨0x06300002#32, [0x45#32, 0x51#32]⟩ = .instr (.setSequence .midi .random [0x45#32, 0x51#32]) ∧
  decode .audio ⟨0x07000002#32, [4#32]⟩ = .instr (.fillBlock 2#16 4#32) ∧
  decode .control ⟨0x0A000000#32, [1#32]⟩ = .instr (.readSeq 1#32) ∧
  decode .control ⟨0x03100000#32, [0x3F800000#32]⟩ = .illegal .noHeaderRow

/-- 20 R30: a word travels as four bytes, bits 7:0 first, and a packet sent as bytes decodes as the packet. -/
def Obligations.BytesCarryWordsLittleEndian : Prop :=
  (∀ (w : Word) (j : Nat), j < 4 → ((bytesOfWord w).getD j 0#8).toNat = w.toNat / 2 ^ (8 * j) % 2 ^ 8) ∧
  (∀ (p : Port) (k : Packet), decodeBytes p k.bytes = decode p k)

/-! ### Reset and the environment -/

/-- 70 R102 for the machine's initial state: every register at the value the rule gives, no word readable, and the first
FILL_BLOCK answers silence with OK. -/
def Obligations.ResetStateHasTheResetValues : Prop :=
  State.reset.seqMode = .idle ∧ State.reset.faulted = false ∧ faultCauseCode State.reset.faultCause = 0#8 ∧
  State.reset.tblValid = false ∧ State.reset.tblSize = 0#32 ∧ State.reset.tblHarm = 0#32 ∧
  State.reset.oscIndex = 0#32 ∧ State.reset.oscDelta = 0#32 ∧ State.reset.oscAmp = 0#32 ∧ State.reset.oscFreq = 0#32 ∧
  State.reset.prepared = false ∧ State.reset.sr = 0#32 ∧ State.reset.spb = 0#32 ∧
  State.reset.tempoValid = false ∧ State.reset.spn = 0#32 ∧ State.reset.elapsed = 0#64 ∧
  State.reset.genVariant = .sequence ∧ State.reset.genBank = false ∧ State.reset.genLen = 0#16 ∧
  State.reset.genCursor = 0#16 ∧
  (∀ i, memRead State.reset.tbl i = none ∧ memRead State.reset.seq0 i = none ∧ memRead State.reset.seq1 i = none) ∧
  (∀ (c : BitVec 16) (b : Word), 1 ≤ c.toNat → c.toNat ≤ State.reset.params.channelsMax →
    b.toNat ≤ State.reset.params.blockMax →
    exec (.fillBlock c b) State.reset = .next { State.reset with
      responses := [⟨.audio, .ok, List.replicate (c.toNat * b.toNat) 0#32⟩] })

/-- 70 R102 as a step of the reset agent, in any state: every register at its reset value, no word readable, so
the first FILL_BLOCK answers silence with OK; the parameters, the draw stream, the notifications and the responses stay (70 R104). -/
def Obligations.ResetPutsEveryRegisterToItsValue : Prop :=
  ∀ (s : State) (rest : List Event), s.pending = .reset :: rest →
    ∃ t, step s = .next t ∧
      t.seqMode = .idle ∧ t.faulted = false ∧ t.faultCause = .none ∧
      t.tblValid = false ∧ t.tblSize = 0#32 ∧ t.tblHarm = 0#32 ∧
      t.oscIndex = 0#32 ∧ t.oscDelta = 0#32 ∧ t.oscAmp = 0#32 ∧ t.oscFreq = 0#32 ∧
      t.prepared = false ∧ t.sr = 0#32 ∧ t.spb = 0#32 ∧ t.tempoValid = false ∧ t.spn = 0#32 ∧ t.elapsed = 0#64 ∧
      t.genVariant = .sequence ∧ t.genBank = false ∧ t.genLen = 0#16 ∧ t.genCursor = 0#16 ∧
      (∀ i, memRead t.tbl i = none ∧ memRead t.seq0 i = none ∧ memRead t.seq1 i = none) ∧
      (∀ (c : BitVec 16) (b : Word), 1 ≤ c.toNat → c.toNat ≤ t.params.channelsMax → b.toNat ≤ t.params.blockMax →
        exec (.fillBlock c b) t = .next { t with
          responses := ⟨.audio, .ok, List.replicate (c.toNat * b.toNat) 0#32⟩ :: t.responses }) ∧
      t.params = s.params ∧ t.pending = rest ∧ t.responses = s.responses ∧ t.notes = s.notes ∧
      t.draws = s.draws ∧ t.drawPos = s.drawPos

/-- The model's choices for the other agents, who change no register: with nothing pending a step holds the state (log 4; the
block holds it between commands, 60 R101), the consumer's take changes nothing but the pending list (log 5; 60 R94), and a
supplied draw joins the end of the list of draws (log 6; 42 R73). -/
def Obligations.EnvironmentEventsTouchNoRegister : Prop :=
  ∀ (s : State) (rest : List Event) (n : Nat),
    (s.pending = [] → step s = .next s) ∧
    (s.pending = .takeNote :: rest → step s = .next { s with pending := rest }) ∧
    (s.pending = .supplyDraw n :: rest → step s = .next { s with pending := rest, draws := s.draws ++ [n] })

/-! ### Invariants and whole-machine rules -/

/-- The reset state is sound. Its sizes are the model's choice (log 1). -/
def Obligations.ResetStateIsSound : Prop := State.reset.Inv ∧ State.reset.FreqSound

/-- Every step of a sound state gives a sound state, whatever EXP2 an instance has within 00 R10: the phase stays in the table
(10 R18), the increment is never stale (70 R106), the cursor stays in the sequence (10 R24), the timer stays bounded
(43 R80), the memories stay canonical, and the registers stay as 10 R16, R20 and R21 say. The frequencies and the increment
stay within their bounds as well (10 R19), if the MIDI notes of a SET_SEQUENCE convert as 42 R69 says (log 8). -/
def Obligations.EveryStepKeepsSoundness : Prop :=
  (∀ s t : State, s.Inv → step s = .next t → t.Inv) ∧
  (∀ (s t : State) (e : Event) (rest : List Event), s.Inv → s.FreqSound → s.pending = e :: rest → e.MidiFits →
    step s = .next t → t.FreqSound)

/-- 60 R99: in a sound state every command completes; the model's own faults and its refusal are never reached. -/
def Obligations.SoundStatesNeverStop : Prop :=
  ∀ s : State, s.Inv → ∃ t, step s = .next t

/-- From reset, whatever the agents send in whatever order (20 R35), and however long, the block goes on and stays sound
(10 R14 to R24, 43 R80, 70 R102, R106). The sizes at reset are the model's choice (log 1), and the bounds on the frequencies
rest on the MIDI notes sent converting as 42 R69 says (log 8). -/
def Obligations.EveryRunFromResetIsSound : Prop :=
  ∀ (events : List Event) (k : Nat),
    ∃ t : State, Host.Core.run Sys2Proof.core k { State.reset with pending := events } = .next t ∧ t.Inv ∧
      ((∀ e ∈ events, e.MidiFits) → t.FreqSound)

/-- 00 R1: no step changes the instance's parameters. -/
def Obligations.ParametersNeverChange : Prop :=
  ∀ s t : State, step s = .next t → t.params = s.params

/-- Which commands may write which state (10 §2, 20 R27, R28): everything else keeps its value. -/
def Obligations.OnlyTheNamedCommandsWrite : Prop :=
  ∀ (i : Instr) (s t : State), exec i s = .next t →
    t.params = s.params ∧ t.pending = s.pending ∧
    ((∀ n h, i ≠ .buildTable n h) →
      t.tblValid = s.tblValid ∧ t.tblSize = s.tblSize ∧ t.tblHarm = s.tblHarm ∧ t.tbl = s.tbl) ∧
    ((∀ p r, i ≠ .prepare p r) → t.prepared = s.prepared ∧ t.sr = s.sr ∧ t.spb = s.spb) ∧
    ((∀ npm, i ≠ .setTempo npm) → t.tempoValid = s.tempoValid ∧ t.spn = s.spn) ∧
    ((∀ a, i ≠ .setAmplitude a) → t.oscAmp = s.oscAmp) ∧
    ((∀ k v es, i ≠ .setSequence k v es) →
      t.seqMode = s.seqMode ∧ t.genVariant = s.genVariant ∧ t.genLen = s.genLen ∧ t.genBank = s.genBank ∧
      t.seq0 = s.seq0 ∧ t.seq1 = s.seq1) ∧
    ((∀ c b, i ≠ .fillBlock c b) →
      t.oscIndex = s.oscIndex ∧ t.elapsed = s.elapsed ∧ t.faulted = s.faulted ∧ t.faultCause = s.faultCause ∧
      t.notes = s.notes ∧ t.draws = s.draws ∧ t.drawPos = s.drawPos) ∧
    ((∀ f, i ≠ .setFrequency f) → (∀ c b, i ≠ .fillBlock c b) → t.oscFreq = s.oscFreq) ∧
    ((∀ k v es, i ≠ .setSequence k v es) → (∀ c b, i ≠ .fillBlock c b) → t.genCursor = s.genCursor) ∧
    ((∀ n h, i ≠ .buildTable n h) → (∀ p r, i ≠ .prepare p r) → (∀ f, i ≠ .setFrequency f) →
      (∀ c b, i ≠ .fillBlock c b) → t.oscDelta = s.oscDelta)

/-- 40 R56: no event but a FILL_BLOCK and reset moves the phase. -/
def Obligations.PhaseMovesOnlyInFillBlock : Prop :=
  ∀ (s t : State) (e : Event) (rest : List Event), s.pending = e :: rest → step s = .next t →
    e ≠ .reset → (∀ k c b, e = .command .audio k → decode .audio k ≠ .instr (.fillBlock c b)) →
    t.oscIndex = s.oscIndex

/-- 30 R40 and R48: every command sends one response, to its own port, with as many data words as R48 lists. The status word
of a response is the code of 60 R88: OK 0, INVALID_ARGUMENT 1, INVALID_STATE 2, ILLEGAL_COMMAND 3, FAULTED 4, FATAL 5. -/
def Obligations.EachCommandSendsOneResponse : Prop :=
  (∀ (i : Instr) (s t : State), exec i s = .next t →
    ∃ r : Response, t.responses = r :: s.responses ∧ r.port = i.port ∧ r.data.length = dataWordCount s i r.code) ∧
  (∀ (p : Port) (d : List Word),
    responseWords ⟨p, .ok, d⟩ = 0#32 :: d ∧ responseWords ⟨p, .invalidArgument, d⟩ = 1#32 :: d ∧
    responseWords ⟨p, .invalidState, d⟩ = 2#32 :: d ∧ responseWords ⟨p, .illegalCommand, d⟩ = 3#32 :: d ∧
    responseWords ⟨p, .faulted, d⟩ = 4#32 :: d ∧ responseWords ⟨p, .fatal, d⟩ = 5#32 :: d)

/-- 00 R11: a command that answers neither OK nor FATAL changes nothing but the response history; one that answers FATAL
changes only the fault state. -/
def Obligations.RejectedCommandsChangeNothing : Prop :=
  ∀ (i : Instr) (s t : State) (r : Response), exec i s = .next t → t.responses = r :: s.responses →
    (r.code ≠ .ok → r.code ≠ .fatal → t = { s with responses := r :: s.responses }) ∧
    (r.code = .fatal → ∃ cause : FaultCause, cause ≠ .none ∧
      t = { s with faulted := true, faultCause := cause, responses := r :: s.responses })

/-! ### Faults -/

/-- 60 R91: while faulted every command but the three reads answers FAULTED and changes nothing, FILL_BLOCK with silence
when the shape is one the buffer holds; the reads never answer FAULTED; no event but reset clears the fault. -/
def Obligations.FaultedBlockAnswersFaulted : Prop :=
  ∀ s : State, s.faulted = true →
    (∀ i : Instr, isReadBack i = false → i.port = .control →
      exec i s = .next { s with responses := ⟨.control, .faulted, []⟩ :: s.responses }) ∧
    (∀ (c : BitVec 16) (b : Word), 1 ≤ c.toNat → c.toNat ≤ s.params.channelsMax → b.toNat ≤ s.params.blockMax →
      exec (.fillBlock c b) s = .next { s with
        responses := ⟨.audio, .faulted, List.replicate (c.toNat * b.toNat) 0#32⟩ :: s.responses }) ∧
    (∀ (c : BitVec 16) (b : Word), c.toNat < 1 ∨ s.params.channelsMax < c.toNat ∨ s.params.blockMax < b.toNat →
      exec (.fillBlock c b) s = .next { s with responses := ⟨.audio, .faulted, []⟩ :: s.responses }) ∧
    (∀ (i : Instr) (t : State), isReadBack i = true → exec i s = .next t →
      ∀ r, t.responses = r :: s.responses → r.code ≠ .faulted) ∧
    (∀ (t : State) (e : Event) (rest : List Event), s.pending = e :: rest → e ≠ .reset → step s = .next t →
      t.faulted = true)

/-- 60 R92: no second fault is recorded; the cause stays until reset. -/
def Obligations.FaultCauseStaysUntilReset : Prop :=
  ∀ (s t : State) (e : Event) (rest : List Event), s.faulted = true → s.pending = e :: rest → e ≠ .reset →
    step s = .next t → t.faulted = true ∧ t.faultCause = s.faultCause

/-- 60 R89 and R90: what each fatal fault of FILL_BLOCK needs, in the order of the checks, and all that it changes. -/
def Obligations.FatalFaultsInOrder : Prop :=
  ∀ (c : BitVec 16) (b : Word) (s : State), s.faulted = false →
    (c.toNat < 1 ∨ s.params.channelsMax < c.toNat ∨ s.params.blockMax < b.toNat →
      exec (.fillBlock c b) s = .next { s with
        faulted := true, faultCause := .badShape, responses := ⟨.audio, .fatal, []⟩ :: s.responses }) ∧
    (1 ≤ c.toNat → c.toNat ≤ s.params.channelsMax → b.toNat ≤ s.params.blockMax → s.seqMode = .running →
      ∀ cause : FaultCause,
        (cause = .noTable ∧ s.tblValid = false ∨
         cause = .notPrepared ∧ s.tblValid = true ∧ s.prepared = false ∨
         cause = .noTempo ∧ s.tblValid = true ∧ s.prepared = true ∧ s.tempoValid = false ∨
         cause = .blockTooLarge ∧ s.tblValid = true ∧ s.prepared = true ∧ s.tempoValid = true ∧
           s.spb.toNat < b.toNat) →
        exec (.fillBlock c b) s = .next { s with
          faulted := true, faultCause := cause,
          responses := ⟨.audio, .fatal, List.replicate (c.toNat * b.toNat) 0#32⟩ :: s.responses })

/-! ### The oscillator -/

/-- 40 R51: SET_AMPLITUDE stores every finite value, and nothing else changes. -/
def Obligations.SetAmplitudeStoresFiniteValues : Prop :=
  ∀ (a : F32) (s : State),
    (s.faulted = true →
      exec (.setAmplitude a) s = .next { s with responses := ⟨.control, .faulted, []⟩ :: s.responses }) ∧
    (s.faulted = false → a.extractLsb' 23 8 = 0xFF#8 →
      exec (.setAmplitude a) s = .next { s with responses := ⟨.control, .invalidArgument, []⟩ :: s.responses }) ∧
    (s.faulted = false → a.extractLsb' 23 8 ≠ 0xFF#8 →
      exec (.setAmplitude a) s =
        .next { s with oscAmp := a, responses := ⟨.control, .ok, []⟩ :: s.responses })

/-- 40 R52: SET_FREQUENCY accepts the finite values from 0.0 to 2^64 and -0.0, and derives the increment once the table
and the stream exist. -/
def Obligations.SetFrequencyStoresAndDerives : Prop :=
  ∀ (f : F32) (s : State),
    (s.faulted = true →
      exec (.setFrequency f) s = .next { s with responses := ⟨.control, .faulted, []⟩ :: s.responses }) ∧
    (s.faulted = false → ¬(f.toNat ≤ 0x5F800000 ∨ f.toNat = 0x80000000) →
      exec (.setFrequency f) s = .next { s with responses := ⟨.control, .invalidArgument, []⟩ :: s.responses }) ∧
    (s.faulted = false → (f.toNat ≤ 0x5F800000 ∨ f.toNat = 0x80000000) →
      exec (.setFrequency f) s = .next { s with
        oscFreq := f,
        oscDelta := if s.tblValid = true ∧ s.prepared = true
          then fdiv (fmul f (toF32 s.tblSize.toNat)) s.sr else s.oscDelta,
        responses := ⟨.control, .ok, []⟩ :: s.responses })

/-- 40 R54 and R55: one OscStep in a sound state with a table: the two words it reads, the sample, and the phase after it,
which lies in [0, N) (10 R18). The phase is `wrapN` of the sum where 00 R7 defines that, which is always so while the
frequencies are within their bounds; elsewhere it is free in [0, N), the model's choice (log 22). -/
def Obligations.OscStepInterpolatesThenAdvances : Prop :=
  ∀ s : State, s.Inv → s.tblValid = true →
    ∃ v0 v1 x : F32,
      floorNat s.oscIndex < s.tblSize.toNat ∧
      memRead s.tbl (floorNat s.oscIndex) = some v0 ∧ memRead s.tbl (floorNat s.oscIndex + 1) = some v1 ∧
      s.oscStep = .ok
        (fmul s.oscAmp (fadd v0 (fmul (fsub s.oscIndex (toF32 (floorNat s.oscIndex))) (fsub v1 v0))),
         { s with oscIndex := x }) ∧
      isFinite x = true ∧ 0 ≤ realValue x ∧ realValue x < s.tblSize.toNat ∧
      (isFinite (fadd s.oscIndex s.oscDelta) = true → 0 ≤ realValue (fadd s.oscIndex s.oscDelta) →
        x = wrapN (fadd s.oscIndex s.oscDelta) s.tblSize.toNat) ∧
      (s.FreqSound → isFinite (fadd s.oscIndex s.oscDelta) = true ∧ 0 ≤ realValue (fadd s.oscIndex s.oscDelta))

/-- 10 R18 and 40 R57: a block's samples are successive OscSteps, first to last; however many are taken from a sound state
with a table, each one completes, the phase stays finite and in [0, N), and nothing else changes. -/
def Obligations.PhaseStaysInTheTable : Prop :=
  (∀ s : State, State.renderMono 0 s = .ok ([], s)) ∧
  (∀ (k : Nat) (s t : State) (y : F32) (ys : List F32),
    State.renderMono (k + 1) s = .ok (y :: ys, t) ↔
      ∃ s1, s.oscStep = .ok (y, s1) ∧ State.renderMono k s1 = .ok (ys, t)) ∧
  (∀ (k : Nat) (s : State), s.Inv → s.tblValid = true →
    ∃ (ys : List F32) (t : State), State.renderMono k s = .ok (ys, t) ∧ ys.length = k ∧
      t = { s with oscIndex := t.oscIndex } ∧ isFinite t.oscIndex = true ∧
      0 ≤ realValue t.oscIndex ∧ realValue t.oscIndex < s.tblSize.toNat)

/-- 20 R29: the buffer is planar and every channel is a copy of channel 0. -/
def Obligations.PlanarBufferCopiesChannelZero : Prop :=
  ∀ (channels c t : Nat) (mono : List F32), c < channels → t < mono.length →
    (planar channels mono)[c * mono.length + t]? = mono[t]? ∧ (planar channels mono).length = channels * mono.length

/-! ### The table generator -/

/-- 41 R58: every check of BUILD_TABLE in its order, and what an accepted one writes: words 0 to N of the table, its size
and harmonic count, and the increment when the stream is prepared. -/
def Obligations.BuildTableRule : Prop :=
  ∀ (n h : Word) (s : State),
    (s.faulted = true →
      exec (.buildTable n h) s = .next { s with responses := ⟨.control, .faulted, []⟩ :: s.responses }) ∧
    (s.faulted = false → (n.toNat < 4 ∨ s.params.tableSizeMax < n.toNat) →
      exec (.buildTable n h) s = .next { s with responses := ⟨.control, .invalidArgument, []⟩ :: s.responses }) ∧
    (s.faulted = false → 4 ≤ n.toNat → n.toNat ≤ s.params.tableSizeMax →
      (h.toNat < 1 ∨ s.params.harmonicsMax < h.toNat) →
      exec (.buildTable n h) s = .next { s with responses := ⟨.control, .invalidArgument, []⟩ :: s.responses }) ∧
    (s.faulted = false → 4 ≤ n.toNat → n.toNat ≤ s.params.tableSizeMax →
      1 ≤ h.toNat → h.toNat ≤ s.params.harmonicsMax → s.tblValid = true →
      exec (.buildTable n h) s = .next { s with responses := ⟨.control, .invalidState, []⟩ :: s.responses }) ∧
    (s.faulted = false → 4 ≤ n.toNat → n.toNat ≤ s.params.tableSizeMax →
      1 ≤ h.toNat → h.toNat ≤ s.params.harmonicsMax → s.tblValid = false →
      ∀ (raw : List F32) (mn mx : F32), raw = rawTable sinTurn n.toNat h.toNat → mn = fminList raw → mx = fmaxList raw →
      (feq mx mn = true →
        exec (.buildTable n h) s = .next { s with responses := ⟨.control, .invalidArgument, []⟩ :: s.responses }) ∧
      (feq mx mn = false →
        ∃ t, exec (.buildTable n h) s = .next t ∧
          t = { s with
            tbl := t.tbl, tblSize := n, tblHarm := h, tblValid := true,
            oscDelta := if s.prepared = true then fdiv (fmul s.oscFreq (toF32 n.toNat)) s.sr else s.oscDelta,
            responses := ⟨.control, .ok, []⟩ :: s.responses } ∧
          (∀ i, i < n.toNat → memRead t.tbl i =
            some (fsub (fdiv (fmul 0x40000000#32 (fsub (partialSum sinTurn (n.toNat - 1) i h.toNat) mn)) (fsub mx mn))
              0x3F800000#32)) ∧
          memRead t.tbl n.toNat = memRead t.tbl 0 ∧
          (∀ i, n.toNat < i → memRead t.tbl i = memRead s.tbl i)))

/-- 41 R59: the partial sums start at +0.0 and add one correctly rounded quotient a harmonic, ascending; at both ends of
the cycle they are +0.0 exactly, and every sum is finite and none is -0.0. -/
def Obligations.RawSumsOfTheSawtooth : Prop :=
  ∀ (size i h : Nat), 4 ≤ size → size ≤ 2 ^ 24 → i < size → h ≤ 2 ^ 24 →
    partialSum sinTurn (size - 1) i 0 = 0#32 ∧
    partialSum sinTurn (size - 1) i (h + 1) =
      fadd (partialSum sinTurn (size - 1) i h)
        (fdiv (sinTurn ((h + 1) * i % (size - 1)) (size - 1)) (toF32 (h + 1 : Nat))) ∧
    partialSum sinTurn (size - 1) 0 h = 0#32 ∧
    partialSum sinTurn (size - 1) (size - 1) h = 0#32 ∧
    isFinite (partialSum sinTurn (size - 1) i h) = true ∧
    partialSum sinTurn (size - 1) i h ≠ 0x80000000#32

/-- 41 R61: after an accepted BUILD_TABLE the guard is word 0, the maximum is exactly 1.0 and the minimum exactly -1.0,
every word is in [-1.0, 1.0], and the words depend on N and H alone. -/
def Obligations.BuiltTableIsNormalized : Prop :=
  ∀ (n h : Word) (s t : State), s.params.Legal → exec (.buildTable n h) s = .next t →
    t.responses = ⟨.control, .ok, []⟩ :: s.responses →
    memRead t.tbl n.toNat = memRead t.tbl 0 ∧
    (∃ i, i < n.toNat ∧ memRead t.tbl i = some 0x3F800000#32) ∧
    (∃ i, i < n.toNat ∧ memRead t.tbl i = some 0xBF800000#32) ∧
    (∀ i, i ≤ n.toNat → ∃ v, memRead t.tbl i = some v ∧ isFinite v = true ∧ -1 ≤ realValue v ∧ realValue v ≤ 1) ∧
    (∀ s' t' : State, exec (.buildTable n h) s' = .next t' →
      t'.responses = ⟨.control, .ok, []⟩ :: s'.responses →
      ∀ i, i ≤ n.toNat → memRead t'.tbl i = memRead t.tbl i)

/-! ### Frequency sources -/

/-- 42 R67 (and R68 for the empty list): the checks of SET_SEQUENCE in their order, and what an accepted one writes: the
inactive bank's first words, the bank flip and the source registers, in one transition. -/
def Obligations.SetSequenceRule : Prop :=
  ∀ (k : EntryKind) (v : Variant) (es : List Word) (s : State),
    let good : Word → Prop := fun w =>
      match k with
      | .hz => w.toNat ≤ 0x5F800000 ∨ w.toNat = 0x80000000
      | .midi => w.toNat ≤ 127
    let hz : Word → F32 := fun w =>
      match k with
      | .hz => w
      | .midi => midiToHz w.toNat
    (s.faulted = true →
      exec (.setSequence k v es) s = .next { s with responses := ⟨.control, .faulted, []⟩ :: s.responses }) ∧
    (s.faulted = false → es = [] →
      exec (.setSequence k v es) s = .next { s with responses := ⟨.control, .invalidState, []⟩ :: s.responses }) ∧
    (s.faulted = false → es ≠ [] → (s.params.seqMax < es.length ∨ ∃ w ∈ es, ¬good w) →
      exec (.setSequence k v es) s = .next { s with responses := ⟨.control, .invalidArgument, []⟩ :: s.responses }) ∧
    (s.faulted = false → es ≠ [] → es.length ≤ s.params.seqMax → (∀ w ∈ es, good w) →
      ∃ t, exec (.setSequence k v es) s = .next t ∧
        t = { s with
          seq0 := t.seq0, seq1 := t.seq1, genBank := !s.genBank, genLen := BitVec.ofNat 16 es.length, genVariant := v,
          genCursor := 0#16, seqMode := .running, responses := ⟨.control, .ok, []⟩ :: s.responses } ∧
        (∀ j w, es[j]? = some w → memRead (t.bank (!s.genBank)) j = some (hz w)) ∧
        (∀ j, es.length ≤ j → memRead (t.bank (!s.genBank)) j = memRead (s.bank (!s.genBank)) j) ∧
        (∀ j, memRead (t.bank s.genBank) j = memRead (s.bank s.genBank) j))

/-- 42 R69: the formula for every note, in its order of operations, and its octaves, exact whatever EXP2 is: 13.75, 27.5, 55,
110, 220, 440, 880, 1760, 3520 and 7040 Hz. -/
def Obligations.MidiOctavesAreExact : Prop :=
  (∀ n : Nat, n ≤ 127 →
    midiToHz n = fmul 0x43DC0000#32 (exp2 (fdiv (toF32 ((n : Int) - 69)) 0x41400000#32))) ∧
  midiToHz 9 = 0x415C0000#32 ∧ midiToHz 21 = 0x41DC0000#32 ∧ midiToHz 33 = 0x425C0000#32 ∧
  midiToHz 45 = 0x42DC0000#32 ∧ midiToHz 57 = 0x435C0000#32 ∧ midiToHz 69 = 0x43DC0000#32 ∧
  midiToHz 81 = 0x445C0000#32 ∧ midiToHz 93 = 0x44DC0000#32 ∧ midiToHz 105 = 0x455C0000#32 ∧
  midiToHz 117 = 0x45DC0000#32

/-- Every MIDI note's frequency is above zero, and finite and below FREQ_MAX while the EXP2 of its exponent is at most 2^55. So
the sentence of 42 R69 holds of every EXP2 that is near 2^e; 00 R10 alone gives EXP2 no upper bound (log 8). -/
def Obligations.MidiFrequenciesAreInRange : Prop :=
  ∀ n : Nat, n ≤ 127 →
    flt 0#32 (midiToHz n) = true ∧
    (realValue (exp2 (fdiv (toF32 ((n : Int) - 69)) 0x41400000#32)) ≤ 2 ^ 55 →
      isFinite (midiToHz n) = true ∧ 0 < realValue (midiToHz n) ∧ realValue (midiToHz n) < 2 ^ 64)

/-- 42 R71: the Sequence advance reads the entry at the cursor, then moves the cursor on, cyclically. -/
def Obligations.SequenceAdvanceRule : Prop :=
  ∀ (s : State) (f : F32), s.genVariant = .sequence → s.genCursor.toNat < s.genLen.toNat →
    memRead (s.bank s.genBank) s.genCursor.toNat = some f →
    ∃ t, s.nextFrequency = .ok (s.genCursor.toNat, f, t) ∧ t = { s with genCursor := t.genCursor } ∧
      t.genCursor.toNat = (s.genCursor.toNat + 1) % s.genLen.toNat

/-- 42 R72: the Random advance steps on a draw below 0.5 and jumps otherwise, consuming one draw or two; the cursor moves
to the index after the one returned. -/
def Obligations.RandomAdvanceRule : Prop :=
  ∀ (s : State) (f : F32) (idx used : Nat), s.genVariant = .random → s.genCursor.toNat < s.genLen.toNat →
    (flt (drawROf s.rawDraw) 0x3F000000#32 = true ∧ idx = s.genCursor.toNat ∧ used = 1 ∨
     flt (drawROf s.rawDraw) 0x3F000000#32 = false ∧ idx = drawJOf s.afterDraw.rawDraw s.genLen.toNat ∧ used = 2) →
    memRead (s.bank s.genBank) idx = some f →
    idx < s.genLen.toNat ∧
    ∃ t, s.nextFrequency = .ok (idx, f, t) ∧
      t = { s with genCursor := t.genCursor, draws := s.draws.drop used, drawPos := s.drawPos + used } ∧
      t.genCursor.toNat = (idx + 1) % s.genLen.toNat

/-- 42 R73: whatever the random source answers, `draw R()` is an F32 in [0, 1) and `draw J(L)` a natural below L, and every
such value can be drawn (log 6). -/
def Obligations.DrawsAreExactlyTheLegalOnes : Prop :=
  (∀ n : Nat, isFinite (drawROf n) = true ∧ 0 ≤ realValue (drawROf n) ∧ realValue (drawROf n) < 1) ∧
  (∀ r : F32, isFinite r = true → 0 ≤ realValue r → realValue r < 1 → ∃ n, drawROf n = r) ∧
  (∀ n len : Nat, 1 ≤ len → drawJOf n len < len) ∧
  (∀ j len : Nat, j < len → ∃ n, drawJOf n len = j)

/-- 42 R74: from cursor c, k advances of a Sequence source return the indices c, c+1, ... modulo L; any L of them in a row
return each entry exactly once; a fresh load starts at entry 0, and its first 2L advances return the list in order twice. -/
def Obligations.SequenceIsPeriodic : Prop :=
  (∀ (s : State) (k : Nat), s.SourceInstalled → s.genVariant = .sequence →
    (∃ t, State.advances k s =
        .ok ((List.range k).map (fun j => (s.genCursor.toNat + j) % s.genLen.toNat), t) ∧
      t.genCursor.toNat = (s.genCursor.toNat + k) % s.genLen.toNat) ∧
    (∀ idx, idx < s.genLen.toNat → ∃! j, j < s.genLen.toNat ∧ (s.genCursor.toNat + j) % s.genLen.toNat = idx)) ∧
  (∀ (kind : EntryKind) (es : List Word) (s t : State), s.params.Legal →
    exec (.setSequence kind .sequence es) s = .next t → t.responses = ⟨.control, .ok, []⟩ :: s.responses →
    t.genCursor = 0#16 ∧
    ∃ u, State.advances (es.length + es.length) t = .ok (List.range es.length ++ List.range es.length, u))

/-! ### The sequencer -/

/-- 43 R76: PREPARE accepts block sizes from 1 to BLOCK_MAX and finite rates of at least 1.0, stores them, derives the
increment once a table exists, and leaves everything else (the note length among it). -/
def Obligations.PrepareRule : Prop :=
  ∀ (p : Word) (r : F32) (s : State),
    (s.faulted = true →
      exec (.prepare p r) s = .next { s with responses := ⟨.control, .faulted, []⟩ :: s.responses }) ∧
    (s.faulted = false →
      (p.toNat < 1 ∨ s.params.blockMax < p.toNat ∨ r.toNat < 0x3F800000 ∨ 0x7F800000 ≤ r.toNat) →
      exec (.prepare p r) s = .next { s with responses := ⟨.control, .invalidArgument, []⟩ :: s.responses }) ∧
    (s.faulted = false → 1 ≤ p.toNat → p.toNat ≤ s.params.blockMax →
      0x3F800000 ≤ r.toNat → r.toNat < 0x7F800000 →
      exec (.prepare p r) s = .next { s with
        spb := p, sr := r, prepared := true,
        oscDelta := if s.tblValid = true
          then fdiv (fmul s.oscFreq (toF32 s.tblSize.toNat)) r else s.oscDelta,
        responses := ⟨.control, .ok, []⟩ :: s.responses })

/-- 43 R77: the checks of SET_TEMPO in their order and what an accepted one stores. The rate is one that PREPARE accepts
(43 R76), as it is in every state a run reaches once the stream is prepared. -/
def Obligations.SetTempoRule : Prop :=
  ∀ (npm : F32) (s : State),
    (s.faulted = true →
      exec (.setTempo npm) s = .next { s with responses := ⟨.control, .faulted, []⟩ :: s.responses }) ∧
    (s.faulted = false → (npm.toNat = 0 ∨ 0x7F800000 ≤ npm.toNat) →
      exec (.setTempo npm) s = .next { s with responses := ⟨.control, .invalidArgument, []⟩ :: s.responses }) ∧
    (s.faulted = false → 0 < npm.toNat → npm.toNat < 0x7F800000 → s.prepared = false →
      exec (.setTempo npm) s = .next { s with responses := ⟨.control, .invalidState, []⟩ :: s.responses }) ∧
    (s.faulted = false → 0 < npm.toNat → npm.toNat < 0x7F800000 → s.prepared = true →
      0x3F800000 ≤ s.sr.toNat → s.sr.toNat < 0x7F800000 →
      ∀ d : F32, d = fdiv s.sr (fdiv npm 0x42700000#32) →
      (isFinite d = false ∨ 2 ^ 32 - 1 < roundHalfAway d →
        exec (.setTempo npm) s = .next { s with responses := ⟨.control, .invalidArgument, []⟩ :: s.responses }) ∧
      (isFinite d = true → roundHalfAway d ≤ 2 ^ 32 - 1 →
        exec (.setTempo npm) s = .next { s with
          spn := BitVec.ofNat 32 (roundHalfAway d), tempoValid := true,
          responses := ⟨.control, .ok, []⟩ :: s.responses }))

/-- In IDLE a FILL_BLOCK of a shape the buffer holds answers silence and changes nothing (43 R78, 20 R29). -/
def Obligations.IdleFillBlockIsSilent : Prop :=
  ∀ (c : BitVec 16) (b : Word) (s : State), s.faulted = false → s.seqMode = .idle →
    1 ≤ c.toNat → c.toNat ≤ s.params.channelsMax → b.toNat ≤ s.params.blockMax →
    exec (.fillBlock c b) s = .next { s with
      responses := ⟨.audio, .ok, List.replicate (c.toNat * b.toNat) 0#32⟩ :: s.responses }

/-- A RUNNING FILL_BLOCK that passes its checks and finds no note boundary (43 R78): C copies of B samples, the phase
advanced, the timer grown by B, and nothing else changed. -/
def Obligations.FillBlockWithoutBoundary : Prop :=
  ∀ (c : BitVec 16) (b : Word) (s : State), s.Inv → s.ReadyToFill c b → s.elapsed.toNat ≤ s.spn.toNat →
    ∃ (mono : List F32) (u t : State), exec (.fillBlock c b) s = .next t ∧
      State.renderMono b.toNat s = .ok (mono, u) ∧ mono.length = b.toNat ∧
      t = { s with
        oscIndex := u.oscIndex, elapsed := t.elapsed,
        responses := ⟨.audio, .ok, (List.replicate c.toNat mono).flatten⟩ :: s.responses } ∧
      t.elapsed.toNat = s.elapsed.toNat + b.toNat

/-- 43 R79 in a RUNNING FILL_BLOCK: the source advances once, its entry becomes the frequency and the increment follows,
the timer restarts, one NoteChanged is emitted, and the block is rendered with the new increment from the old phase. -/
def Obligations.FillBlockAtABoundary : Prop :=
  ∀ (c : BitVec 16) (b : Word) (s : State), s.Inv → s.ReadyToFill c b → s.spn.toNat < s.elapsed.toNat →
    ∃ (idx : Nat) (f : F32) (s1 u t : State) (mono : List F32),
      s.nextFrequency = .ok (idx, f, s1) ∧ idx < s.genLen.toNat ∧ memRead (s.bank s.genBank) idx = some f ∧
      exec (.fillBlock c b) s = .next t ∧
      State.renderMono b.toNat { s with
        oscFreq := f, oscDelta := fdiv (fmul f (toF32 s.tblSize.toNat)) s.sr } = .ok (mono, u) ∧
      mono.length = b.toNat ∧
      t = { s with
        oscFreq := f, oscDelta := fdiv (fmul f (toF32 s.tblSize.toNat)) s.sr, oscIndex := u.oscIndex,
        genCursor := t.genCursor, draws := s1.draws, drawPos := s1.drawPos, elapsed := t.elapsed,
        notes := ⟨BitVec.ofNat 32 idx, f⟩ :: s.notes,
        responses := ⟨.audio, .ok, (List.replicate c.toNat mono).flatten⟩ :: s.responses } ∧
      t.genCursor.toNat = (idx + 1) % s.genLen.toNat ∧ t.elapsed.toNat = b.toNat

/-- 60 R94: a step emits a NoteChanged exactly when it runs a FILL_BLOCK at a note boundary, and then one. -/
def Obligations.NotesOnlyAtBoundaries : Prop :=
  ∀ (s t : State) (e : Event) (rest : List Event), s.pending = e :: rest → step s = .next t →
    (t.notes = s.notes ∨ ∃ n, t.notes = n :: s.notes) ∧
    (t.notes ≠ s.notes ↔
      ∃ k c b, e = .command .audio k ∧ decode .audio k = .instr (.fillBlock c b) ∧ s.ReadyToFill c b ∧
        s.spn.toNat < s.elapsed.toNat)

/-- 43 R80: at every command boundary of a sound block the timer is at most SPN_MAX + BLOCK_MAX, below 2^33, and the
boundary check of a FILL_BLOCK leaves it at most `spn`. -/
def Obligations.TimerNeverWraps : Prop :=
  ∀ s t : State, s.Inv → step s = .next t →
    t.elapsed.toNat ≤ (2 ^ 32 - 1) + s.params.blockMax ∧ (2 ^ 32 - 1) + s.params.blockMax < 2 ^ 33 ∧
    (∀ u : State, s.boundaryCheck = .ok u → u.elapsed.toNat ≤ s.spn.toNat)

/-- 43 R81: from a timer of 0, with blocks of B frames, the next boundary falls at the start of FILL_BLOCK number k + 1, with
k = spn / B + 1: a note lasts k blocks, more than `spn` frames. -/
def Obligations.NoteLastsWholeBlocks : Prop :=
  ∀ (c : BitVec 16) (b : Word) (s : State), s.Inv → s.ReadyToFill c b → s.elapsed = 0#64 → 1 ≤ b.toNat →
    let k := s.spn.toNat / b.toNat + 1
    s.spn.toNat < k * b.toNat ∧
    (∀ n, n ≤ k → ∃ t, fillTimes c b n s = some t ∧ t.elapsed.toNat = n * b.toNat ∧ t.notes = s.notes ∧
      t.oscFreq = s.oscFreq ∧ t.genCursor = s.genCursor) ∧
    (∃ t note, fillTimes c b (k + 1) s = some t ∧ t.elapsed.toNat = b.toNat ∧ t.notes = note :: s.notes)

/-! ### Read-back -/

/-- 44 R84: READ_TABLE, the guard word included; nothing changes. -/
def Obligations.ReadTableRule : Prop :=
  ∀ (i : Word) (s : State),
    (s.tblValid = false →
      exec (.readTable i) s = .next { s with responses := ⟨.control, .invalidState, []⟩ :: s.responses }) ∧
    (s.tblValid = true → s.tblSize.toNat < i.toNat →
      exec (.readTable i) s = .next { s with responses := ⟨.control, .invalidArgument, []⟩ :: s.responses }) ∧
    (s.tblValid = true → i.toNat ≤ s.tblSize.toNat → ∀ v, memRead s.tbl i.toNat = some v →
      exec (.readTable i) s = .next { s with responses := ⟨.control, .ok, [v]⟩ :: s.responses })

/-- 44 R85: READ_REG, every selector and every bit of the STATUS word, the cause codes of 60 R89 among them; nothing
changes. -/
def Obligations.ReadRegRule : Prop :=
  ∀ (sel : Word) (s : State),
    (13 < sel.toNat →
      exec (.readReg sel) s = .next { s with responses := ⟨.control, .invalidArgument, []⟩ :: s.responses }) ∧
    (sel.toNat ≤ 13 → ∃ w : Word,
      exec (.readReg sel) s = .next { s with responses := ⟨.control, .ok, [w]⟩ :: s.responses } ∧
      (sel.toNat = 0 → w.toNat =
        (if s.seqMode = .running then 1 else 0) + (if s.faulted = true then 2 else 0) +
        (if s.tblValid = true then 4 else 0) + (if s.prepared = true then 8 else 0) +
        (if s.tempoValid = true then 16 else 0) + (if s.genVariant = .random then 32 else 0) +
        (if s.genBank = true then 64 else 0) +
        256 * (match s.faultCause with
          | .none => 0 | .badShape => 1 | .noTable => 2 | .notPrepared => 3 | .noTempo => 4 | .blockTooLarge => 5)) ∧
      (sel.toNat = 1 → w = s.tblSize) ∧ (sel.toNat = 2 → w = s.tblHarm) ∧ (sel.toNat = 3 → w = s.oscIndex) ∧
      (sel.toNat = 4 → w = s.oscDelta) ∧ (sel.toNat = 5 → w = s.oscAmp) ∧ (sel.toNat = 6 → w = s.oscFreq) ∧
      (sel.toNat = 7 → w = s.sr) ∧ (sel.toNat = 8 → w = s.spb) ∧ (sel.toNat = 9 → w = s.spn) ∧
      (sel.toNat = 10 → w.toNat = s.elapsed.toNat % 2 ^ 32) ∧ (sel.toNat = 11 → w.toNat = s.elapsed.toNat / 2 ^ 32) ∧
      (sel.toNat = 12 → w.toNat = s.genLen.toNat) ∧ (sel.toNat = 13 → w.toNat = s.genCursor.toNat))

/-- 44 R86: READ_SEQ reads the active bank; nothing changes. -/
def Obligations.ReadSeqRule : Prop :=
  ∀ (i : Word) (s : State),
    (s.seqMode = .idle →
      exec (.readSeq i) s = .next { s with responses := ⟨.control, .invalidState, []⟩ :: s.responses }) ∧
    (s.seqMode = .running → s.genLen.toNat ≤ i.toNat →
      exec (.readSeq i) s = .next { s with responses := ⟨.control, .invalidArgument, []⟩ :: s.responses }) ∧
    (s.seqMode = .running → i.toNat < s.genLen.toNat → ∀ v, memRead (s.bank s.genBank) i.toNat = some v →
      exec (.readSeq i) s = .next { s with responses := ⟨.control, .ok, [v]⟩ :: s.responses })

/-! ### Arithmetic -/

/-- 00 R3: each of the four operations on finite values gives the exact result rounded once to nearest with ties to even,
which beyond the finite range is the infinity of its sign. The signs of zeros, the infinity of a nonzero value over zero
(on which 43 R77 rests) and the NaN of zero over zero follow IEEE 754 (log 17, log 9). -/
def Obligations.ArithmeticRoundsOnce : Prop :=
  ∀ a b : F32, isFinite a = true → isFinite b = true →
    (∀ (v : ℚ) (r : F32),
      (v = realValue a + realValue b ∧ r = fadd a b ∨ v = realValue a - realValue b ∧ r = fsub a b ∨
       v = realValue a * realValue b ∧ r = fmul a b ∨
       realValue b ≠ 0 ∧ v = realValue a / realValue b ∧ r = fdiv a b) →
      (|v| < 2 ^ 128 - 2 ^ 103 → isFinite r = true ∧ RoundsTo v r) ∧
      (2 ^ 128 - 2 ^ 103 ≤ v → r = 0x7F800000#32) ∧ (v ≤ -(2 ^ 128 - 2 ^ 103) → r = 0xFF800000#32)) ∧
    (realValue a + realValue b = 0 →
      fadd a b = if a = 0x80000000#32 ∧ b = 0x80000000#32 then 0x80000000#32 else 0x00000000#32) ∧
    (realValue a - realValue b = 0 →
      fsub a b = if a = 0x80000000#32 ∧ b = 0x00000000#32 then 0x80000000#32 else 0x00000000#32) ∧
    (fmul a b).getLsbD 31 = (a.getLsbD 31 ^^ b.getLsbD 31) ∧
    (realValue b ≠ 0 → (fdiv a b).getLsbD 31 = (a.getLsbD 31 ^^ b.getLsbD 31)) ∧
    (realValue b = 0 → realValue a ≠ 0 →
      fdiv a b = if a.getLsbD 31 = b.getLsbD 31 then 0x7F800000#32 else 0xFF800000#32) ∧
    (realValue b = 0 → realValue a = 0 → 0x7F800000 < (fdiv a b).toNat % 2 ^ 31)

/-- 00 R4: `toF32` is exact up to 2^24. -/
def Obligations.SmallIntegersConvertExactly : Prop :=
  ∀ n : Int, -(2 ^ 24) ≤ n → n ≤ 2 ^ 24 → isFinite (toF32 n) = true ∧ realValue (toF32 n) = n

/-- 00 R5: the comparisons are the numeric ones, the zeros equal, and false on every NaN; `floorNat` is the largest natural
not above a finite value of at least zero. -/
def Obligations.ComparisonsAndFloor : Prop :=
  (∀ a b : F32, isFinite a = true → isFinite b = true →
    (flt a b = true ↔ realValue a < realValue b) ∧ (fle a b = true ↔ realValue a ≤ realValue b) ∧
    (feq a b = true ↔ realValue a = realValue b)) ∧
  feq 0x80000000#32 0x00000000#32 = true ∧
  (∀ a b : F32, 0x7F800000 < a.toNat % 2 ^ 31 →
    flt a b = false ∧ flt b a = false ∧ fle a b = false ∧ fle b a = false ∧ feq a b = false ∧ feq b a = false) ∧
  (∀ x : F32, isFinite x = true ↔ x.extractLsb' 23 8 ≠ 0xFF#8) ∧
  (∀ x : F32, isFinite x = true → 0 ≤ realValue x →
    (floorNat x : ℚ) ≤ realValue x ∧ realValue x < (floorNat x : ℚ) + 1)

/-- 00 R6: `roundHalfAway` is the nearest natural, the larger of two equally near. -/
def Obligations.RoundHalfAwayIsNearest : Prop :=
  ∀ x : F32, isFinite x = true → 0 ≤ realValue x →
    (roundHalfAway x : ℚ) - 1 / 2 ≤ realValue x ∧ realValue x < (roundHalfAway x : ℚ) + 1 / 2

/-- 00 R7: `wrapN` is the exact remainder, with no rounding, in [0, N), a zero result +0.0. -/
def Obligations.WrapIsTheExactRemainder : Prop :=
  ∀ (x : F32) (n : Nat), isFinite x = true → 0 ≤ realValue x → 1 ≤ n → n ≤ 2 ^ 24 →
    isFinite (wrapN x n) = true ∧
    realValue (wrapN x n) = realValue x - n * (⌊realValue x / n⌋ : ℚ) ∧
    0 ≤ realValue (wrapN x n) ∧ realValue (wrapN x n) < n ∧
    (realValue (wrapN x n) = 0 → wrapN x n = 0#32)

/-- 00 R9: SIN_TURN is exact at the quarter turns and lies in [-1.0, 1.0]. -/
def Obligations.SinTurnProperties : Prop :=
  ∀ k m : Nat, 3 ≤ m → k < m →
    (4 * k % m = 0 →
      (4 * k / m = 0 ∨ 4 * k / m = 2 → sinTurn k m = 0x00000000#32) ∧
      (4 * k / m = 1 → sinTurn k m = 0x3F800000#32) ∧ (4 * k / m = 3 → sinTurn k m = 0xBF800000#32)) ∧
    isFinite (sinTurn k m) = true ∧ -1 ≤ realValue (sinTurn k m) ∧ realValue (sinTurn k m) ≤ 1

/-- 00 R10: EXP2 is exact at the integers from -6 to 4, and finite and above zero on [-5.75, 4.8334]. -/
def Obligations.Exp2Properties : Prop :=
  (∀ (e : F32) (j : Int), isFinite e = true → realValue e = j → -6 ≤ j → j ≤ 4 →
    isFinite (exp2 e) = true ∧ realValue (exp2 e) = (2 : ℚ) ^ j) ∧
  (∀ e : F32, isFinite e = true → -(23 / 4) ≤ realValue e → realValue e ≤ 48334 / 10000 →
    isFinite (exp2 e) = true ∧ 0 < realValue (exp2 e))

/-! ### The listing -/

/-- 30 R49 and R50: the printed line of every command assembles to that command; each form has the mnemonic and the operand
order of the rule; the names of 44 R85 name their selectors; a hexadecimal operand is its value; the three pseudo-commands
expand as R50 says; and a line that assembles gives a command that some packet encodes, a READ_REG line a register. Spaces,
signs and other details of the text are the model's choice (log 20). -/
def Obligations.AssembledLinesAreWellFormed : Prop :=
  (∀ i : Instr, i.wellFormed = true → (∀ sel, i = .readReg sel → sel.toNat ≤ 13) →
    assembleLine (lineOf i) = some i) ∧
  (∀ n h : Nat, lineOf (.buildTable (BitVec.ofNat 32 n) (BitVec.ofNat 32 h)) =
    "BUILD_TABLE " ++ toString (n % 2 ^ 32) ++ ", " ++ toString (h % 2 ^ 32)) ∧
  (assembleLine "PREPARE 512, 48000.0" = some (.prepare 512#32 0x473B8000#32) ∧
   assembleLine "SET_FREQUENCY 440.0" = some (.setFrequency 0x43DC0000#32) ∧
   assembleLine "SET_AMPLITUDE f32:0x3F000000" = some (.setAmplitude 0x3F000000#32) ∧
   assembleLine "SET_TEMPO 120" = some (.setTempo 0x42F00000#32) ∧
   assembleLine "SET_SEQUENCE.seq.hz 1.0, 2.0" = some (.setSequence .hz .sequence [0x3F800000#32, 0x40000000#32]) ∧
   assembleLine "SET_SEQUENCE.rand.hz 1.0" = some (.setSequence .hz .random [0x3F800000#32]) ∧
   assembleLine "SET_SEQUENCE.seq.midi 69, 81" = some (.setSequence .midi .sequence [69#32, 81#32]) ∧
   assembleLine "SET_SEQUENCE.rand.midi 69" = some (.setSequence .midi .random [69#32]) ∧
   assembleLine "FILL_BLOCK 2, 4" = some (.fillBlock 2#16 4#32) ∧
   assembleLine "READ_TABLE 5" = some (.readTable 5#32) ∧
   assembleLine "READ_REG 13" = some (.readReg 13#32) ∧
   assembleLine "READ_SEQ 1" = some (.readSeq 1#32)) ∧
  (∀ f ∈ [("STATUS", 0#32), ("TBL_SIZE", 1#32), ("TBL_HARM", 2#32), ("OSC_INDEX", 3#32), ("OSC_DELTA", 4#32),
      ("OSC_AMP", 5#32), ("OSC_FREQ", 6#32), ("SAMPLE_RATE", 7#32), ("BLOCK_SIZE", 8#32), ("SPN", 9#32),
      ("ELAPSED_LO", 10#32), ("ELAPSED_HI", 11#32), ("GEN_LEN", 12#32), ("GEN_CURSOR", 13#32)],
    assembleLine ("READ_REG " ++ f.1) = some (.readReg f.2)) ∧
  (∀ w : Word, assembleLine ("READ_TABLE 0x" ++ String.ofList (Nat.toDigits 16 w.toNat)) = some (.readTable w)) ∧
  assembleLine "SILENCE" = some (.setAmplitude 0x00000000#32) ∧
  (∀ ops : String, assembleLine ("SET_SEQUENCE " ++ ops) = assembleLine ("SET_SEQUENCE.seq.hz " ++ ops) ∧
    assembleLine ("SET_SEQUENCE_MIDI " ++ ops) = assembleLine ("SET_SEQUENCE.seq.midi " ++ ops)) ∧
  (∀ (line : String) (i : Instr), assembleLine line = some i →
    i.wellFormed = true ∧ (∀ sel, i = .readReg sel → sel.toNat ≤ 13))

/-- 30 R49: a decimal literal is converted to the nearest F32 with ties to even, with a fraction or without one; a leading
minus sign, which R49 does not mention, gives the opposite value (log 20). -/
def Obligations.DecimalLiteralsAreRounded : Prop :=
  ∀ n d k : Nat, d < 10 ^ k → (n : ℚ) + (d : ℚ) / 10 ^ k < 2 ^ 128 - 2 ^ 103 →
    ∀ text : String,
      (k = 0 ∧ text = toString n ∨
       0 < k ∧ text = toString n ++ "." ++ String.ofList (List.leftpad k '0' (Nat.toDigits 10 d))) →
      ∃ r : F32, assembleLine ("SET_AMPLITUDE " ++ text) = some (.setAmplitude r) ∧
        isFinite r = true ∧ r.getLsbD 31 = false ∧ RoundsTo ((n : ℚ) + (d : ℚ) / 10 ^ k) r ∧
        assembleLine ("SET_AMPLITUDE -" ++ text) = some (.setAmplitude (r ^^^ 0x80000000#32))
end

