-- ==== Sys2Proof/Laws/Float.lean ====
section
/-!
SUPPORT. Laws of the binary32 arithmetic (00 R2 to R7): packing and unpacking, the order of the magnitudes, rounding as a
monotone function that is exact on representable values, and one spec lemma for each operation on finite values.
-/

namespace Sys2Proof.Machine

/-! ### Packing -/

theorem fsign_eq_decide (x : F32) : fsign x = decide (2 ^ 31 ≤ x.toNat) := by
  simp [fsign, BitVec.msb_eq_decide]

theorem toNat_eq_sign_mag (x : F32) : x.toNat = (if fsign x then fmag x + 2 ^ 31 else fmag x) := by
  have h := x.isLt
  rw [fsign_eq_decide]
  unfold fmag
  by_cases hx : 2 ^ 31 ≤ x.toNat
  · simp only [hx, decide_true, if_true]; omega
  · simp only [hx, decide_false, Bool.false_eq_true, if_false]; omega

theorem toNat_fpack {neg : Bool} {m : Nat} (h : m < 2 ^ 31) :
    (fpack neg m).toNat = (if neg then m + 2 ^ 31 else m) := by
  cases neg <;> simp only [fpack, BitVec.toNat_ofNat, if_true, Bool.false_eq_true, if_false] <;> omega

theorem fsign_fpack {neg : Bool} {m : Nat} (h : m < 2 ^ 31) : fsign (fpack neg m) = neg := by
  rw [fsign_eq_decide, toNat_fpack h]
  cases neg
  · simp only [Bool.false_eq_true, if_false, decide_eq_false_iff_not]; omega
  · simp only [if_true, decide_eq_true_eq]; omega

theorem fmag_fpack {neg : Bool} {m : Nat} (h : m < 2 ^ 31) : fmag (fpack neg m) = m := by
  rw [fmag, toNat_fpack h]
  cases neg <;> simp only [if_true, Bool.false_eq_true, if_false] <;> omega

theorem fpack_sign_mag (x : F32) : fpack (fsign x) (fmag x) = x := by
  apply BitVec.eq_of_toNat_eq
  have h : fmag x < 2 ^ 31 := Nat.mod_lt _ (by norm_num)
  rw [toNat_fpack h, ← toNat_eq_sign_mag]

theorem fext {a b : F32} (hs : fsign a = fsign b) (hm : fmag a = fmag b) : a = b := by
  rw [← fpack_sign_mag a, ← fpack_sign_mag b, hs, hm]

theorem fmag_lt (x : F32) : fmag x < 2 ^ 31 := Nat.mod_lt _ (by norm_num)

theorem infMag_lt : infMag < 2 ^ 31 := by decide

theorem isFinite_iff {x : F32} : isFinite x = true ↔ fmag x < infMag := by simp [isFinite]

theorem not_isNaN_of_isFinite {x : F32} (h : isFinite x = true) : isNaN x = false := by
  rw [isFinite_iff] at h; simp only [isNaN, decide_eq_false_iff_not]; omega

theorem not_isInf_of_isFinite {x : F32} (h : isFinite x = true) : isInf x = false := by
  rw [isFinite_iff] at h; simp only [isInf, decide_eq_false_iff_not]; omega

/-! ### Magnitudes in units -/

theorem oneUnits_pos : 0 < oneUnits := by decide

theorem units_small {m : Nat} (h : m < 2 ^ 23) : units m = m := if_pos h

/-- A significand `k` in the place `t` has the units `k * 2^t`. A carry out of the significand lands in the next place. -/
theorem units_place {t k : Nat} (h : t = 0 ∨ 2 ^ 23 ≤ k) (hk : k ≤ 2 ^ 24) : units (t * 2 ^ 23 + k) = k * 2 ^ t := by
  unfold units
  split
  · next hlt =>
    have ht : t = 0 := by omega
    subst ht; simp
  · next hge =>
    rcases Nat.lt_or_eq_of_le hk with hk | rfl
    · have hk' : 2 ^ 23 ≤ k := by omega
      have h1 : (t * 2 ^ 23 + k) / 2 ^ 23 = t + 1 := by omega
      have h2 : (t * 2 ^ 23 + k) % 2 ^ 23 = k - 2 ^ 23 := by omega
      rw [h1, h2, Nat.add_sub_cancel, Nat.add_sub_cancel' hk']
    · have h1 : (t * 2 ^ 23 + 2 ^ 24) / 2 ^ 23 = t + 2 := by omega
      have h2 : (t * 2 ^ 23 + 2 ^ 24) % 2 ^ 23 = 0 := by omega
      rw [h1, h2, show t + 2 - 1 = t + 1 by omega, pow_succ]
      ring

/-- Every magnitude is a significand in a place. -/
theorem exists_place (m : Nat) : ∃ t k, (t = 0 ∨ 2 ^ 23 ≤ k) ∧ k < 2 ^ 24 ∧ m = t * 2 ^ 23 + k := by
  by_cases h : m < 2 ^ 23
  · exact ⟨0, m, .inl rfl, by omega, by omega⟩
  · exact ⟨m / 2 ^ 23 - 1, m % 2 ^ 23 + 2 ^ 23, .inr (by omega), by omega, by omega⟩

theorem units_strictMono : StrictMono units := by
  refine strictMono_nat_of_lt_succ fun m => ?_
  obtain ⟨t, k, hk, hk', rfl⟩ := exists_place m
  rw [units_place hk hk'.le, Nat.add_assoc, units_place (by omega) hk']
  exact Nat.mul_lt_mul_of_pos_right (Nat.lt_succ_self k) (Nat.two_pow_pos t)

theorem units_le_units {a b : Nat} : units a ≤ units b ↔ a ≤ b := units_strictMono.le_iff_le
theorem units_lt_units {a b : Nat} : units a < units b ↔ a < b := units_strictMono.lt_iff_lt
theorem units_inj {a b : Nat} : units a = units b ↔ a = b := units_strictMono.injective.eq_iff
@[simp] theorem units_zero : units 0 = 0 := by decide
theorem units_pos {m : Nat} : 0 < units m ↔ 0 < m := by
  rw [← units_lt_units (a := 0) (b := m), units_zero]

/-! ### Rounding -/

theorem dropped_spec (q : Nat) : q < 2 ^ (dropped q + 24) ∧ (dropped q = 0 ∨ 2 ^ (dropped q + 23) ≤ q) := by
  unfold dropped
  rcases Nat.eq_zero_or_pos q with rfl | hq
  · simp
  constructor
  · exact lt_of_lt_of_le Nat.lt_log2_self (Nat.pow_le_pow_right (by norm_num) (by omega))
  · by_cases h : Nat.log2 q ≤ 23
    · exact .inl (by omega)
    · refine .inr ?_
      rw [Nat.sub_add_cancel (by omega)]
      exact Nat.log2_self_le (by omega)

theorem nearestEven_bounds (a b : Nat) : a / b ≤ nearestEven a b ∧ nearestEven a b ≤ a / b + 1 := by
  unfold nearestEven; split <;> omega

/-- Rounding to a whole number is monotone in the fraction. -/
theorem nearestEven_mono {a b c d : Nat} (hb : 0 < b) (hd : 0 < d) (h : a * d ≤ c * b) :
    nearestEven a b ≤ nearestEven c d := by
  have hq : a / b ≤ c / d := by
    rw [Nat.le_div_iff_mul_le hd]
    refine Nat.le_of_mul_le_mul_right (c := b) ?_ hb
    calc a / b * d * b = a / b * b * d := by ring
      _ ≤ a * d := Nat.mul_le_mul_right _ (Nat.div_mul_le_self a b)
      _ ≤ c * b := h
  rcases Nat.lt_or_eq_of_le hq with hlt | heq
  · have h1 := (nearestEven_bounds a b).2
    have h2 := (nearestEven_bounds c d).1
    omega
  · have ha := Nat.div_add_mod a b
    have hc := Nat.div_add_mod c d
    have hr : a % b * d ≤ c % d * b := by
      have e1 : a * d = b * d * (a / b) + a % b * d := by
        conv_lhs => rw [← ha]
        ring
      have e2 : c * b = b * d * (c / d) + c % d * b := by
        conv_lhs => rw [← hc]
        ring
      rw [e1, e2, heq] at h
      omega
    unfold nearestEven
    rw [heq]
    split
    · next hup =>
      rw [if_pos]
      rcases hup with hup | ⟨hup, hodd⟩
      · have : b * d < 2 * (c % d) * b := by
          calc b * d < 2 * (a % b) * d := Nat.mul_lt_mul_of_pos_right hup hd
            _ = 2 * (a % b * d) := by ring
            _ ≤ 2 * (c % d * b) := Nat.mul_le_mul_left 2 hr
            _ = 2 * (c % d) * b := by ring
        left
        rw [Nat.mul_comm b d] at this
        exact Nat.lt_of_mul_lt_mul_right this
      · have : d * b ≤ 2 * (c % d) * b := by
          calc d * b = 2 * (a % b) * d := by rw [hup]; ring
            _ = 2 * (a % b * d) := by ring
            _ ≤ 2 * (c % d * b) := Nat.mul_le_mul_left 2 hr
            _ = 2 * (c % d) * b := by ring
        rcases Nat.lt_or_eq_of_le (Nat.le_of_mul_le_mul_right this hb) with h | h
        · exact .inl h
        · exact .inr ⟨h.symm, hodd⟩
    · split <;> omega

theorem nearestEven_exact {k b : Nat} (hb : 0 < b) : nearestEven (k * b) b = k := by
  unfold nearestEven
  rw [Nat.mul_mod_left, Nat.mul_div_cancel _ hb, if_neg]
  omega

/-- The rounded significand and its place: the significand has at most 24 bits and a carry, and fills them unless the
place is the lowest. -/
theorem rounded_place (num den : Nat) :
    let t := dropped (num / den)
    let k := nearestEven num (den * 2 ^ t)
    (t = 0 ∨ 2 ^ 23 ≤ k) ∧ k ≤ 2 ^ 24 := by
  intro t k
  obtain ⟨h1, h2⟩ := dropped_spec (num / den)
  have hd : num / (den * 2 ^ t) = num / den / 2 ^ t := by rw [Nat.div_div_eq_div_mul]
  have hb := nearestEven_bounds num (den * 2 ^ t)
  rw [hd] at hb
  constructor
  · rcases h2 with h2 | h2
    · exact .inl h2
    · right
      refine le_trans ?_ hb.1
      rw [Nat.le_div_iff_mul_le (Nat.two_pow_pos _), ← pow_add, Nat.add_comm]
      exact h2
  · refine le_trans hb.2 ?_
    have : num / den / 2 ^ t < 2 ^ 24 := by
      rw [Nat.div_lt_iff_lt_mul (Nat.two_pow_pos _), ← pow_add, Nat.add_comm]
      exact h1
    omega

theorem roundMag_le_infMag (num den : Nat) : roundMag num den ≤ infMag := Nat.min_le_right _ _

theorem roundMag_lt (num den : Nat) : roundMag num den < 2 ^ 31 :=
  lt_of_le_of_lt (roundMag_le_infMag num den) infMag_lt

/-- A representable value is its own rounding. -/
theorem roundMag_exact {m d : Nat} (hm : m ≤ infMag) (hd : 0 < d) : roundMag (units m * d) d = m := by
  obtain ⟨t, k, hk, hk', rfl⟩ := exists_place m
  have hu := units_place hk hk'.le
  unfold roundMag
  rw [hu, Nat.mul_div_cancel _ hd]
  have ht : dropped (k * 2 ^ t) = t := by
    unfold dropped
    rcases hk with rfl | hk
    · rw [pow_zero, Nat.mul_one]
      rcases Nat.eq_zero_or_pos k with rfl | hpos
      · simp
      · have := (Nat.log2_lt (by omega : k ≠ 0)).2 hk'
        omega
    · have h1 : Nat.log2 (k * 2 ^ t) = 23 + t := by
        rw [Nat.log2_eq_iff (Nat.mul_pos (by omega) (Nat.two_pow_pos t)).ne']
        constructor
        · rw [pow_add]; exact Nat.mul_le_mul_right _ hk
        · rw [show 23 + t + 1 = 24 + t by omega, pow_add]
          exact Nat.mul_lt_mul_of_pos_right hk' (Nat.two_pow_pos t)
      omega
  simp only [ht]
  rw [show k * 2 ^ t * d = k * (d * 2 ^ t) by ring, nearestEven_exact (Nat.mul_pos hd (Nat.two_pow_pos t))]
  exact Nat.min_eq_left hm

/-- Rounding is monotone. -/
theorem roundMag_mono {n1 d1 n2 d2 : Nat} (h1 : 0 < d1) (h2 : 0 < d2) (h : n1 * d2 ≤ n2 * d1) :
    roundMag n1 d1 ≤ roundMag n2 d2 := by
  have hq : n1 / d1 ≤ n2 / d2 := by
    rw [Nat.le_div_iff_mul_le h2]
    refine Nat.le_of_mul_le_mul_right (c := d1) ?_ h1
    calc n1 / d1 * d2 * d1 = n1 / d1 * d1 * d2 := by ring
      _ ≤ n1 * d2 := Nat.mul_le_mul_right _ (Nat.div_mul_le_self n1 d1)
      _ ≤ n2 * d1 := h
  have ht : dropped (n1 / d1) ≤ dropped (n2 / d2) := by
    unfold dropped
    have : Nat.log2 (n1 / d1) ≤ Nat.log2 (n2 / d2) := by
      rcases Nat.eq_zero_or_pos (n1 / d1) with h0 | h0
      · rw [h0]; simp
      · rw [Nat.le_log2 (by omega)]
        exact le_trans (Nat.log2_self_le (by omega)) hq
    omega
  obtain ⟨ha1, ha2⟩ := rounded_place n1 d1
  obtain ⟨hb1, hb2⟩ := rounded_place n2 d2
  unfold roundMag
  refine min_le_min_right _ ?_
  rcases Nat.lt_or_eq_of_le ht with hlt | heq
  · have hk2 : 2 ^ 23 ≤ nearestEven n2 (d2 * 2 ^ dropped (n2 / d2)) := by
      rcases hb1 with h0 | h0
      · omega
      · exact h0
    have hs : (dropped (n1 / d1) + 1) * 2 ^ 23 ≤ dropped (n2 / d2) * 2 ^ 23 := Nat.mul_le_mul_right _ hlt
    omega
  · simp only [heq]
    refine Nat.add_le_add_left (nearestEven_mono (Nat.mul_pos h1 (Nat.two_pow_pos _))
      (Nat.mul_pos h2 (Nat.two_pow_pos _)) ?_) _
    calc n1 * (d2 * 2 ^ dropped (n2 / d2)) = n1 * d2 * 2 ^ dropped (n2 / d2) := by ring
      _ ≤ n2 * d1 * 2 ^ dropped (n2 / d2) := Nat.mul_le_mul_right _ h
      _ = n2 * (d1 * 2 ^ dropped (n2 / d2)) := by ring

/-- A fraction at most a representable value rounds to at most that value. -/
theorem roundMag_le {num den m : Nat} (hd : 0 < den) (hm : m ≤ infMag) (h : num ≤ units m * den) :
    roundMag num den ≤ m := by
  have := roundMag_mono (n1 := num) (d1 := den) (n2 := units m * den) (d2 := den) hd hd
    (Nat.mul_le_mul_right _ h)
  rwa [roundMag_exact hm hd] at this

/-- A fraction at least a representable value rounds to at least that value. -/
theorem le_roundMag {num den m : Nat} (hd : 0 < den) (hm : m ≤ infMag) (h : units m * den ≤ num) :
    m ≤ roundMag num den := by
  have := roundMag_mono (n1 := units m * den) (d1 := den) (n2 := num) (d2 := den) hd hd
    (Nat.mul_le_mul_right _ h)
  rwa [roundMag_exact hm hd] at this

@[simp] theorem roundMag_zero (den : Nat) : roundMag 0 den = 0 := by
  simp [roundMag, dropped, nearestEven]

/-! ### Values -/

theorem fval_of_pos {x : F32} (h : fsign x = false) : fval x = units (fmag x) := by simp [fval, h]

theorem natAbs_fval (x : F32) : (fval x).natAbs = units (fmag x) := by
  unfold fval; split <;> simp

theorem fval_fpack {neg : Bool} {m : Nat} (h : m < 2 ^ 31) :
    fval (fpack neg m) = if neg then -(units m : Int) else units m := by
  rw [fval, fsign_fpack h, fmag_fpack h]

@[simp] theorem fval_zero : fval 0#32 = 0 := by decide

theorem fval_nonneg_of_pos {x : F32} (h : fsign x = false) : 0 ≤ fval x := by
  rw [fval_of_pos h]; exact Int.natCast_nonneg _

/-- A value of at least zero is positive or a zero. -/
theorem units_of_nonneg {x : F32} (h : 0 ≤ fval x) : (units (fmag x) : Int) = fval x := by
  unfold fval at *
  split at h
  · next hs => simp only [hs, if_true]; omega
  · next hs => simp [hs]

/-- A value of at least zero that is no zero has the sign bit clear. -/
theorem fsign_false_of_pos {x : F32} (h : 0 < fval x) : fsign x = false := by
  unfold fval at h
  split at h
  · have := Int.natCast_nonneg (units (fmag x)); omega
  · next hs => simpa using hs

/-! ### The comparisons on values that are no NaN -/

theorem flt_iff {a b : F32} (ha : isNaN a = false) (hb : isNaN b = false) : flt a b = true ↔ fval a < fval b := by
  simp [flt, ha, hb]

theorem fle_iff {a b : F32} (ha : isNaN a = false) (hb : isNaN b = false) : fle a b = true ↔ fval a ≤ fval b := by
  simp [fle, ha, hb]

theorem feq_iff {a b : F32} (ha : isNaN a = false) (hb : isNaN b = false) : feq a b = true ↔ fval a = fval b := by
  simp [feq, ha, hb]

theorem fle_nan {a b : F32} (h : fle a b = true) : isNaN a = false ∧ isNaN b = false ∧ fval a ≤ fval b := by
  simp [fle] at h
  exact ⟨h.1.1, h.1.2, h.2⟩

theorem inDomain_iff {x : F32} : inDomain x = true ↔ isFinite x = true ∧ 0 ≤ fval x := by
  simp [inDomain]

/-- Finite values in numeric order: what lies between two finite values is finite. -/
theorem isFinite_of_abs_le {x : F32} {m : Nat} (hm : m < infMag)
    (h : (fval x).natAbs ≤ units m) : isFinite x = true := by
  rw [natAbs_fval, units_le_units] at h
  rw [isFinite_iff]; omega

/-! ### One spec lemma for each operation on finite values -/

theorem fmul_finite {a b : F32} (ha : isFinite a = true) (hb : isFinite b = true) :
    fmul a b = fpack (fsign a != fsign b) (roundMag (units (fmag a) * units (fmag b)) oneUnits) := by
  simp [fmul, not_isNaN_of_isFinite ha, not_isNaN_of_isFinite hb, not_isInf_of_isFinite ha,
    not_isInf_of_isFinite hb]

theorem fdiv_finite {a b : F32} (ha : isFinite a = true) (hb : isFinite b = true) (h0 : fmag b ≠ 0) :
    fdiv a b = fpack (fsign a != fsign b) (roundMag (units (fmag a) * oneUnits) (units (fmag b))) := by
  simp [fdiv, not_isNaN_of_isFinite ha, not_isNaN_of_isFinite hb, not_isInf_of_isFinite ha,
    not_isInf_of_isFinite hb, h0]

theorem fadd_finite {a b : F32} (ha : isFinite a = true) (hb : isFinite b = true) :
    fadd a b = if fval a + fval b = 0 then fpack (fsign a && fsign b) 0
      else fpack (decide (fval a + fval b < 0)) (roundMag (fval a + fval b).natAbs 1) := by
  simp [fadd, addCore, not_isNaN_of_isFinite ha, not_isNaN_of_isFinite hb, not_isInf_of_isFinite ha,
    not_isInf_of_isFinite hb]

theorem fmag_fneg (x : F32) : fmag (fneg x) = fmag x := by
  unfold fmag fneg
  rw [BitVec.toNat_xor]
  rw [show (0x80000000#32 : BitVec 32).toNat = 2 ^ 31 by decide]
  rw [Nat.xor_mod_two_pow]
  simp

theorem fsign_fneg (x : F32) : fsign (fneg x) = !fsign x := by
  unfold fsign fneg
  rw [BitVec.msb_xor]
  have : (0x80000000#32 : BitVec 32).msb = true := by decide
  rw [this]; simp

theorem fval_fneg (x : F32) : fval (fneg x) = -fval x := by
  unfold fval; rw [fsign_fneg, fmag_fneg]
  cases fsign x <;> simp

theorem isFinite_fneg {x : F32} : isFinite (fneg x) = isFinite x := by simp [isFinite, fmag_fneg]

theorem fsub_finite {a b : F32} (ha : isFinite a = true) (hb : isFinite b = true) :
    fsub a b = if fval a - fval b = 0 then fpack (fsign a && !fsign b) 0
      else fpack (decide (fval a - fval b < 0)) (roundMag (fval a - fval b).natAbs 1) := by
  have hb' : isFinite (fneg b) = true := by rw [isFinite_fneg]; exact hb
  simp [fsub, addCore, not_isNaN_of_isFinite ha, not_isNaN_of_isFinite hb, not_isInf_of_isFinite ha,
    not_isInf_of_isFinite hb', fval_fneg, fsign_fneg, ← Int.sub_eq_add_neg]

end Sys2Proof.Machine
end

