-- ==== Sys2Proof/Laws/Memory.lean ====
section
/-!
SUPPORT. Laws of the word memories (20 R26 to R33): what a write changes and leaves, and that it keeps the canonical form.
-/

namespace Sys2Proof.Machine

@[simp] theorem memRead_nil (i : Nat) : memRead [] i = none := rfl

theorem memRead_cons (a : Nat) (w : Word) (m : WordMem) (i : Nat) :
    memRead ((a, w) :: m) i = if a = i then some w else memRead m i := rfl

/-- A read after a write: the word written at its index, every other word as before. -/
theorem memRead_memWrite (m : WordMem) (i j : Nat) (v : Word) :
    memRead (memWrite m i v) j = if i = j then some v else memRead m j := by
  induction m with
  | nil => simp [memWrite, memRead_cons]
  | cons e m ih =>
    obtain ⟨a, w⟩ := e
    unfold memWrite
    split
    · simp [memRead_cons]
    · split
      · next h => subst h; by_cases hij : i = j <;> simp [memRead_cons, hij]
      · next h1 h2 =>
        rw [memRead_cons, ih, memRead_cons]
        by_cases haj : a = j
        · subst haj; simp [h2]
        · simp [haj]

/-- The words a run of writes leaves: the values in their places, every other word as before. -/
theorem memRead_memWriteAll (m : WordMem) (i : Nat) (vs : List Word) (j : Nat) :
    memRead (memWriteAll m i vs) j =
      if i ≤ j ∧ j < i + vs.length then vs[j - i]? else memRead m j := by
  induction vs generalizing i with
  | nil => simp only [memWriteAll, List.length_nil, Nat.add_zero]; rw [if_neg (by omega)]
  | cons v vs ih =>
    rw [memWriteAll, memRead_memWrite, ih, List.length_cons]
    by_cases h : i = j
    · subst h; simp
    · rw [if_neg h]
      by_cases hj : i + 1 ≤ j ∧ j < i + 1 + vs.length
      · rw [if_pos hj, if_pos (by omega), show j - i = (j - (i + 1)) + 1 by omega, List.getElem?_cons_succ]
      · rw [if_neg hj, if_neg (by omega)]

theorem memWrite_addresses (m : WordMem) (i : Nat) (v : Word) (a : Nat) :
    a ∈ (memWrite m i v).map Prod.fst ↔ a = i ∨ a ∈ m.map Prod.fst := by
  induction m with
  | nil => simp [memWrite]
  | cons e m ih =>
    obtain ⟨b, w⟩ := e
    unfold memWrite
    split
    · simp
    · split
      · next h => subst h; simp
      · simp only [List.map_cons, List.mem_cons, ih]; tauto

/-- A write keeps the canonical form. -/
theorem memWrite_wf {m : WordMem} (h : memWf m) (i : Nat) (v : Word) : memWf (memWrite m i v) := by
  induction m with
  | nil => simp [memWrite, memWf]
  | cons e m ih =>
    obtain ⟨a, w⟩ := e
    simp only [memWf, List.map_cons, List.pairwise_cons] at h ih ⊢
    unfold memWrite
    split
    · next hlt =>
      simp only [List.map_cons, List.pairwise_cons, List.mem_cons]
      refine ⟨?_, h⟩
      rintro b (rfl | hb)
      · exact hlt
      · exact lt_trans hlt (h.1 b hb)
    · split
      · next heq => subst heq; simpa only [List.map_cons, List.pairwise_cons] using h
      · next h1 h2 =>
        simp only [List.map_cons, List.pairwise_cons]
        refine ⟨?_, ih h.2⟩
        intro b hb
        rcases (memWrite_addresses m i v b).1 hb with rfl | hb
        · omega
        · exact h.1 b hb

/-- A run of writes keeps the canonical form. -/
theorem memWriteAll_wf {m : WordMem} (h : memWf m) (i : Nat) (vs : List Word) : memWf (memWriteAll m i vs) := by
  induction vs generalizing i with
  | nil => exact h
  | cons v vs ih => exact memWrite_wf (ih (i + 1)) i v

/-- Two memories in canonical form with the same words are equal. -/
theorem memWf_ext {m n : WordMem} (hm : memWf m) (hn : memWf n) (h : ∀ i, memRead m i = memRead n i) : m = n := by
  have none_below : ∀ (l : WordMem) (a : Nat), (∀ b ∈ l.map Prod.fst, a < b) → memRead l a = none := by
    intro l a hl
    induction l with
    | nil => rfl
    | cons e l ih =>
      obtain ⟨b, w⟩ := e
      simp only [List.map_cons, List.mem_cons, forall_eq_or_imp] at hl
      rw [memRead_cons, if_neg (by omega)]
      exact ih hl.2
  induction m generalizing n with
  | nil =>
    cases n with
    | nil => rfl
    | cons e n => obtain ⟨a, w⟩ := e; simpa [memRead_cons] using h a
  | cons e m ih =>
    obtain ⟨a, w⟩ := e
    cases n with
    | nil => simpa [memRead_cons] using h a
    | cons f n =>
      obtain ⟨b, x⟩ := f
      simp only [memWf, List.map_cons, List.pairwise_cons] at hm hn ih
      have hab : a = b := by
        rcases Nat.lt_trichotomy a b with hlt | heq | hlt
        · have := h a
          rw [memRead_cons, if_pos rfl, memRead_cons, if_neg (by omega),
            none_below n a (fun c hc => lt_trans hlt (hn.1 c hc))] at this
          exact absurd this (by simp)
        · exact heq
        · have := h b
          rw [memRead_cons, if_neg (by omega), memRead_cons, if_pos rfl,
            none_below m b (fun c hc => lt_trans hlt (hm.1 c hc))] at this
          exact absurd this (by simp)
      subst hab
      have hwx : w = x := by simpa [memRead_cons] using h a
      subst hwx
      have : m = n := by
        refine ih hm.2 hn.2 fun i => ?_
        by_cases hi : a = i
        · subst hi
          rw [none_below m a hm.1, none_below n a hn.1]
        · simpa [memRead_cons, hi] using h i
      rw [this]

end Sys2Proof.Machine
end

