-- ==== Sys2Proof/Laws/State.lean ====
section
/-!
SUPPORT. One lemma per field per state update, so that no proof unfolds an update.
-/

namespace Sys2Proof.Machine

/-! ### `State.respond` -/

@[simp] theorem State.respond_params (s : State) (p : Port) (c : ResponseCode) (d : List Word) : (s.respond p c d).params = s.params := rfl
@[simp] theorem State.respond_seqMode (s : State) (p : Port) (c : ResponseCode) (d : List Word) : (s.respond p c d).seqMode = s.seqMode := rfl
@[simp] theorem State.respond_faulted (s : State) (p : Port) (c : ResponseCode) (d : List Word) : (s.respond p c d).faulted = s.faulted := rfl
@[simp] theorem State.respond_faultCause (s : State) (p : Port) (c : ResponseCode) (d : List Word) : (s.respond p c d).faultCause = s.faultCause := rfl
@[simp] theorem State.respond_tblValid (s : State) (p : Port) (c : ResponseCode) (d : List Word) : (s.respond p c d).tblValid = s.tblValid := rfl
@[simp] theorem State.respond_tblSize (s : State) (p : Port) (c : ResponseCode) (d : List Word) : (s.respond p c d).tblSize = s.tblSize := rfl
@[simp] theorem State.respond_tblHarm (s : State) (p : Port) (c : ResponseCode) (d : List Word) : (s.respond p c d).tblHarm = s.tblHarm := rfl
@[simp] theorem State.respond_oscIndex (s : State) (p : Port) (c : ResponseCode) (d : List Word) : (s.respond p c d).oscIndex = s.oscIndex := rfl
@[simp] theorem State.respond_oscDelta (s : State) (p : Port) (c : ResponseCode) (d : List Word) : (s.respond p c d).oscDelta = s.oscDelta := rfl
@[simp] theorem State.respond_oscAmp (s : State) (p : Port) (c : ResponseCode) (d : List Word) : (s.respond p c d).oscAmp = s.oscAmp := rfl
@[simp] theorem State.respond_oscFreq (s : State) (p : Port) (c : ResponseCode) (d : List Word) : (s.respond p c d).oscFreq = s.oscFreq := rfl
@[simp] theorem State.respond_prepared (s : State) (p : Port) (c : ResponseCode) (d : List Word) : (s.respond p c d).prepared = s.prepared := rfl
@[simp] theorem State.respond_sr (s : State) (p : Port) (c : ResponseCode) (d : List Word) : (s.respond p c d).sr = s.sr := rfl
@[simp] theorem State.respond_spb (s : State) (p : Port) (c : ResponseCode) (d : List Word) : (s.respond p c d).spb = s.spb := rfl
@[simp] theorem State.respond_tempoValid (s : State) (p : Port) (c : ResponseCode) (d : List Word) : (s.respond p c d).tempoValid = s.tempoValid := rfl
@[simp] theorem State.respond_spn (s : State) (p : Port) (c : ResponseCode) (d : List Word) : (s.respond p c d).spn = s.spn := rfl
@[simp] theorem State.respond_elapsed (s : State) (p : Port) (c : ResponseCode) (d : List Word) : (s.respond p c d).elapsed = s.elapsed := rfl
@[simp] theorem State.respond_genVariant (s : State) (p : Port) (c : ResponseCode) (d : List Word) : (s.respond p c d).genVariant = s.genVariant := rfl
@[simp] theorem State.respond_genBank (s : State) (p : Port) (c : ResponseCode) (d : List Word) : (s.respond p c d).genBank = s.genBank := rfl
@[simp] theorem State.respond_genLen (s : State) (p : Port) (c : ResponseCode) (d : List Word) : (s.respond p c d).genLen = s.genLen := rfl
@[simp] theorem State.respond_genCursor (s : State) (p : Port) (c : ResponseCode) (d : List Word) : (s.respond p c d).genCursor = s.genCursor := rfl
@[simp] theorem State.respond_tbl (s : State) (p : Port) (c : ResponseCode) (d : List Word) : (s.respond p c d).tbl = s.tbl := rfl
@[simp] theorem State.respond_seq0 (s : State) (p : Port) (c : ResponseCode) (d : List Word) : (s.respond p c d).seq0 = s.seq0 := rfl
@[simp] theorem State.respond_seq1 (s : State) (p : Port) (c : ResponseCode) (d : List Word) : (s.respond p c d).seq1 = s.seq1 := rfl
@[simp] theorem State.respond_pending (s : State) (p : Port) (c : ResponseCode) (d : List Word) : (s.respond p c d).pending = s.pending := rfl
@[simp] theorem State.respond_responses (s : State) (p : Port) (c : ResponseCode) (d : List Word) : (s.respond p c d).responses = ⟨p, c, d⟩ :: s.responses := rfl
@[simp] theorem State.respond_notes (s : State) (p : Port) (c : ResponseCode) (d : List Word) : (s.respond p c d).notes = s.notes := rfl
@[simp] theorem State.respond_draws (s : State) (p : Port) (c : ResponseCode) (d : List Word) : (s.respond p c d).draws = s.draws := rfl
@[simp] theorem State.respond_drawPos (s : State) (p : Port) (c : ResponseCode) (d : List Word) : (s.respond p c d).drawPos = s.drawPos := rfl

/-! ### `State.raiseFatal` -/

@[simp] theorem State.raiseFatal_params (s : State) (c : FaultCause) (d : List Word) : (s.raiseFatal c d).params = s.params := rfl
@[simp] theorem State.raiseFatal_seqMode (s : State) (c : FaultCause) (d : List Word) : (s.raiseFatal c d).seqMode = s.seqMode := rfl
@[simp] theorem State.raiseFatal_faulted (s : State) (c : FaultCause) (d : List Word) : (s.raiseFatal c d).faulted = true := rfl
@[simp] theorem State.raiseFatal_faultCause (s : State) (c : FaultCause) (d : List Word) : (s.raiseFatal c d).faultCause = c := rfl
@[simp] theorem State.raiseFatal_tblValid (s : State) (c : FaultCause) (d : List Word) : (s.raiseFatal c d).tblValid = s.tblValid := rfl
@[simp] theorem State.raiseFatal_tblSize (s : State) (c : FaultCause) (d : List Word) : (s.raiseFatal c d).tblSize = s.tblSize := rfl
@[simp] theorem State.raiseFatal_tblHarm (s : State) (c : FaultCause) (d : List Word) : (s.raiseFatal c d).tblHarm = s.tblHarm := rfl
@[simp] theorem State.raiseFatal_oscIndex (s : State) (c : FaultCause) (d : List Word) : (s.raiseFatal c d).oscIndex = s.oscIndex := rfl
@[simp] theorem State.raiseFatal_oscDelta (s : State) (c : FaultCause) (d : List Word) : (s.raiseFatal c d).oscDelta = s.oscDelta := rfl
@[simp] theorem State.raiseFatal_oscAmp (s : State) (c : FaultCause) (d : List Word) : (s.raiseFatal c d).oscAmp = s.oscAmp := rfl
@[simp] theorem State.raiseFatal_oscFreq (s : State) (c : FaultCause) (d : List Word) : (s.raiseFatal c d).oscFreq = s.oscFreq := rfl
@[simp] theorem State.raiseFatal_prepared (s : State) (c : FaultCause) (d : List Word) : (s.raiseFatal c d).prepared = s.prepared := rfl
@[simp] theorem State.raiseFatal_sr (s : State) (c : FaultCause) (d : List Word) : (s.raiseFatal c d).sr = s.sr := rfl
@[simp] theorem State.raiseFatal_spb (s : State) (c : FaultCause) (d : List Word) : (s.raiseFatal c d).spb = s.spb := rfl
@[simp] theorem State.raiseFatal_tempoValid (s : State) (c : FaultCause) (d : List Word) : (s.raiseFatal c d).tempoValid = s.tempoValid := rfl
@[simp] theorem State.raiseFatal_spn (s : State) (c : FaultCause) (d : List Word) : (s.raiseFatal c d).spn = s.spn := rfl
@[simp] theorem State.raiseFatal_elapsed (s : State) (c : FaultCause) (d : List Word) : (s.raiseFatal c d).elapsed = s.elapsed := rfl
@[simp] theorem State.raiseFatal_genVariant (s : State) (c : FaultCause) (d : List Word) : (s.raiseFatal c d).genVariant = s.genVariant := rfl
@[simp] theorem State.raiseFatal_genBank (s : State) (c : FaultCause) (d : List Word) : (s.raiseFatal c d).genBank = s.genBank := rfl
@[simp] theorem State.raiseFatal_genLen (s : State) (c : FaultCause) (d : List Word) : (s.raiseFatal c d).genLen = s.genLen := rfl
@[simp] theorem State.raiseFatal_genCursor (s : State) (c : FaultCause) (d : List Word) : (s.raiseFatal c d).genCursor = s.genCursor := rfl
@[simp] theorem State.raiseFatal_tbl (s : State) (c : FaultCause) (d : List Word) : (s.raiseFatal c d).tbl = s.tbl := rfl
@[simp] theorem State.raiseFatal_seq0 (s : State) (c : FaultCause) (d : List Word) : (s.raiseFatal c d).seq0 = s.seq0 := rfl
@[simp] theorem State.raiseFatal_seq1 (s : State) (c : FaultCause) (d : List Word) : (s.raiseFatal c d).seq1 = s.seq1 := rfl
@[simp] theorem State.raiseFatal_pending (s : State) (c : FaultCause) (d : List Word) : (s.raiseFatal c d).pending = s.pending := rfl
@[simp] theorem State.raiseFatal_responses (s : State) (c : FaultCause) (d : List Word) : (s.raiseFatal c d).responses = ⟨.audio, .fatal, d⟩ :: s.responses := rfl
@[simp] theorem State.raiseFatal_notes (s : State) (c : FaultCause) (d : List Word) : (s.raiseFatal c d).notes = s.notes := rfl
@[simp] theorem State.raiseFatal_draws (s : State) (c : FaultCause) (d : List Word) : (s.raiseFatal c d).draws = s.draws := rfl
@[simp] theorem State.raiseFatal_drawPos (s : State) (c : FaultCause) (d : List Word) : (s.raiseFatal c d).drawPos = s.drawPos := rfl

/-! ### `State.emitNote` -/

@[simp] theorem State.emitNote_params (s : State) (i : Nat) (f : F32) : (s.emitNote i f).params = s.params := rfl
@[simp] theorem State.emitNote_seqMode (s : State) (i : Nat) (f : F32) : (s.emitNote i f).seqMode = s.seqMode := rfl
@[simp] theorem State.emitNote_faulted (s : State) (i : Nat) (f : F32) : (s.emitNote i f).faulted = s.faulted := rfl
@[simp] theorem State.emitNote_faultCause (s : State) (i : Nat) (f : F32) : (s.emitNote i f).faultCause = s.faultCause := rfl
@[simp] theorem State.emitNote_tblValid (s : State) (i : Nat) (f : F32) : (s.emitNote i f).tblValid = s.tblValid := rfl
@[simp] theorem State.emitNote_tblSize (s : State) (i : Nat) (f : F32) : (s.emitNote i f).tblSize = s.tblSize := rfl
@[simp] theorem State.emitNote_tblHarm (s : State) (i : Nat) (f : F32) : (s.emitNote i f).tblHarm = s.tblHarm := rfl
@[simp] theorem State.emitNote_oscIndex (s : State) (i : Nat) (f : F32) : (s.emitNote i f).oscIndex = s.oscIndex := rfl
@[simp] theorem State.emitNote_oscDelta (s : State) (i : Nat) (f : F32) : (s.emitNote i f).oscDelta = s.oscDelta := rfl
@[simp] theorem State.emitNote_oscAmp (s : State) (i : Nat) (f : F32) : (s.emitNote i f).oscAmp = s.oscAmp := rfl
@[simp] theorem State.emitNote_oscFreq (s : State) (i : Nat) (f : F32) : (s.emitNote i f).oscFreq = s.oscFreq := rfl
@[simp] theorem State.emitNote_prepared (s : State) (i : Nat) (f : F32) : (s.emitNote i f).prepared = s.prepared := rfl
@[simp] theorem State.emitNote_sr (s : State) (i : Nat) (f : F32) : (s.emitNote i f).sr = s.sr := rfl
@[simp] theorem State.emitNote_spb (s : State) (i : Nat) (f : F32) : (s.emitNote i f).spb = s.spb := rfl
@[simp] theorem State.emitNote_tempoValid (s : State) (i : Nat) (f : F32) : (s.emitNote i f).tempoValid = s.tempoValid := rfl
@[simp] theorem State.emitNote_spn (s : State) (i : Nat) (f : F32) : (s.emitNote i f).spn = s.spn := rfl
@[simp] theorem State.emitNote_elapsed (s : State) (i : Nat) (f : F32) : (s.emitNote i f).elapsed = s.elapsed := rfl
@[simp] theorem State.emitNote_genVariant (s : State) (i : Nat) (f : F32) : (s.emitNote i f).genVariant = s.genVariant := rfl
@[simp] theorem State.emitNote_genBank (s : State) (i : Nat) (f : F32) : (s.emitNote i f).genBank = s.genBank := rfl
@[simp] theorem State.emitNote_genLen (s : State) (i : Nat) (f : F32) : (s.emitNote i f).genLen = s.genLen := rfl
@[simp] theorem State.emitNote_genCursor (s : State) (i : Nat) (f : F32) : (s.emitNote i f).genCursor = s.genCursor := rfl
@[simp] theorem State.emitNote_tbl (s : State) (i : Nat) (f : F32) : (s.emitNote i f).tbl = s.tbl := rfl
@[simp] theorem State.emitNote_seq0 (s : State) (i : Nat) (f : F32) : (s.emitNote i f).seq0 = s.seq0 := rfl
@[simp] theorem State.emitNote_seq1 (s : State) (i : Nat) (f : F32) : (s.emitNote i f).seq1 = s.seq1 := rfl
@[simp] theorem State.emitNote_pending (s : State) (i : Nat) (f : F32) : (s.emitNote i f).pending = s.pending := rfl
@[simp] theorem State.emitNote_responses (s : State) (i : Nat) (f : F32) : (s.emitNote i f).responses = s.responses := rfl
@[simp] theorem State.emitNote_notes (s : State) (i : Nat) (f : F32) : (s.emitNote i f).notes = ⟨BitVec.ofNat 32 i, f⟩ :: s.notes := rfl
@[simp] theorem State.emitNote_draws (s : State) (i : Nat) (f : F32) : (s.emitNote i f).draws = s.draws := rfl
@[simp] theorem State.emitNote_drawPos (s : State) (i : Nat) (f : F32) : (s.emitNote i f).drawPos = s.drawPos := rfl

/-! ### `State.afterDraw` -/

@[simp] theorem State.afterDraw_params (s : State) : s.afterDraw.params = s.params := rfl
@[simp] theorem State.afterDraw_seqMode (s : State) : s.afterDraw.seqMode = s.seqMode := rfl
@[simp] theorem State.afterDraw_faulted (s : State) : s.afterDraw.faulted = s.faulted := rfl
@[simp] theorem State.afterDraw_faultCause (s : State) : s.afterDraw.faultCause = s.faultCause := rfl
@[simp] theorem State.afterDraw_tblValid (s : State) : s.afterDraw.tblValid = s.tblValid := rfl
@[simp] theorem State.afterDraw_tblSize (s : State) : s.afterDraw.tblSize = s.tblSize := rfl
@[simp] theorem State.afterDraw_tblHarm (s : State) : s.afterDraw.tblHarm = s.tblHarm := rfl
@[simp] theorem State.afterDraw_oscIndex (s : State) : s.afterDraw.oscIndex = s.oscIndex := rfl
@[simp] theorem State.afterDraw_oscDelta (s : State) : s.afterDraw.oscDelta = s.oscDelta := rfl
@[simp] theorem State.afterDraw_oscAmp (s : State) : s.afterDraw.oscAmp = s.oscAmp := rfl
@[simp] theorem State.afterDraw_oscFreq (s : State) : s.afterDraw.oscFreq = s.oscFreq := rfl
@[simp] theorem State.afterDraw_prepared (s : State) : s.afterDraw.prepared = s.prepared := rfl
@[simp] theorem State.afterDraw_sr (s : State) : s.afterDraw.sr = s.sr := rfl
@[simp] theorem State.afterDraw_spb (s : State) : s.afterDraw.spb = s.spb := rfl
@[simp] theorem State.afterDraw_tempoValid (s : State) : s.afterDraw.tempoValid = s.tempoValid := rfl
@[simp] theorem State.afterDraw_spn (s : State) : s.afterDraw.spn = s.spn := rfl
@[simp] theorem State.afterDraw_elapsed (s : State) : s.afterDraw.elapsed = s.elapsed := rfl
@[simp] theorem State.afterDraw_genVariant (s : State) : s.afterDraw.genVariant = s.genVariant := rfl
@[simp] theorem State.afterDraw_genBank (s : State) : s.afterDraw.genBank = s.genBank := rfl
@[simp] theorem State.afterDraw_genLen (s : State) : s.afterDraw.genLen = s.genLen := rfl
@[simp] theorem State.afterDraw_genCursor (s : State) : s.afterDraw.genCursor = s.genCursor := rfl
@[simp] theorem State.afterDraw_tbl (s : State) : s.afterDraw.tbl = s.tbl := rfl
@[simp] theorem State.afterDraw_seq0 (s : State) : s.afterDraw.seq0 = s.seq0 := rfl
@[simp] theorem State.afterDraw_seq1 (s : State) : s.afterDraw.seq1 = s.seq1 := rfl
@[simp] theorem State.afterDraw_pending (s : State) : s.afterDraw.pending = s.pending := rfl
@[simp] theorem State.afterDraw_responses (s : State) : s.afterDraw.responses = s.responses := rfl
@[simp] theorem State.afterDraw_notes (s : State) : s.afterDraw.notes = s.notes := rfl
@[simp] theorem State.afterDraw_draws (s : State) : s.afterDraw.draws = s.draws.tail := rfl
@[simp] theorem State.afterDraw_drawPos (s : State) : s.afterDraw.drawPos = s.drawPos + 1 := rfl

/-! ### `State.cursorAfter` -/

@[simp] theorem State.cursorAfter_params (s : State) (i : Nat) : (s.cursorAfter i).params = s.params := rfl
@[simp] theorem State.cursorAfter_seqMode (s : State) (i : Nat) : (s.cursorAfter i).seqMode = s.seqMode := rfl
@[simp] theorem State.cursorAfter_faulted (s : State) (i : Nat) : (s.cursorAfter i).faulted = s.faulted := rfl
@[simp] theorem State.cursorAfter_faultCause (s : State) (i : Nat) : (s.cursorAfter i).faultCause = s.faultCause := rfl
@[simp] theorem State.cursorAfter_tblValid (s : State) (i : Nat) : (s.cursorAfter i).tblValid = s.tblValid := rfl
@[simp] theorem State.cursorAfter_tblSize (s : State) (i : Nat) : (s.cursorAfter i).tblSize = s.tblSize := rfl
@[simp] theorem State.cursorAfter_tblHarm (s : State) (i : Nat) : (s.cursorAfter i).tblHarm = s.tblHarm := rfl
@[simp] theorem State.cursorAfter_oscIndex (s : State) (i : Nat) : (s.cursorAfter i).oscIndex = s.oscIndex := rfl
@[simp] theorem State.cursorAfter_oscDelta (s : State) (i : Nat) : (s.cursorAfter i).oscDelta = s.oscDelta := rfl
@[simp] theorem State.cursorAfter_oscAmp (s : State) (i : Nat) : (s.cursorAfter i).oscAmp = s.oscAmp := rfl
@[simp] theorem State.cursorAfter_oscFreq (s : State) (i : Nat) : (s.cursorAfter i).oscFreq = s.oscFreq := rfl
@[simp] theorem State.cursorAfter_prepared (s : State) (i : Nat) : (s.cursorAfter i).prepared = s.prepared := rfl
@[simp] theorem State.cursorAfter_sr (s : State) (i : Nat) : (s.cursorAfter i).sr = s.sr := rfl
@[simp] theorem State.cursorAfter_spb (s : State) (i : Nat) : (s.cursorAfter i).spb = s.spb := rfl
@[simp] theorem State.cursorAfter_tempoValid (s : State) (i : Nat) : (s.cursorAfter i).tempoValid = s.tempoValid := rfl
@[simp] theorem State.cursorAfter_spn (s : State) (i : Nat) : (s.cursorAfter i).spn = s.spn := rfl
@[simp] theorem State.cursorAfter_elapsed (s : State) (i : Nat) : (s.cursorAfter i).elapsed = s.elapsed := rfl
@[simp] theorem State.cursorAfter_genVariant (s : State) (i : Nat) : (s.cursorAfter i).genVariant = s.genVariant := rfl
@[simp] theorem State.cursorAfter_genBank (s : State) (i : Nat) : (s.cursorAfter i).genBank = s.genBank := rfl
@[simp] theorem State.cursorAfter_genLen (s : State) (i : Nat) : (s.cursorAfter i).genLen = s.genLen := rfl
@[simp] theorem State.cursorAfter_genCursor (s : State) (i : Nat) : (s.cursorAfter i).genCursor = BitVec.ofNat 16 ((i + 1) % s.genLen.toNat) := rfl
@[simp] theorem State.cursorAfter_tbl (s : State) (i : Nat) : (s.cursorAfter i).tbl = s.tbl := rfl
@[simp] theorem State.cursorAfter_seq0 (s : State) (i : Nat) : (s.cursorAfter i).seq0 = s.seq0 := rfl
@[simp] theorem State.cursorAfter_seq1 (s : State) (i : Nat) : (s.cursorAfter i).seq1 = s.seq1 := rfl
@[simp] theorem State.cursorAfter_pending (s : State) (i : Nat) : (s.cursorAfter i).pending = s.pending := rfl
@[simp] theorem State.cursorAfter_responses (s : State) (i : Nat) : (s.cursorAfter i).responses = s.responses := rfl
@[simp] theorem State.cursorAfter_notes (s : State) (i : Nat) : (s.cursorAfter i).notes = s.notes := rfl
@[simp] theorem State.cursorAfter_draws (s : State) (i : Nat) : (s.cursorAfter i).draws = s.draws := rfl
@[simp] theorem State.cursorAfter_drawPos (s : State) (i : Nat) : (s.cursorAfter i).drawPos = s.drawPos := rfl

/-! ### `State.supply` -/

@[simp] theorem State.supply_params (s : State) (n : Nat) : (s.supply n).params = s.params := rfl
@[simp] theorem State.supply_seqMode (s : State) (n : Nat) : (s.supply n).seqMode = s.seqMode := rfl
@[simp] theorem State.supply_faulted (s : State) (n : Nat) : (s.supply n).faulted = s.faulted := rfl
@[simp] theorem State.supply_faultCause (s : State) (n : Nat) : (s.supply n).faultCause = s.faultCause := rfl
@[simp] theorem State.supply_tblValid (s : State) (n : Nat) : (s.supply n).tblValid = s.tblValid := rfl
@[simp] theorem State.supply_tblSize (s : State) (n : Nat) : (s.supply n).tblSize = s.tblSize := rfl
@[simp] theorem State.supply_tblHarm (s : State) (n : Nat) : (s.supply n).tblHarm = s.tblHarm := rfl
@[simp] theorem State.supply_oscIndex (s : State) (n : Nat) : (s.supply n).oscIndex = s.oscIndex := rfl
@[simp] theorem State.supply_oscDelta (s : State) (n : Nat) : (s.supply n).oscDelta = s.oscDelta := rfl
@[simp] theorem State.supply_oscAmp (s : State) (n : Nat) : (s.supply n).oscAmp = s.oscAmp := rfl
@[simp] theorem State.supply_oscFreq (s : State) (n : Nat) : (s.supply n).oscFreq = s.oscFreq := rfl
@[simp] theorem State.supply_prepared (s : State) (n : Nat) : (s.supply n).prepared = s.prepared := rfl
@[simp] theorem State.supply_sr (s : State) (n : Nat) : (s.supply n).sr = s.sr := rfl
@[simp] theorem State.supply_spb (s : State) (n : Nat) : (s.supply n).spb = s.spb := rfl
@[simp] theorem State.supply_tempoValid (s : State) (n : Nat) : (s.supply n).tempoValid = s.tempoValid := rfl
@[simp] theorem State.supply_spn (s : State) (n : Nat) : (s.supply n).spn = s.spn := rfl
@[simp] theorem State.supply_elapsed (s : State) (n : Nat) : (s.supply n).elapsed = s.elapsed := rfl
@[simp] theorem State.supply_genVariant (s : State) (n : Nat) : (s.supply n).genVariant = s.genVariant := rfl
@[simp] theorem State.supply_genBank (s : State) (n : Nat) : (s.supply n).genBank = s.genBank := rfl
@[simp] theorem State.supply_genLen (s : State) (n : Nat) : (s.supply n).genLen = s.genLen := rfl
@[simp] theorem State.supply_genCursor (s : State) (n : Nat) : (s.supply n).genCursor = s.genCursor := rfl
@[simp] theorem State.supply_tbl (s : State) (n : Nat) : (s.supply n).tbl = s.tbl := rfl
@[simp] theorem State.supply_seq0 (s : State) (n : Nat) : (s.supply n).seq0 = s.seq0 := rfl
@[simp] theorem State.supply_seq1 (s : State) (n : Nat) : (s.supply n).seq1 = s.seq1 := rfl
@[simp] theorem State.supply_pending (s : State) (n : Nat) : (s.supply n).pending = s.pending := rfl
@[simp] theorem State.supply_responses (s : State) (n : Nat) : (s.supply n).responses = s.responses := rfl
@[simp] theorem State.supply_notes (s : State) (n : Nat) : (s.supply n).notes = s.notes := rfl
@[simp] theorem State.supply_draws (s : State) (n : Nat) : (s.supply n).draws = s.draws ++ [n] := rfl
@[simp] theorem State.supply_drawPos (s : State) (n : Nat) : (s.supply n).drawPos = s.drawPos := rfl

/-! ### `State.dequeue` -/

@[simp] theorem State.dequeue_params (s : State) : s.dequeue.params = s.params := rfl
@[simp] theorem State.dequeue_seqMode (s : State) : s.dequeue.seqMode = s.seqMode := rfl
@[simp] theorem State.dequeue_faulted (s : State) : s.dequeue.faulted = s.faulted := rfl
@[simp] theorem State.dequeue_faultCause (s : State) : s.dequeue.faultCause = s.faultCause := rfl
@[simp] theorem State.dequeue_tblValid (s : State) : s.dequeue.tblValid = s.tblValid := rfl
@[simp] theorem State.dequeue_tblSize (s : State) : s.dequeue.tblSize = s.tblSize := rfl
@[simp] theorem State.dequeue_tblHarm (s : State) : s.dequeue.tblHarm = s.tblHarm := rfl
@[simp] theorem State.dequeue_oscIndex (s : State) : s.dequeue.oscIndex = s.oscIndex := rfl
@[simp] theorem State.dequeue_oscDelta (s : State) : s.dequeue.oscDelta = s.oscDelta := rfl
@[simp] theorem State.dequeue_oscAmp (s : State) : s.dequeue.oscAmp = s.oscAmp := rfl
@[simp] theorem State.dequeue_oscFreq (s : State) : s.dequeue.oscFreq = s.oscFreq := rfl
@[simp] theorem State.dequeue_prepared (s : State) : s.dequeue.prepared = s.prepared := rfl
@[simp] theorem State.dequeue_sr (s : State) : s.dequeue.sr = s.sr := rfl
@[simp] theorem State.dequeue_spb (s : State) : s.dequeue.spb = s.spb := rfl
@[simp] theorem State.dequeue_tempoValid (s : State) : s.dequeue.tempoValid = s.tempoValid := rfl
@[simp] theorem State.dequeue_spn (s : State) : s.dequeue.spn = s.spn := rfl
@[simp] theorem State.dequeue_elapsed (s : State) : s.dequeue.elapsed = s.elapsed := rfl
@[simp] theorem State.dequeue_genVariant (s : State) : s.dequeue.genVariant = s.genVariant := rfl
@[simp] theorem State.dequeue_genBank (s : State) : s.dequeue.genBank = s.genBank := rfl
@[simp] theorem State.dequeue_genLen (s : State) : s.dequeue.genLen = s.genLen := rfl
@[simp] theorem State.dequeue_genCursor (s : State) : s.dequeue.genCursor = s.genCursor := rfl
@[simp] theorem State.dequeue_tbl (s : State) : s.dequeue.tbl = s.tbl := rfl
@[simp] theorem State.dequeue_seq0 (s : State) : s.dequeue.seq0 = s.seq0 := rfl
@[simp] theorem State.dequeue_seq1 (s : State) : s.dequeue.seq1 = s.seq1 := rfl
@[simp] theorem State.dequeue_pending (s : State) : s.dequeue.pending = s.pending.tail := rfl
@[simp] theorem State.dequeue_responses (s : State) : s.dequeue.responses = s.responses := rfl
@[simp] theorem State.dequeue_notes (s : State) : s.dequeue.notes = s.notes := rfl
@[simp] theorem State.dequeue_draws (s : State) : s.dequeue.draws = s.draws := rfl
@[simp] theorem State.dequeue_drawPos (s : State) : s.dequeue.drawPos = s.drawPos := rfl

/-! ### `State.recomputeDelta`: only `osc_delta` can change -/

@[simp] theorem State.recomputeDelta_params (s : State) : s.recomputeDelta.params = s.params := by
  unfold State.recomputeDelta; split <;> rfl
@[simp] theorem State.recomputeDelta_seqMode (s : State) : s.recomputeDelta.seqMode = s.seqMode := by
  unfold State.recomputeDelta; split <;> rfl
@[simp] theorem State.recomputeDelta_faulted (s : State) : s.recomputeDelta.faulted = s.faulted := by
  unfold State.recomputeDelta; split <;> rfl
@[simp] theorem State.recomputeDelta_faultCause (s : State) : s.recomputeDelta.faultCause = s.faultCause := by
  unfold State.recomputeDelta; split <;> rfl
@[simp] theorem State.recomputeDelta_tblValid (s : State) : s.recomputeDelta.tblValid = s.tblValid := by
  unfold State.recomputeDelta; split <;> rfl
@[simp] theorem State.recomputeDelta_tblSize (s : State) : s.recomputeDelta.tblSize = s.tblSize := by
  unfold State.recomputeDelta; split <;> rfl
@[simp] theorem State.recomputeDelta_tblHarm (s : State) : s.recomputeDelta.tblHarm = s.tblHarm := by
  unfold State.recomputeDelta; split <;> rfl
@[simp] theorem State.recomputeDelta_oscIndex (s : State) : s.recomputeDelta.oscIndex = s.oscIndex := by
  unfold State.recomputeDelta; split <;> rfl
theorem State.recomputeDelta_oscDelta (s : State) : s.recomputeDelta.oscDelta =
    if s.tblValid && s.prepared then fdiv (fmul s.oscFreq (toF32 s.tblSize.toNat)) s.sr else s.oscDelta := by
  unfold State.recomputeDelta; split <;> rfl
@[simp] theorem State.recomputeDelta_oscAmp (s : State) : s.recomputeDelta.oscAmp = s.oscAmp := by
  unfold State.recomputeDelta; split <;> rfl
@[simp] theorem State.recomputeDelta_oscFreq (s : State) : s.recomputeDelta.oscFreq = s.oscFreq := by
  unfold State.recomputeDelta; split <;> rfl
@[simp] theorem State.recomputeDelta_prepared (s : State) : s.recomputeDelta.prepared = s.prepared := by
  unfold State.recomputeDelta; split <;> rfl
@[simp] theorem State.recomputeDelta_sr (s : State) : s.recomputeDelta.sr = s.sr := by
  unfold State.recomputeDelta; split <;> rfl
@[simp] theorem State.recomputeDelta_spb (s : State) : s.recomputeDelta.spb = s.spb := by
  unfold State.recomputeDelta; split <;> rfl
@[simp] theorem State.recomputeDelta_tempoValid (s : State) : s.recomputeDelta.tempoValid = s.tempoValid := by
  unfold State.recomputeDelta; split <;> rfl
@[simp] theorem State.recomputeDelta_spn (s : State) : s.recomputeDelta.spn = s.spn := by
  unfold State.recomputeDelta; split <;> rfl
@[simp] theorem State.recomputeDelta_elapsed (s : State) : s.recomputeDelta.elapsed = s.elapsed := by
  unfold State.recomputeDelta; split <;> rfl
@[simp] theorem State.recomputeDelta_genVariant (s : State) : s.recomputeDelta.genVariant = s.genVariant := by
  unfold State.recomputeDelta; split <;> rfl
@[simp] theorem State.recomputeDelta_genBank (s : State) : s.recomputeDelta.genBank = s.genBank := by
  unfold State.recomputeDelta; split <;> rfl
@[simp] theorem State.recomputeDelta_genLen (s : State) : s.recomputeDelta.genLen = s.genLen := by
  unfold State.recomputeDelta; split <;> rfl
@[simp] theorem State.recomputeDelta_genCursor (s : State) : s.recomputeDelta.genCursor = s.genCursor := by
  unfold State.recomputeDelta; split <;> rfl
@[simp] theorem State.recomputeDelta_tbl (s : State) : s.recomputeDelta.tbl = s.tbl := by
  unfold State.recomputeDelta; split <;> rfl
@[simp] theorem State.recomputeDelta_seq0 (s : State) : s.recomputeDelta.seq0 = s.seq0 := by
  unfold State.recomputeDelta; split <;> rfl
@[simp] theorem State.recomputeDelta_seq1 (s : State) : s.recomputeDelta.seq1 = s.seq1 := by
  unfold State.recomputeDelta; split <;> rfl
@[simp] theorem State.recomputeDelta_pending (s : State) : s.recomputeDelta.pending = s.pending := by
  unfold State.recomputeDelta; split <;> rfl
@[simp] theorem State.recomputeDelta_responses (s : State) : s.recomputeDelta.responses = s.responses := by
  unfold State.recomputeDelta; split <;> rfl
@[simp] theorem State.recomputeDelta_notes (s : State) : s.recomputeDelta.notes = s.notes := by
  unfold State.recomputeDelta; split <;> rfl
@[simp] theorem State.recomputeDelta_draws (s : State) : s.recomputeDelta.draws = s.draws := by
  unfold State.recomputeDelta; split <;> rfl
@[simp] theorem State.recomputeDelta_drawPos (s : State) : s.recomputeDelta.drawPos = s.drawPos := by
  unfold State.recomputeDelta; split <;> rfl

/-! ### `State.setBank`: only the named bank changes -/

@[simp] theorem State.setBank_params (s : State) (b : Bool) (m : WordMem) : (s.setBank b m).params = s.params := by
  cases b <;> rfl
@[simp] theorem State.setBank_seqMode (s : State) (b : Bool) (m : WordMem) : (s.setBank b m).seqMode = s.seqMode := by
  cases b <;> rfl
@[simp] theorem State.setBank_faulted (s : State) (b : Bool) (m : WordMem) : (s.setBank b m).faulted = s.faulted := by
  cases b <;> rfl
@[simp] theorem State.setBank_faultCause (s : State) (b : Bool) (m : WordMem) : (s.setBank b m).faultCause = s.faultCause := by
  cases b <;> rfl
@[simp] theorem State.setBank_tblValid (s : State) (b : Bool) (m : WordMem) : (s.setBank b m).tblValid = s.tblValid := by
  cases b <;> rfl
@[simp] theorem State.setBank_tblSize (s : State) (b : Bool) (m : WordMem) : (s.setBank b m).tblSize = s.tblSize := by
  cases b <;> rfl
@[simp] theorem State.setBank_tblHarm (s : State) (b : Bool) (m : WordMem) : (s.setBank b m).tblHarm = s.tblHarm := by
  cases b <;> rfl
@[simp] theorem State.setBank_oscIndex (s : State) (b : Bool) (m : WordMem) : (s.setBank b m).oscIndex = s.oscIndex := by
  cases b <;> rfl
@[simp] theorem State.setBank_oscDelta (s : State) (b : Bool) (m : WordMem) : (s.setBank b m).oscDelta = s.oscDelta := by
  cases b <;> rfl
@[simp] theorem State.setBank_oscAmp (s : State) (b : Bool) (m : WordMem) : (s.setBank b m).oscAmp = s.oscAmp := by
  cases b <;> rfl
@[simp] theorem State.setBank_oscFreq (s : State) (b : Bool) (m : WordMem) : (s.setBank b m).oscFreq = s.oscFreq := by
  cases b <;> rfl
@[simp] theorem State.setBank_prepared (s : State) (b : Bool) (m : WordMem) : (s.setBank b m).prepared = s.prepared := by
  cases b <;> rfl
@[simp] theorem State.setBank_sr (s : State) (b : Bool) (m : WordMem) : (s.setBank b m).sr = s.sr := by
  cases b <;> rfl
@[simp] theorem State.setBank_spb (s : State) (b : Bool) (m : WordMem) : (s.setBank b m).spb = s.spb := by
  cases b <;> rfl
@[simp] theorem State.setBank_tempoValid (s : State) (b : Bool) (m : WordMem) : (s.setBank b m).tempoValid = s.tempoValid := by
  cases b <;> rfl
@[simp] theorem State.setBank_spn (s : State) (b : Bool) (m : WordMem) : (s.setBank b m).spn = s.spn := by
  cases b <;> rfl
@[simp] theorem State.setBank_elapsed (s : State) (b : Bool) (m : WordMem) : (s.setBank b m).elapsed = s.elapsed := by
  cases b <;> rfl
@[simp] theorem State.setBank_genVariant (s : State) (b : Bool) (m : WordMem) : (s.setBank b m).genVariant = s.genVariant := by
  cases b <;> rfl
@[simp] theorem State.setBank_genBank (s : State) (b : Bool) (m : WordMem) : (s.setBank b m).genBank = s.genBank := by
  cases b <;> rfl
@[simp] theorem State.setBank_genLen (s : State) (b : Bool) (m : WordMem) : (s.setBank b m).genLen = s.genLen := by
  cases b <;> rfl
@[simp] theorem State.setBank_genCursor (s : State) (b : Bool) (m : WordMem) : (s.setBank b m).genCursor = s.genCursor := by
  cases b <;> rfl
@[simp] theorem State.setBank_tbl (s : State) (b : Bool) (m : WordMem) : (s.setBank b m).tbl = s.tbl := by
  cases b <;> rfl
@[simp] theorem State.setBank_pending (s : State) (b : Bool) (m : WordMem) : (s.setBank b m).pending = s.pending := by
  cases b <;> rfl
@[simp] theorem State.setBank_responses (s : State) (b : Bool) (m : WordMem) : (s.setBank b m).responses = s.responses := by
  cases b <;> rfl
@[simp] theorem State.setBank_notes (s : State) (b : Bool) (m : WordMem) : (s.setBank b m).notes = s.notes := by
  cases b <;> rfl
@[simp] theorem State.setBank_draws (s : State) (b : Bool) (m : WordMem) : (s.setBank b m).draws = s.draws := by
  cases b <;> rfl
@[simp] theorem State.setBank_drawPos (s : State) (b : Bool) (m : WordMem) : (s.setBank b m).drawPos = s.drawPos := by
  cases b <;> rfl
@[simp] theorem State.setBank_bank_self (s : State) (b : Bool) (m : WordMem) : (s.setBank b m).bank b = m := by
  cases b <;> rfl
@[simp] theorem State.setBank_bank_other (s : State) (b : Bool) (m : WordMem) :
    (s.setBank (!b) m).bank b = s.bank b := by
  cases b <;> rfl

end Sys2Proof.Machine
end

