-- ==== Sys2Proof/Laws/Ops.lean ====
section
/-!
SUPPORT. One spec lemma for each shared operation: what it answers, and when.
-/

namespace Sys2Proof.Machine

/-! ### Computations that may meet no meaning -/

theorem except_bind_ok {ε α β : Type} {x : Except ε α} {f : α → Except ε β} {r : β} :
    (x >>= f) = .ok r ↔ ∃ a, x = .ok a ∧ f a = .ok r := by
  cases x <;> simp [bind, Except.bind]

theorem except_pure_ok {ε α : Type} {a r : α} : (pure a : Except ε α) = .ok r ↔ a = r := by
  simp [pure, Except.pure]

theorem outcomeOf_next {x : Except Fault State} {t : State} : outcomeOf x = .next t ↔ x = .ok t := by
  cases x <;> simp [outcomeOf]

theorem outcomeOf_ok {x : Except Fault State} {t : State} (h : x = .ok t) : outcomeOf x = .next t :=
  outcomeOf_next.2 h

theorem domain_ok {x y : F32} : domain x = .ok y ↔ inDomain x = true ∧ x = y := by
  unfold domain; split <;> simp_all

/-! ### Reading the memories -/

theorem State.tblRead_ok {s : State} {i : Nat} {v : Word} :
    s.tblRead i = .ok v ↔ s.tblValid = true ∧ i ≤ s.tblSize.toNat ∧ memRead s.tbl i = some v := by
  unfold State.tblRead
  split
  · next h =>
    simp only [Bool.and_eq_true, decide_eq_true_eq] at h
    split <;> simp_all
  · next h =>
    simp only [Bool.and_eq_true, decide_eq_true_eq] at h
    simp only [reduceCtorEq, false_iff]
    exact fun h' => h ⟨h'.1, h'.2.1⟩

theorem State.seqRead_ok {s : State} {i : Nat} {v : Word} :
    s.seqRead i = .ok v ↔ i < s.genLen.toNat ∧ memRead (s.bank s.genBank) i = some v := by
  unfold State.seqRead
  split
  · split <;> simp_all
  · simp_all

/-! ### The fault gate -/

theorem State.gated_faulted {s : State} (h : s.faulted = true) (k : Result) :
    s.gated k = .next (s.respond .control .faulted []) := by
  simp [State.gated, State.answer, h]

theorem State.gated_sound {s : State} (h : s.faulted = false) (k : Result) : s.gated k = k := by
  simp [State.gated, h]

/-- What a gated command can do: answer FAULTED, or what its own checks and effect give. -/
theorem State.gated_next {s t : State} {k : Result} (h : s.gated k = .next t) :
    (s.faulted = true ∧ t = s.respond .control .faulted []) ∨ (s.faulted = false ∧ k = .next t) := by
  cases hf : s.faulted with
  | true => rw [State.gated_faulted hf] at h; cases h; exact .inl ⟨rfl, rfl⟩
  | false => rw [State.gated_sound hf] at h; exact .inr ⟨rfl, h⟩

/-! ### Draws (42 R73) -/

theorem drawJOf_lt {n len : Nat} (h : 0 < len) : drawJOf n len < len := Nat.mod_lt _ h

/-! ### The oscillator -/

theorem State.interp_ok {s : State} {x y : F32} :
    s.interp x = .ok y ↔ inDomain x = true ∧ ∃ v0 v1, s.tblRead (floorNat x) = .ok v0 ∧
      s.tblRead (floorNat x + 1) = .ok v1 ∧
      y = fadd v0 (fmul (fsub x (toF32 (floorNat x))) (fsub v1 v0)) := by
  unfold State.interp
  simp only [except_bind_ok, except_pure_ok, domain_ok]
  constructor
  · rintro ⟨_, ⟨hd, rfl⟩, v0, h0, v1, h1, rfl⟩; exact ⟨hd, v0, v1, h0, h1, rfl⟩
  · rintro ⟨hd, v0, v1, h0, h1, rfl⟩; exact ⟨x, ⟨hd, rfl⟩, v0, h0, v1, h1, rfl⟩

theorem State.oscStep_ok {s t : State} {y : F32} :
    s.oscStep = .ok (y, t) ↔ ∃ v, s.interp s.oscIndex = .ok v ∧ y = fmul s.oscAmp v ∧
      t = { s with oscIndex := phaseAfter (fadd s.oscIndex s.oscDelta) s.tblSize.toNat } := by
  unfold State.oscStep
  simp only [except_bind_ok, except_pure_ok, Prod.mk.injEq]
  constructor
  · rintro ⟨v, hv, rfl, rfl⟩; exact ⟨v, hv, rfl, rfl⟩
  · rintro ⟨v, hv, rfl, rfl⟩; exact ⟨v, hv, rfl, rfl⟩

theorem State.renderMono_zero (s : State) : State.renderMono 0 s = .ok ([], s) := rfl

theorem State.renderMono_succ_ok {n : Nat} {s t : State} {ys : List F32} :
    State.renderMono (n + 1) s = .ok (ys, t) ↔
      ∃ y u zs, s.oscStep = .ok (y, u) ∧ State.renderMono n u = .ok (zs, t) ∧ ys = y :: zs := by
  rw [State.renderMono]
  simp only [except_bind_ok, except_pure_ok, Prod.mk.injEq, Prod.exists]
  constructor
  · rintro ⟨y, u, h1, zs, t', h2, rfl, rfl⟩; exact ⟨y, u, zs, h1, h2, rfl⟩
  · rintro ⟨y, u, zs, h1, h2, rfl⟩; exact ⟨y, u, h1, zs, t, h2, rfl, rfl⟩

/-- A render gives one sample a frame and changes nothing but the phase. -/
theorem State.renderMono_frame {n : Nat} {s t : State} {ys : List F32} (h : State.renderMono n s = .ok (ys, t)) :
    ys.length = n ∧ t = { s with oscIndex := t.oscIndex } := by
  induction n generalizing s ys with
  | zero => rw [State.renderMono_zero] at h; cases h; exact ⟨rfl, rfl⟩
  | succ n ih =>
    obtain ⟨y, u, zs, h1, h2, rfl⟩ := State.renderMono_succ_ok.1 h
    obtain ⟨v, _, _, rfl⟩ := State.oscStep_ok.1 h1
    obtain ⟨hl, ht⟩ := ih h2
    refine ⟨by simp [hl], ?_⟩
    rw [ht]

theorem State.renderBlock_ok {s t : State} {c n : Nat} {out : List F32} :
    s.renderBlock c n = .ok (out, t) ↔
      ∃ mono, State.renderMono n s = .ok (mono, t) ∧ out = planar c mono := by
  unfold State.renderBlock
  simp only [except_bind_ok, except_pure_ok, Prod.mk.injEq, Prod.exists]
  constructor
  · rintro ⟨mono, u, h, rfl, rfl⟩; exact ⟨mono, h, rfl⟩
  · rintro ⟨mono, h, rfl⟩; exact ⟨mono, t, h, rfl, rfl⟩

theorem length_planar (c : Nat) (mono : List F32) : (planar c mono).length = c * mono.length := by
  simp [planar]

/-- A render depends only on the table, the phase, the increment and the amplitude. -/
theorem State.renderMono_congr {n : Nat} {s s' t : State} {ys : List F32}
    (hv : s'.tblValid = s.tblValid) (hn : s'.tblSize = s.tblSize) (ht : s'.tbl = s.tbl)
    (hi : s'.oscIndex = s.oscIndex) (hd : s'.oscDelta = s.oscDelta) (ha : s'.oscAmp = s.oscAmp)
    (h : State.renderMono n s = .ok (ys, t)) :
    State.renderMono n s' = .ok (ys, { s' with oscIndex := t.oscIndex }) := by
  induction n generalizing s s' ys with
  | zero => rw [State.renderMono_zero] at h ⊢; cases h; rw [← hi]
  | succ n ih =>
    obtain ⟨y, u, zs, h1, h2, rfl⟩ := State.renderMono_succ_ok.1 h
    obtain ⟨v, hint, rfl, rfl⟩ := State.oscStep_ok.1 h1
    have hread : ∀ i, s'.tblRead i = s.tblRead i := by
      intro i; simp only [State.tblRead, hv, hn, ht]
    have hint' : s'.interp s'.oscIndex = .ok v := by
      rw [← hint, hi]; simp only [State.interp, hread]
    refine State.renderMono_succ_ok.2
      ⟨_, { s' with oscIndex := phaseAfter (fadd s'.oscIndex s'.oscDelta) s'.tblSize.toNat }, zs,
        State.oscStep_ok.2 ⟨v, hint', by rw [ha], rfl⟩, ?_, rfl⟩
    have := ih (s := { s with oscIndex := phaseAfter (fadd s.oscIndex s.oscDelta) s.tblSize.toNat })
      (s' := { s' with oscIndex := phaseAfter (fadd s'.oscIndex s'.oscDelta) s'.tblSize.toNat })
      hv hn ht (by simp only [hi, hd, hn]) hd ha h2
    rw [this]

/-! ### Frequency sources -/

theorem State.nextFrequency_ok {s t : State} {idx : Nat} {f : F32} :
    s.nextFrequency = .ok (idx, f, t) ↔
      s.nextIndex.1 = idx ∧ s.seqRead idx = .ok f ∧ t = s.nextIndex.2.cursorAfter idx := by
  unfold State.nextFrequency
  simp only [except_bind_ok, except_pure_ok, Prod.mk.injEq]
  constructor
  · rintro ⟨f', h, rfl, rfl, rfl⟩; exact ⟨rfl, h, rfl⟩
  · rintro ⟨rfl, h, rfl⟩; exact ⟨f, h, rfl, rfl, rfl⟩

/-- Choosing an index consumes draws and changes nothing else. -/
theorem State.nextIndex_frame (s : State) :
    s.nextIndex.2 = { s with draws := s.nextIndex.2.draws, drawPos := s.nextIndex.2.drawPos } := by
  unfold State.nextIndex State.randomIndex
  split
  · rfl
  · split <;> rfl

/-- The index chosen lies in the sequence, while the cursor does. -/
theorem State.nextIndex_lt {s : State} (h : s.genCursor.toNat < s.genLen.toNat) : s.nextIndex.1 < s.genLen.toNat := by
  unfold State.nextIndex State.randomIndex
  split
  · exact h
  · split
    · exact h
    · exact drawJOf_lt (by omega)

theorem loadEntries_length {k : EntryKind} {ws : List Word} {hz : List F32} (h : loadEntries k ws = some hz) :
    hz.length = ws.length := by
  induction ws generalizing hz with
  | nil => simp [loadEntries] at h; simp [h]
  | cons w ws ih =>
    unfold loadEntries at h
    split at h
    · simp at h
    · obtain ⟨vs, hvs, rfl⟩ := Option.map_eq_some_iff.1 h
      simp [ih hvs]

/-- Loading succeeds exactly when every entry is good, and gives the entries' frequencies. -/
theorem loadEntries_some {k : EntryKind} {ws : List Word} {hz : List F32} :
    loadEntries k ws = some hz ↔ ws.map (loadEntry k) = hz.map some := by
  induction ws generalizing hz with
  | nil => cases hz <;> simp [loadEntries]
  | cons w ws ih =>
    unfold loadEntries
    split
    · next h => cases hz <;> simp [h]
    · next v h =>
      cases hz with
      | nil => simp
      | cons x xs => simp [h, ih, and_comm]

theorem loadEntries_none {k : EntryKind} {ws : List Word} :
    loadEntries k ws = none ↔ ∃ w ∈ ws, loadEntry k w = none := by
  induction ws with
  | nil => simp [loadEntries]
  | cons w ws ih =>
    unfold loadEntries
    split
    · next h => simp [h]
    · next v h => simp [h, ih]

/-! ### The sequencer -/

theorem State.noteBoundary_ok {s t : State} :
    s.noteBoundary = .ok t ↔ ∃ idx f s1, s.nextFrequency = .ok (idx, f, s1) ∧
      t = State.emitNote { State.recomputeDelta { s1 with oscFreq := f } with elapsed := 0#64 } idx f := by
  unfold State.noteBoundary
  simp only [except_bind_ok, except_pure_ok, Prod.exists]
  constructor
  · rintro ⟨idx, f, s1, h, rfl⟩; exact ⟨idx, f, s1, h, rfl⟩
  · rintro ⟨idx, f, s1, h, rfl⟩; exact ⟨idx, f, s1, h, rfl⟩

theorem State.runBlock_ok {s t : State} {c : BitVec 16} {b : Word} :
    s.runBlock c b = .ok t ↔ ∃ s1 mono s2, s.boundaryCheck = .ok s1 ∧
      State.renderMono b.toNat s1 = .ok (mono, s2) ∧
      t = State.respond { s2 with elapsed := s2.elapsed + b.zeroExtend 64 } .audio .ok (planar c.toNat mono) := by
  unfold State.runBlock
  simp only [except_bind_ok, except_pure_ok, Prod.exists, State.renderBlock_ok, u32Operand]
  constructor
  · rintro ⟨s1, h1, out, s2, ⟨mono, h2, rfl⟩, rfl⟩; exact ⟨s1, mono, s2, h1, h2, rfl⟩
  · rintro ⟨s1, mono, s2, h1, h2, rfl⟩; exact ⟨s1, h1, _, s2, ⟨mono, h2, rfl⟩, rfl⟩

/-- The shape check as numbers (60 R89, BAD_SHAPE). -/
theorem State.shapeOk_iff {s : State} {c : BitVec 16} {b : Word} :
    s.shapeOk c b = true ↔ 1 ≤ c.toNat ∧ c.toNat ≤ s.params.channelsMax ∧ b.toNat ≤ s.params.blockMax := by
  simp only [State.shapeOk, Bool.and_eq_true, decide_eq_true_eq, and_assoc]
  exact Iff.rfl

theorem State.runningCause_none {s : State} {b : Word} :
    s.runningCause b = none ↔ s.tblValid = true ∧ s.prepared = true ∧ s.tempoValid = true ∧
      b.toNat ≤ s.spb.toNat := by
  unfold State.runningCause u32Operand
  cases s.tblValid <;> cases s.prepared <;> cases s.tempoValid <;> simp

/-- Everything a FILL_BLOCK can do (43 R78). -/
theorem execFillBlock_next {c : BitVec 16} {b : Word} {s t : State} (h : execFillBlock c b s = .next t) :
    (s.faulted = true ∧ t = s.respond .audio .faulted (s.faultedBuffer c b)) ∨
    (s.faulted = false ∧ s.shapeOk c b = false ∧ t = s.raiseFatal .badShape []) ∨
    (s.faulted = false ∧ s.shapeOk c b = true ∧ s.seqMode = .idle ∧ t = s.respond .audio .ok (silence c b)) ∨
    (∃ cause, s.faulted = false ∧ s.shapeOk c b = true ∧ s.seqMode = .running ∧ s.runningCause b = some cause ∧
      t = s.raiseFatal cause (silence c b)) ∨
    (s.faulted = false ∧ s.shapeOk c b = true ∧ s.seqMode = .running ∧ s.runningCause b = none ∧
      s.runBlock c b = .ok t) := by
  unfold execFillBlock at h
  split at h
  · next hf => cases h; exact .inl ⟨hf, rfl⟩
  next hf =>
  replace hf : s.faulted = false := by simpa using hf
  split at h
  · next hs => cases h; exact .inr (.inl ⟨hf, by simpa using hs, rfl⟩)
  next hs =>
  replace hs : s.shapeOk c b = true := by simpa using hs
  split at h
  · next hm => cases h; exact .inr (.inr (.inl ⟨hf, hs, hm, rfl⟩))
  next hm =>
  split at h
  · next cause hc => cases h; exact .inr (.inr (.inr (.inl ⟨cause, hf, hs, hm, hc, rfl⟩)))
  next hc => exact .inr (.inr (.inr (.inr ⟨hf, hs, hm, hc, outcomeOf_next.1 h⟩)))

/-! ### Steps -/

theorem step_nil {s : State} (h : s.pending = []) : step s = .next s := by simp [step, h]

theorem step_cons {s : State} {e : Event} {rest : List Event} (h : s.pending = e :: rest) :
    step s = runEvent e { s with pending := rest } := by
  simp [step, h, State.dequeue]

end Sys2Proof.Machine
end

