-- ==== Sys2Proof/Laws/Range.lean ====
section
/-!
SUPPORT. Ranges of binary32 results: values that are exactly representable, values of at least zero with an upper bound, and
the bounds that the oscillator's increment and phase need (10 R18, R19).
-/

namespace Sys2Proof.Machine

theorem units_infMag : units infMag = 2 ^ 277 := by
  have h : infMag = 254 * 2 ^ 23 + 2 ^ 23 := by decide
  rw [h, units_place (.inr le_rfl) (by norm_num), ← pow_add]

/-- The magnitude of a power of two. -/
theorem units_pow (e : Nat) : units ((e + 1) * 2 ^ 23) = 2 ^ (e + 23) := by
  rw [show (e + 1) * 2 ^ 23 = e * 2 ^ 23 + 2 ^ 23 by ring, units_place (.inr le_rfl) (by norm_num), pow_add]
  ring

theorem units_f32One : units (fmag Config.f32One) = oneUnits := by decide +kernel

/-- A whole number of units with at most 24 significant bits is its own rounding. -/
theorem units_roundMag {k t : Nat} (hk : k < 2 ^ 24) (h : k * 2 ^ t ≤ 2 ^ 277) :
    units (roundMag (k * 2 ^ t) 1) = k * 2 ^ t := by
  obtain ⟨m, hm⟩ : ∃ m, units m = k * 2 ^ t := by
    rcases Nat.eq_zero_or_pos k with rfl | hpos
    · exact ⟨0, by simp⟩
    · have hq : k * 2 ^ t ≠ 0 := (Nat.mul_pos hpos (Nat.two_pow_pos t)).ne'
      by_cases h23 : 2 ^ 23 ≤ k
      · exact ⟨t * 2 ^ 23 + k, units_place (.inr h23) hk.le⟩
      · have hlog : Nat.log2 k < 23 := (Nat.log2_lt (by omega)).2 (by omega)
        by_cases ht : t ≤ 23 - Nat.log2 k
        · refine ⟨k * 2 ^ t, ?_⟩
          have := units_place (t := 0) (k := k * 2 ^ t) (.inl rfl) ?_
          · simpa using this
          · calc k * 2 ^ t ≤ 2 ^ (Nat.log2 k + 1) * 2 ^ (23 - Nat.log2 k) :=
                  Nat.mul_le_mul Nat.lt_log2_self.le (Nat.pow_le_pow_right (by norm_num) ht)
              _ = 2 ^ 24 := by rw [← pow_add]; congr 1; omega
        · refine ⟨(t - (23 - Nat.log2 k)) * 2 ^ 23 + k * 2 ^ (23 - Nat.log2 k), ?_⟩
          rw [units_place]
          · rw [Nat.mul_assoc, ← pow_add]; congr 2; omega
          · right
            calc 2 ^ 23 = 2 ^ Nat.log2 k * 2 ^ (23 - Nat.log2 k) := by rw [← pow_add]; congr 1; omega
              _ ≤ k * 2 ^ (23 - Nat.log2 k) := Nat.mul_le_mul_right _ (Nat.log2_self_le (by omega))
          · calc k * 2 ^ (23 - Nat.log2 k) ≤ 2 ^ (Nat.log2 k + 1) * 2 ^ (23 - Nat.log2 k) :=
                  Nat.mul_le_mul_right _ Nat.lt_log2_self.le
              _ = 2 ^ 24 := by rw [← pow_add]; congr 1; omega
  have hle : m ≤ infMag := by rw [← units_le_units, hm, units_infMag]; exact h
  have := roundMag_exact (d := 1) hle Nat.one_pos
  rw [Nat.mul_one] at this
  rw [← hm, this]

/-- `toF32` on the naturals up to 2^24 is exact (00 R4). -/
theorem toF32_nat {n : Nat} (h : n ≤ 2 ^ 24) :
    ∃ m, toF32 n = fpack false m ∧ m < infMag ∧ units m = n * oneUnits := by
  refine ⟨roundMag (n * oneUnits) 1, ?_, ?_, ?_⟩
  · have h0 : ¬ ((n : Int) < 0) := by omega
    simp [toF32, h0]
  · have : units (roundMag (n * oneUnits) 1) < units infMag := by
      refine lt_of_le_of_lt (units_le_units.2 (roundMag_mono (n2 := 2 ^ 24 * oneUnits) Nat.one_pos Nat.one_pos
        (by simpa using Nat.mul_le_mul_right _ h))) ?_
      have := units_roundMag (k := 1) (t := 173) (by norm_num) (by rw [Nat.one_mul]; exact Nat.pow_le_pow_right (by norm_num) (by norm_num))
      rw [show 2 ^ 24 * oneUnits = 1 * 2 ^ 173 by rw [oneUnits]; norm_num, this, units_infMag, Nat.one_mul]
      exact Nat.pow_lt_pow_right (by norm_num) (by norm_num)
    exact units_lt_units.1 this
  · rcases Nat.lt_or_eq_of_le h with hlt | rfl
    · have hle : n * 2 ^ 149 ≤ 2 ^ 277 := by
        calc n * 2 ^ 149 ≤ 2 ^ 24 * 2 ^ 149 := Nat.mul_le_mul_right _ h
          _ = 2 ^ 173 := by rw [← pow_add]
          _ ≤ 2 ^ 277 := Nat.pow_le_pow_right (by norm_num) (by norm_num)
      exact units_roundMag hlt hle
    · have := units_roundMag (k := 1) (t := 173) (by norm_num) (by rw [Nat.one_mul]; exact Nat.pow_le_pow_right (by norm_num) (by norm_num))
      rw [show 2 ^ 24 * oneUnits = 1 * 2 ^ 173 by rw [oneUnits]; norm_num, this]

theorem fval_toF32_nat {n : Nat} (h : n ≤ 2 ^ 24) : fval (toF32 n) = (n * oneUnits : Nat) := by
  obtain ⟨m, hm, hlt, hu⟩ := toF32_nat h
  rw [hm, fval_fpack (lt_trans hlt infMag_lt), hu]; simp

theorem isFinite_toF32_nat {n : Nat} (h : n ≤ 2 ^ 24) : isFinite (toF32 n) = true := by
  obtain ⟨m, hm, hlt, -⟩ := toF32_nat h
  rw [hm, isFinite_iff, fmag_fpack (lt_trans hlt infMag_lt)]; exact hlt

theorem fsign_toF32_nat {n : Nat} (h : n ≤ 2 ^ 24) : fsign (toF32 n) = false := by
  obtain ⟨m, hm, hlt, -⟩ := toF32_nat h
  rw [hm, fsign_fpack (lt_trans hlt infMag_lt)]

theorem units_toF32_nat {n : Nat} (h : n ≤ 2 ^ 24) : units (fmag (toF32 n)) = n * oneUnits := by
  obtain ⟨m, hm, hlt, hu⟩ := toF32_nat h
  rw [hm, fmag_fpack (lt_trans hlt infMag_lt), hu]

/-- `toF32` on the integers up to 2^24 from zero is exact (00 R4). -/
theorem toF32_int {n : Int} (h : n.natAbs ≤ 2 ^ 24) : isFinite (toF32 n) = true ∧ fval (toF32 n) = n * oneUnits := by
  obtain ⟨m, hm, hmlt, hu⟩ := toF32_nat h
  have hr : roundMag (n.natAbs * oneUnits) 1 = m := by
    have h0 : ¬ ((n.natAbs : Int) < 0) := by omega
    have := congrArg fmag hm
    rw [fmag_fpack (lt_trans hmlt infMag_lt)] at this
    unfold toF32 at this
    rw [fmag_fpack (roundMag_lt _ _)] at this
    rw [Int.natAbs_natCast] at this
    exact this
  unfold toF32
  rw [hr]
  have h31 := lt_trans hmlt infMag_lt
  refine ⟨isFinite_iff.2 (by rw [fmag_fpack h31]; exact hmlt), ?_⟩
  rw [fval_fpack h31, hu]
  by_cases hn : n < 0
  · have e : n = -(n.natAbs : Int) := by omega
    simp only [hn, decide_true, if_true]
    generalize oneUnits = U
    generalize oneUnits = U
    rw [Int.natCast_mul]
    conv_rhs => rw [e]
    exact (Int.neg_mul _ _).symm
  · simp only [hn, decide_false, Bool.false_eq_true, if_false]
    have e : n = (n.natAbs : Int) := by omega
    generalize oneUnits = U
    rw [Int.natCast_mul]
    conv_rhs => rw [e]

/-! ### Values of at least zero, up to a bound -/

/-- The value is a zero or positive, and its magnitude is at most `m`. -/
def AtMost (m : Nat) (x : F32) : Prop := fmag x ≤ m ∧ (fsign x = true → fmag x = 0)

theorem AtMost.isFinite {m : Nat} {x : F32} (h : AtMost m x) (hm : m < infMag) : isFinite x = true := by
  rw [isFinite_iff]; exact lt_of_le_of_lt h.1 hm

theorem AtMost.fval_eq {m : Nat} {x : F32} (h : AtMost m x) : fval x = units (fmag x) := by
  unfold fval
  split
  · next hs => rw [h.2 hs]; simp
  · rfl

theorem AtMost.nonneg {m : Nat} {x : F32} (h : AtMost m x) : 0 ≤ fval x := by
  rw [h.fval_eq]; exact Int.natCast_nonneg _

theorem AtMost.fval_le {m : Nat} {x : F32} (h : AtMost m x) : fval x ≤ units m := by
  rw [h.fval_eq]; exact_mod_cast units_le_units.2 h.1

theorem AtMost.mono {m n : Nat} {x : F32} (h : AtMost m x) (hmn : m ≤ n) : AtMost n x := ⟨le_trans h.1 hmn, h.2⟩

theorem atMost_of_nonneg {x : F32} (h : 0 ≤ fval x) : AtMost (fmag x) x := by
  refine ⟨le_rfl, fun hs => ?_⟩
  unfold fval at h
  rw [if_pos hs] at h
  have : units (fmag x) = 0 := by omega
  exact units_inj.1 (by rw [this, units_zero])

theorem atMost_fpack {m k : Nat} {neg : Bool} (hk : k < 2 ^ 31) (h : k ≤ m) (h0 : neg = true → k = 0) :
    AtMost m (fpack neg k) := by
  refine ⟨by rwa [fmag_fpack hk], fun hs => ?_⟩
  rw [fsign_fpack hk] at hs
  rw [fmag_fpack hk]; exact h0 hs

/-- A product of values of at least zero, bounded by a representable value. -/
theorem fmul_atMost {a b : F32} {m n k : Nat} (ha : AtMost m a) (hb : AtMost n b) (hm : m < infMag) (hn : n < infMag)
    (hk : k ≤ infMag) (h : units m * units n ≤ units k * oneUnits) : AtMost k (fmul a b) := by
  rw [fmul_finite (ha.isFinite hm) (hb.isFinite hn)]
  refine atMost_fpack (roundMag_lt _ _) (roundMag_le oneUnits_pos hk
    (le_trans (Nat.mul_le_mul (units_le_units.2 ha.1) (units_le_units.2 hb.1)) h)) fun hs => ?_
  cases hsa : fsign a
  · cases hsb : fsign b
    · simp [hsa, hsb] at hs
    · rw [hb.2 hsb]; simp
  · rw [ha.2 hsa]; simp

/-- A quotient of values of at least zero, bounded by a representable value. -/
theorem fdiv_atMost {a b : F32} {m k l : Nat} (ha : AtMost m a) (hm : m < infMag) (hb : fsign b = false)
    (hbf : isFinite b = true) (hl : l ≤ fmag b) (hl0 : 0 < l) (hk : k ≤ infMag)
    (h : units m * oneUnits ≤ units k * units l) : AtMost k (fdiv a b) := by
  have hb0 : fmag b ≠ 0 := by omega
  rw [fdiv_finite (ha.isFinite hm) hbf hb0]
  refine atMost_fpack (roundMag_lt _ _) (roundMag_le (units_pos.2 (by omega)) hk ?_) fun hs => ?_
  · calc units (fmag a) * oneUnits ≤ units m * oneUnits := Nat.mul_le_mul_right _ (units_le_units.2 ha.1)
      _ ≤ units k * units l := h
      _ ≤ units k * units (fmag b) := Nat.mul_le_mul_left _ (units_le_units.2 hl)
  · rw [hb] at hs
    have : fsign a = true := by simpa using hs
    rw [ha.2 this]; simp

/-- A sum of values of at least zero, the first with the sign bit clear: the sign bit is clear. -/
theorem fadd_atMost {a b : F32} {m n k : Nat} (ha : AtMost m a) (hb : AtMost n b) (hm : m < infMag) (hn : n < infMag)
    (hk : k ≤ infMag) (hs : fsign a = false) (h : units m + units n ≤ units k) :
    fsign (fadd a b) = false ∧ fmag (fadd a b) ≤ k := by
  rw [fadd_finite (ha.isFinite hm) (hb.isFinite hn), hs]
  have hsum : fval a + fval b = ((units (fmag a) + units (fmag b) : Nat) : Int) := by
    rw [ha.fval_eq, hb.fval_eq]; push_cast; ring
  rw [hsum]
  split
  · exact ⟨by rw [fsign_fpack (by norm_num)]; rfl, by rw [fmag_fpack (by norm_num)]; omega⟩
  · have hneg : ¬ (((units (fmag a) + units (fmag b) : Nat) : Int) < 0) := by omega
    rw [Int.natAbs_natCast, fsign_fpack (roundMag_lt _ _), fmag_fpack (roundMag_lt _ _)]
    refine ⟨by simp only [hneg, decide_false], roundMag_le Nat.one_pos hk ?_⟩
    have := units_le_units.2 ha.1
    have := units_le_units.2 hb.1
    omega

/-! ### `wrapN` (00 R7) -/

/-- The exact remainder is representable, so `wrapN` does not round. -/
theorem wrapN_exact {x : F32} {n : Nat} (hn : 1 ≤ n) (hn' : n ≤ 2 ^ 24) (hx : isFinite x = true) :
    fsign (wrapN x n) = false ∧ isFinite (wrapN x n) = true ∧
      units (fmag (wrapN x n)) = units (fmag x) % (n * oneUnits) := by
  have hlt : units (fmag x) % (n * oneUnits) < 2 ^ 277 := by
    refine lt_of_le_of_lt (Nat.mod_le _ _) ?_
    rw [← units_infMag]; exact units_lt_units.2 (isFinite_iff.1 hx)
  have hu : units (roundMag (units (fmag x) % (n * oneUnits)) 1) = units (fmag x) % (n * oneUnits) := by
    obtain ⟨t, k, hk, hk', he⟩ := exists_place (fmag x)
    have hux : units (fmag x) = k * 2 ^ t := by rw [he]; exact units_place hk hk'.le
    rw [hux] at hlt ⊢
    by_cases ht : t ≤ 149
    · have hsplit : n * oneUnits = n * 2 ^ (149 - t) * 2 ^ t := by
        rw [oneUnits, Nat.mul_assoc, ← pow_add, Nat.sub_add_cancel ht]
      rw [hsplit, Nat.mul_mod_mul_right] at hlt ⊢
      exact units_roundMag (lt_of_le_of_lt (Nat.mod_le _ _) hk') hlt.le
    · have hsplit : k * 2 ^ t = k * 2 ^ (t - 149) * oneUnits := by
        rw [oneUnits, Nat.mul_assoc, ← pow_add, Nat.sub_add_cancel (by omega)]
      rw [hsplit, Nat.mul_mod_mul_right] at hlt ⊢
      exact units_roundMag (lt_of_lt_of_le (Nat.mod_lt _ (by omega)) hn') hlt.le
  unfold wrapN
  rw [fsign_fpack (roundMag_lt _ _), isFinite_iff, fmag_fpack (roundMag_lt _ _)]
  refine ⟨rfl, ?_, hu⟩
  rw [← units_lt_units, hu, units_infMag]; exact hlt

end Sys2Proof.Machine
end

