-- ==== Sys2Proof/Laws/Table.lean ====
section
/-!
SUPPORT. Laws of the table generator's arithmetic (41 R58 to R61) and of the two function parameters (00 R9, R10).
-/

namespace Sys2Proof.Machine

set_option Elab.async false

/-! ### Signed bounds -/

/-- Finite, and at most `m` units away from zero. -/
def AbsAtMost (m : Nat) (x : F32) : Prop := fmag x ≤ m

theorem AbsAtMost.isFinite {m : Nat} {x : F32} (h : AbsAtMost m x) (hm : m < infMag) : isFinite x = true :=
  isFinite_iff.2 (lt_of_le_of_lt h hm)

theorem AbsAtMost.natAbs {m : Nat} {x : F32} (h : AbsAtMost m x) : (fval x).natAbs ≤ units m := by
  rw [natAbs_fval]; exact units_le_units.2 h

theorem absAtMost_of_natAbs {m : Nat} {x : F32} (h : (fval x).natAbs ≤ units m) : AbsAtMost m x := by
  rw [natAbs_fval, units_le_units] at h; exact h

/-- A sum bounded by a representable value. -/
theorem fadd_absAtMost {a b : F32} {k : Nat} (ha : isFinite a = true) (hb : isFinite b = true) (hk : k ≤ infMag)
    (h : (fval a + fval b).natAbs ≤ units k) : AbsAtMost k (fadd a b) := by
  rw [fadd_finite ha hb]
  unfold AbsAtMost
  split
  · rw [fmag_fpack (by norm_num)]; omega
  · rw [fmag_fpack (roundMag_lt _ _)]
    exact roundMag_le Nat.one_pos hk (by omega)

/-- A difference bounded by a representable value. -/
theorem fsub_absAtMost {a b : F32} {k : Nat} (ha : isFinite a = true) (hb : isFinite b = true) (hk : k ≤ infMag)
    (h : (fval a - fval b).natAbs ≤ units k) : AbsAtMost k (fsub a b) := by
  rw [fsub_finite ha hb]
  unfold AbsAtMost
  split
  · rw [fmag_fpack (by norm_num)]; omega
  · rw [fmag_fpack (roundMag_lt _ _)]
    exact roundMag_le Nat.one_pos hk (by omega)

/-! ### The range [-1.0, 1.0] -/

/-- The magnitude of 1.0. -/
def oneMag : Nat := 0x3F800000

theorem units_oneMag : units oneMag = oneUnits := by decide +kernel

theorem oneMag_lt : oneMag < infMag := by decide

theorem fval_f32One : fval Config.f32One = oneUnits := by decide +kernel
theorem fval_f32NegOne : fval Config.f32NegOne = -(oneUnits : Int) := by decide +kernel

/-- The range check of 00 R9 (b) as a bound on the magnitude. -/
theorem inUnitRange_iff {v : F32} : inUnitRange v = true ↔ fmag v ≤ oneMag := by
  have h1 : isNaN Config.f32One = false := by decide +kernel
  have h2 : isNaN Config.f32NegOne = false := by decide +kernel
  have key : isNaN v = false → (inUnitRange v = true ↔ (fval v).natAbs ≤ oneUnits) := by
    intro hv
    rw [inUnitRange, Bool.and_eq_true, fle_iff h2 hv, fle_iff hv h1, fval_f32One, fval_f32NegOne]
    omega
  rw [← units_le_units (b := oneMag), units_oneMag, ← natAbs_fval]
  constructor
  · intro h
    have hv : isNaN v = false := (fle_nan (Bool.and_eq_true _ _ ▸ h : _ ∧ _).1).2.1
    exact (key hv).1 h
  · intro h
    refine (key ?_).2 h
    rw [natAbs_fval, ← units_oneMag, units_le_units] at h
    have := oneMag_lt
    simp only [isNaN, decide_eq_false_iff_not]; omega

theorem isFinite_of_inUnitRange {v : F32} (h : inUnitRange v = true) : isFinite v = true :=
  isFinite_iff.2 (lt_of_le_of_lt (inUnitRange_iff.1 h) oneMag_lt)

/-- 00 R9 (b): `SIN_TURN` lies in [-1.0, 1.0]. -/
theorem sinTurn_inUnitRange (k m : Nat) : inUnitRange (sinTurn k m) = true := by
  unfold sinTurn sinTurnWith
  split
  · unfold quarterTurn
    split
    · decide +kernel
    · split <;> decide +kernel
  · split
    · assumption
    · decide +kernel

/-- 00 R9 (a) at the start of the turn. -/
theorem sinTurn_zero (m : Nat) : sinTurn 0 m = 0#32 := by
  simp [sinTurn, sinTurnWith, quarterTurn]

/-! ### The partial sums (41 R59) -/

/-- One term of the sum is at most 1.0 from zero. -/
theorem harmonic_term_bound {x : F32} {h : Nat} (hx : inUnitRange x = true) (hh : 1 ≤ h) (hh' : h ≤ 2 ^ 24) :
    AbsAtMost oneMag (fdiv x (toF32 h)) := by
  have hu := units_toF32_nat hh'
  have hpos : 0 < h * oneUnits := Nat.mul_pos hh oneUnits_pos
  have h0 : fmag (toF32 h) ≠ 0 := by
    intro h0; rw [h0, units_zero] at hu; omega
  rw [fdiv_finite (isFinite_of_inUnitRange hx) (isFinite_toF32_nat hh') h0]
  unfold AbsAtMost
  rw [fmag_fpack (roundMag_lt _ _), hu]
  refine roundMag_le hpos oneMag_lt.le ?_
  have hx' := units_le_units.2 (inUnitRange_iff.1 hx)
  rw [units_oneMag] at hx' ⊢
  calc units (fmag x) * oneUnits ≤ oneUnits * oneUnits := Nat.mul_le_mul_right _ hx'
    _ ≤ oneUnits * (h * oneUnits) := Nat.mul_le_mul_left _ (Nat.le_mul_of_pos_left _ hh)

/-- The sum of `h` harmonics is finite, at most `h` from zero, and never -0.0 (41 R59). -/
theorem partialSum_bound (m i : Nat) {h : Nat} (hh : h ≤ 2 ^ 24) :
    isFinite (partialSum sinTurn m i h) = true ∧ (fval (partialSum sinTurn m i h)).natAbs ≤ h * oneUnits ∧
      partialSum sinTurn m i h ≠ 0x80000000#32 := by
  induction h with
  | zero =>
    refine ⟨?_, ?_, ?_⟩
    · show isFinite 0#32 = true; decide
    · show (fval 0#32).natAbs ≤ _; rw [fval_zero]; exact Nat.zero_le _
    · show (0#32 : F32) ≠ 0x80000000#32; decide
  | succ h ih =>
    obtain ⟨h1, h2, h3⟩ := ih (by omega)
    have ht := harmonic_term_bound (sinTurn_inUnitRange ((h + 1) * i % m) m) (h := h + 1) (by omega) hh
    have htf := ht.isFinite oneMag_lt
    have htn := ht.natAbs
    rw [units_oneMag] at htn
    obtain ⟨k, hk, hklt, hku⟩ := toF32_nat hh
    have hsum : (fval (partialSum sinTurn m i h) +
        fval (fdiv (sinTurn ((h + 1) * i % m) m) (toF32 (h + 1 : Nat)))).natAbs ≤ units k := by
      rw [hku, show (h + 1) * oneUnits = h * oneUnits + oneUnits from Nat.succ_mul h oneUnits]
      exact le_trans (Int.natAbs_add_le _ _) (Nat.add_le_add h2 htn)
    have hb := fadd_absAtMost h1 htf hklt.le hsum
    rw [partialSum]
    refine ⟨hb.isFinite hklt, by rw [← hku]; exact hb.natAbs, ?_⟩
    intro hz
    rw [fadd_finite h1 htf] at hz
    split at hz
    · next h0 =>
      have hsgn := congrArg fsign hz
      rw [fsign_fpack (by norm_num), show fsign 0x80000000#32 = true by decide] at hsgn
      simp only [Bool.and_eq_true] at hsgn
      apply h3
      have e1 : fval (partialSum sinTurn m i h) ≤ 0 := by rw [fval, if_pos hsgn.1]; omega
      have e2 : fval (fdiv (sinTurn ((h + 1) * i % m) m) (toF32 (h + 1 : Nat))) ≤ 0 := by
        rw [fval, if_pos hsgn.2]; omega
      have e3 : fval (partialSum sinTurn m i h) = 0 := by omega
      rw [fval, if_pos hsgn.1] at e3
      have e4 : fmag (partialSum sinTurn m i h) = 0 := units_inj.1 (by rw [units_zero]; omega)
      exact fext (by rw [hsgn.1]; decide) (by rw [e4]; decide)
    · next h0 =>
      have hmag := congrArg fmag hz
      rw [fmag_fpack (roundMag_lt _ _), show fmag 0x80000000#32 = 0 by decide] at hmag
      have h1u : units 1 = 1 := by decide
      have hr : 1 ≤ roundMag (fval (partialSum sinTurn m i h) +
          fval (fdiv (sinTurn ((h + 1) * i % m) m) (toF32 (h + 1 : Nat)))).natAbs 1 :=
        le_roundMag Nat.one_pos (by decide) (by rw [h1u]; omega)
      omega

theorem mem_rawTable {size harmonics : Nat} {x : F32} (h : x ∈ rawTable sinTurn size harmonics) :
    ∃ i, i < size ∧ x = partialSum sinTurn (size - 1) i harmonics := by
  unfold rawTable at h
  obtain ⟨i, hi, rfl⟩ := List.mem_map.1 h
  exact ⟨i, List.mem_range.1 hi, rfl⟩

theorem length_rawTable (sin : Nat → Nat → F32) (size harmonics : Nat) :
    (rawTable sin size harmonics).length = size := by simp [rawTable]

/-! ### Minimum and maximum -/

/-- The minimum of a list of finite values is one of them and below all of them. -/
theorem fminList_spec {l : List F32} (hne : l ≠ []) (hf : ∀ x ∈ l, isFinite x = true) :
    fminList l ∈ l ∧ ∀ x ∈ l, fval (fminList l) ≤ fval x := by
  cases l with
  | nil => exact absurd rfl hne
  | cons a l =>
    have key : ∀ (l : List F32) (a : F32), isFinite a = true → (∀ x ∈ l, isFinite x = true) →
        (l.foldl fmin a = a ∨ l.foldl fmin a ∈ l) ∧ fval (l.foldl fmin a) ≤ fval a ∧
          ∀ x ∈ l, fval (l.foldl fmin a) ≤ fval x := by
      intro l
      induction l with
      | nil => intro a _ _; simp
      | cons b l ih =>
        intro a ha hl
        have hb : isFinite b = true := hl b (by simp)
        have hl' : ∀ x ∈ l, isFinite x = true := fun x hx => hl x (by simp [hx])
        rw [List.foldl_cons]
        have hmin : fmin a b = a ∧ fval a ≤ fval b ∨ fmin a b = b ∧ fval b < fval a := by
          unfold fmin
          split
          · next h => exact .inr ⟨rfl, (flt_iff (not_isNaN_of_isFinite hb) (not_isNaN_of_isFinite ha)).1 h⟩
          · next h =>
            rw [flt_iff (not_isNaN_of_isFinite hb) (not_isNaN_of_isFinite ha)] at h
            exact .inl ⟨rfl, by omega⟩
        rcases hmin with ⟨he, hle⟩ | ⟨he, hlt⟩
        · rw [he]
          obtain ⟨h1, h2, h3⟩ := ih a ha hl'
          refine ⟨h1.imp_right (List.mem_cons_of_mem _), h2, ?_⟩
          intro x hx
          rcases List.mem_cons.1 hx with rfl | hx
          · omega
          · exact h3 x hx
        · rw [he]
          obtain ⟨h1, h2, h3⟩ := ih b hb hl'
          refine ⟨.inr ?_, by omega, ?_⟩
          · rcases h1 with h1 | h1
            · rw [h1]; simp
            · exact List.mem_cons_of_mem _ h1
          · intro x hx
            rcases List.mem_cons.1 hx with rfl | hx
            · exact h2
            · exact h3 x hx
    obtain ⟨h1, h2, h3⟩ := key l a (hf a (by simp)) (fun x hx => hf x (by simp [hx]))
    refine ⟨?_, ?_⟩
    · rcases h1 with h1 | h1
      · rw [fminList, h1]; simp
      · exact List.mem_cons_of_mem _ h1
    · intro x hx
      rcases List.mem_cons.1 hx with rfl | hx
      · exact h2
      · exact h3 x hx

/-- The maximum of a list of finite values is one of them and above all of them. -/
theorem fmaxList_spec {l : List F32} (hne : l ≠ []) (hf : ∀ x ∈ l, isFinite x = true) :
    fmaxList l ∈ l ∧ ∀ x ∈ l, fval x ≤ fval (fmaxList l) := by
  cases l with
  | nil => exact absurd rfl hne
  | cons a l =>
    have key : ∀ (l : List F32) (a : F32), isFinite a = true → (∀ x ∈ l, isFinite x = true) →
        (l.foldl fmax a = a ∨ l.foldl fmax a ∈ l) ∧ fval a ≤ fval (l.foldl fmax a) ∧
          ∀ x ∈ l, fval x ≤ fval (l.foldl fmax a) := by
      intro l
      induction l with
      | nil => intro a _ _; simp
      | cons b l ih =>
        intro a ha hl
        have hb : isFinite b = true := hl b (by simp)
        have hl' : ∀ x ∈ l, isFinite x = true := fun x hx => hl x (by simp [hx])
        rw [List.foldl_cons]
        have hmax : fmax a b = a ∧ fval b ≤ fval a ∨ fmax a b = b ∧ fval a < fval b := by
          unfold fmax
          split
          · next h => exact .inr ⟨rfl, (flt_iff (not_isNaN_of_isFinite ha) (not_isNaN_of_isFinite hb)).1 h⟩
          · next h =>
            rw [flt_iff (not_isNaN_of_isFinite ha) (not_isNaN_of_isFinite hb)] at h
            exact .inl ⟨rfl, by omega⟩
        rcases hmax with ⟨he, hle⟩ | ⟨he, hlt⟩
        · rw [he]
          obtain ⟨h1, h2, h3⟩ := ih a ha hl'
          refine ⟨h1.imp_right (List.mem_cons_of_mem _), h2, ?_⟩
          intro x hx
          rcases List.mem_cons.1 hx with rfl | hx
          · omega
          · exact h3 x hx
        · rw [he]
          obtain ⟨h1, h2, h3⟩ := ih b hb hl'
          refine ⟨.inr ?_, by omega, ?_⟩
          · rcases h1 with h1 | h1
            · rw [h1]; simp
            · exact List.mem_cons_of_mem _ h1
          · intro x hx
            rcases List.mem_cons.1 hx with rfl | hx
            · exact h2
            · exact h3 x hx
    obtain ⟨h1, h2, h3⟩ := key l a (hf a (by simp)) (fun x hx => hf x (by simp [hx]))
    refine ⟨?_, ?_⟩
    · rcases h1 with h1 | h1
      · rw [fmaxList, h1]; simp
      · exact List.mem_cons_of_mem _ h1
    · intro x hx
      rcases List.mem_cons.1 hx with rfl | hx
      · exact h2
      · exact h3 x hx

/-! ### Normalization (41 R60) -/

/-- The magnitude of 2.0. -/
def twoMag : Nat := 0x40000000

theorem units_twoMag : units twoMag = 2 * oneUnits := by decide +kernel

/-- Doubling a magnitude that is not too large is exact. -/
theorem exists_double {r : Nat} (h : units r ≤ 2 ^ 200) : ∃ d, units d = 2 * units r ∧ d < infMag := by
  obtain ⟨t, k, hk, hk', rfl⟩ := exists_place r
  have hu := units_place hk hk'.le
  rw [hu] at h ⊢
  have e : k * 2 ^ (t + 1) = 2 * (k * 2 ^ t) := by rw [pow_succ]; ring
  have hle : k * 2 ^ (t + 1) ≤ 2 ^ 201 := by
    rw [e, show (2 : Nat) ^ 201 = 2 * 2 ^ 200 by norm_num]; exact Nat.mul_le_mul_left 2 h
  refine ⟨roundMag (k * 2 ^ (t + 1)) 1, ?_, ?_⟩
  · rw [units_roundMag hk' (le_trans hle (Nat.pow_le_pow_right (by norm_num) (by norm_num))), e]
  · rw [← units_lt_units, units_roundMag hk' (le_trans hle (Nat.pow_le_pow_right (by norm_num) (by norm_num))),
      units_infMag]
    exact lt_of_le_of_lt hle (Nat.pow_lt_pow_right (by norm_num) (by norm_num))

/-- What normalization does with a value between the minimum and the maximum (41 R60): the result lies in [-1.0, 1.0], is
exactly -1.0 at the minimum and exactly 1.0 at the maximum. -/
theorem normalizeSample_spec {mn mx x : F32} (hmn : isFinite mn = true) (hmx : isFinite mx = true)
    (hx : isFinite x = true) (hlt : fval mn < fval mx) (h1 : fval mn ≤ fval x) (h2 : fval x ≤ fval mx)
    (hsmall : (fval mx - fval mn).natAbs ≤ 2 ^ 199) :
    inUnitRange (normalizeSample mn (fsub mx mn) x) = true ∧
    (x = mn → normalizeSample mn (fsub mx mn) x = Config.f32NegOne) ∧
    (x = mx → normalizeSample mn (fsub mx mn) x = Config.f32One) := by
  have hD0 : fval mx - fval mn ≠ 0 := by omega
  have hDneg : ¬ (fval mx - fval mn < 0) := by omega
  have hrng : fsub mx mn = fpack false (roundMag (fval mx - fval mn).natAbs 1) := by
    rw [fsub_finite hmx hmn, if_neg hD0]; simp only [hDneg, decide_false]
  obtain ⟨R, hR⟩ : ∃ R, R = roundMag (fval mx - fval mn).natAbs 1 := ⟨_, rfl⟩
  have hRle : R ≤ infMag := hR ▸ roundMag_le_infMag _ _
  have hRlt31 : R < 2 ^ 31 := lt_of_le_of_lt hRle infMag_lt
  have hRpos : 0 < R := by
    rw [hR]
    exact le_roundMag (m := 1) Nat.one_pos (by decide) (by rw [show units 1 = 1 by decide]; omega)
  have hRu : units R ≤ 2 ^ 199 := by
    have h199 : units ((176 + 1) * 2 ^ 23) = 2 ^ 199 := units_pow 176
    rw [← h199, units_le_units, hR]
    refine roundMag_le Nat.one_pos (by decide) ?_
    rw [h199, Nat.mul_one]; exact hsmall
  rw [← hR] at hrng
  have hRfin : R < infMag := by
    rw [← units_lt_units, units_infMag]
    exact lt_of_le_of_lt hRu (Nat.pow_lt_pow_right (by norm_num) (by norm_num))
  obtain ⟨d, hd, hdlt⟩ := exists_double (r := R) (le_trans hRu (Nat.pow_le_pow_right (by norm_num) (by norm_num)))
  have hrngf : isFinite (fsub mx mn) = true := by rw [hrng, isFinite_iff, fmag_fpack hRlt31]; exact hRfin
  have hrngs : fsign (fsub mx mn) = false := by rw [hrng, fsign_fpack hRlt31]
  have hrngm : fmag (fsub mx mn) = R := by rw [hrng, fmag_fpack hRlt31]
  have htwof : isFinite Config.f32Two = true := by decide +kernel
  have htwom : fmag Config.f32Two = twoMag := by decide +kernel
  have htwos : fsign Config.f32Two = false := by decide +kernel
  -- the numerator
  have hnum : AtMost R (fsub x mn) := by
    rw [fsub_finite hx hmn]
    split
    · exact atMost_fpack (by norm_num) (by omega) (fun _ => rfl)
    · have hneg : ¬ (fval x - fval mn < 0) := by omega
      simp only [hneg, decide_false]
      refine atMost_fpack (roundMag_lt _ _) ?_ (by simp)
      rw [hR]
      exact roundMag_mono Nat.one_pos Nat.one_pos (by omega)
  have hdbl : AtMost d (fmul Config.f32Two (fsub x mn)) := by
    refine fmul_atMost (m := twoMag) (n := R) ⟨htwom.le, by rw [htwos]; simp⟩ hnum (by decide) hRfin hdlt.le ?_
    rw [units_twoMag, hd]; exact le_of_eq (by ring)
  have hquo : AtMost twoMag (fdiv (fmul Config.f32Two (fsub x mn)) (fsub mx mn)) := by
    refine fdiv_atMost hdbl hdlt hrngs hrngf hrngm.ge hRpos (by decide) ?_
    rw [units_twoMag, hd]; exact le_of_eq (by ring)
  have honef : isFinite Config.f32One = true := by decide +kernel
  refine ⟨?_, ?_, ?_⟩
  · rw [inUnitRange_iff]
    refine fsub_absAtMost (hquo.isFinite (by decide)) honef oneMag_lt.le ?_
    have e1 := hquo.nonneg
    have e2 := hquo.fval_le
    rw [units_twoMag] at e2
    rw [units_oneMag, fval_f32One]
    push_cast at e2
    omega
  · rintro rfl
    have h0 : fsub x x = 0#32 := by
      rw [fsub_finite hx hx, if_pos (by omega)]
      cases fsign x <;> decide
    unfold normalizeSample
    rw [h0]
    have h00 : fmul Config.f32Two 0#32 = 0#32 := by decide +kernel
    rw [h00]
    have h01 : fdiv 0#32 (fsub mx x) = 0#32 := by
      rw [fdiv_finite (by decide) hrngf (by omega), hrngs, hrngm]
      simp [show fmag 0#32 = 0 by decide, show fsign 0#32 = false by decide, fpack]
    rw [h01]; decide +kernel
  · rintro rfl
    unfold normalizeSample
    have hm : fmul Config.f32Two (fsub x mn) = fpack false d := by
      rw [fmul_finite htwof hrngf, htwos, hrngs, htwom, hrngm, units_twoMag]
      have : 2 * oneUnits * units R = units d * oneUnits := by rw [hd]; ring
      rw [this, roundMag_exact hdlt.le oneUnits_pos]; rfl
    have hdlt31 : d < 2 ^ 31 := lt_trans hdlt infMag_lt
    have hq : fdiv (fpack false d) (fsub x mn) = fpack false twoMag := by
      rw [fdiv_finite (by rw [isFinite_iff, fmag_fpack hdlt31]; exact hdlt) hrngf (by omega), hrngs, hrngm,
        fsign_fpack hdlt31, fmag_fpack hdlt31]
      have : units d * oneUnits = units twoMag * units R := by rw [hd, units_twoMag]; ring
      rw [this, roundMag_exact (by decide) (units_pos.2 hRpos)]; rfl
    rw [hm, hq]; decide +kernel

/-- The words of a table that is not degenerate: N + 1 of them in [-1.0, 1.0], the last a copy of the first, 1.0 and -1.0
among the first N (41 R60, R61). -/
theorem tableWords_spec {n hN : Nat} {ws : List F32} (hn : 4 ≤ n) (hn' : n ≤ 2 ^ 24) (hh : hN ≤ 2 ^ 24)
    (h : tableWords sinTurn n hN = some ws) : ws.length = n + 1 ∧ (∀ w ∈ ws, inUnitRange w = true) ∧ ws[n]? = ws[0]? ∧
      (∃ i, i < n ∧ ws[i]? = some Config.f32One) ∧ (∃ i, i < n ∧ ws[i]? = some Config.f32NegOne) := by
  unfold tableWords at h
  obtain ⟨nt, hnt, rfl⟩ := Option.map_eq_some_iff.1 h
  unfold normalizeTable at hnt
  split at hnt
  · simp at hnt
  next hdeg =>
  have hraw := fun x => mem_rawTable (size := n) (harmonics := hN) (x := x)
  have hlen := length_rawTable sinTurn n hN
  generalize hR : rawTable sinTurn n hN = raw at *
  have hfin : ∀ x ∈ raw, isFinite x = true ∧ (fval x).natAbs ≤ hN * oneUnits := by
    intro x hx
    obtain ⟨i, -, rfl⟩ := hraw x hx
    exact ⟨(partialSum_bound _ _ hh).1, (partialSum_bound _ _ hh).2.1⟩
  have hne : raw ≠ [] := by rintro rfl; simp at hlen; omega
  obtain ⟨a1, a2⟩ := fminList_spec hne (fun x hx => (hfin x hx).1)
  obtain ⟨b1, b2⟩ := fmaxList_spec hne (fun x hx => (hfin x hx).1)
  generalize fminList raw = mn at *
  generalize fmaxList raw = mx at *
  have hmnf := hfin _ a1
  have hmxf := hfin _ b1
  have hlt : fval mn < fval mx := by
    have h1 := b2 _ a1
    have : fval mx ≠ fval mn := by
      intro he
      exact hdeg ((feq_iff (not_isNaN_of_isFinite hmxf.1) (not_isNaN_of_isFinite hmnf.1)).2 he)
    omega
  have hsmall : (fval mx - fval mn).natAbs ≤ 2 ^ 199 := by
    have h1 := hmnf.2
    have h2 := hmxf.2
    have h3 : hN * oneUnits ≤ 2 ^ 198 := by
      calc hN * oneUnits ≤ 2 ^ 24 * 2 ^ 149 := Nat.mul_le_mul_right _ hh
        _ ≤ 2 ^ 198 := by norm_num
    omega
  have hspec := fun x hx => normalizeSample_spec hmnf.1 hmxf.1 (hfin x hx).1 hlt (a2 x hx) (b2 x hx) hsmall
  simp only [Option.some.injEq] at hnt
  subst hnt
  have hl0 : (raw.map (normalizeSample mn (fsub mx mn))).length = n := by simp [hlen]
  have hlt1 : ((raw.map (normalizeSample mn (fsub mx mn))).take 1).length = 1 := by simp; omega
  refine ⟨?_, ?_, ?_, ?_, ?_⟩
  · rw [List.length_append, hl0, hlt1]
  · intro w hw
    have : w ∈ raw.map (normalizeSample mn (fsub mx mn)) := by
      rcases List.mem_append.1 hw with h | h
      · exact h
      · exact List.mem_of_mem_take h
    obtain ⟨x, hx, rfl⟩ := List.mem_map.1 this
    exact (hspec x hx).1
  · rw [List.getElem?_append_right (by omega), List.getElem?_append_left (by omega), hl0, Nat.sub_self,
      List.getElem?_take]
    simp
  · obtain ⟨i, hi, he⟩ := List.getElem_of_mem b1
    refine ⟨i, by omega, ?_⟩
    rw [List.getElem?_append_left (by omega), List.getElem?_map, List.getElem?_eq_getElem hi, he]
    simp [(hspec mx b1).2.2 rfl]
  · obtain ⟨i, hi, he⟩ := List.getElem_of_mem a1
    refine ⟨i, by omega, ?_⟩
    rw [List.getElem?_append_left (by omega), List.getElem?_map, List.getElem?_eq_getElem hi, he]
    simp [(hspec mn a1).2.1 rfl]

/-! ### `EXP2` (00 R10, log 8) -/

theorem pow2_legal (j : Int) (h1 : -6 ≤ j) (h2 : j ≤ 4) : exp2Legal (pow2 j) = true := by
  have : j = -6 ∨ j = -5 ∨ j = -4 ∨ j = -3 ∨ j = -2 ∨ j = -1 ∨ j = 0 ∨ j = 1 ∨ j = 2 ∨ j = 3 ∨ j = 4 := by omega
  rcases this with rfl | rfl | rfl | rfl | rfl | rfl | rfl | rfl | rfl | rfl | rfl <;> decide +kernel

/-- On its range `EXP2` is finite and above zero (00 R10 (c)). -/
theorem exp2_legal {e : F32} (h : exp2InRange e = true) : exp2Legal (exp2 e) = true := by
  unfold exp2 exp2With
  split
  · next hj => exact pow2_legal _ hj.2.2.1 hj.2.2.2
  · split
    · decide +kernel
    · next hx => simp only [h, Bool.true_and, Bool.not_eq_true', Bool.not_eq_false] at hx; exact hx

end Sys2Proof.Machine
end

