-- ==== Sys2Proof/Laws/Sound.lean ====
section
/-!
SUPPORT. What a sound state gives the operations: the accepted operands' ranges, the bound on the increment (10 R19), the
sample loop that always completes and keeps the phase in the table (10 R18), and the source that always has an entry (42 R70).
-/

namespace Sys2Proof.Machine

set_option Elab.async false

/-! ### Accepted operands -/

/-- The magnitude of 2^64. -/
def freqMaxMag : Nat := 0x5F800000

/-- The magnitude of 2^88. -/
def deltaMaxMag : Nat := 0x6B800000

theorem units_freqMaxMag : units freqMaxMag = 2 ^ 213 := by decide +kernel
theorem units_deltaMaxMag : units deltaMaxMag = 2 ^ 88 * oneUnits := by decide +kernel

/-- The accepted frequencies (40 R52): -0.0, and +0.0 up to 2^64. -/
theorem freqAccepted_iff {f : F32} : freqAccepted f = true ↔ AtMost freqMaxMag f := by
  have hm : isNaN Config.freqMax = false := by decide +kernel
  have h0 : isNaN 0#32 = false := by decide
  have hv : fval Config.freqMax = units freqMaxMag := by decide +kernel
  have key : isFinite f = true → (freqAccepted f = true ↔ 0 ≤ fval f ∧ fval f ≤ units freqMaxMag) := by
    intro hf
    have hn := not_isNaN_of_isFinite hf
    have hlt : flt Config.freqMax f = false ↔ fval f ≤ units freqMaxMag := by
      rw [← Bool.not_eq_true, flt_iff hm hn, hv, not_lt]
    simp only [freqAccepted, hf, Bool.true_and, Bool.and_eq_true, Bool.not_eq_true', hlt, fle_iff h0 hn, fval_zero]
  constructor
  · intro h
    have hf : isFinite f = true := by
      simp only [freqAccepted, Bool.and_eq_true] at h; exact h.1.1
    obtain ⟨h1, h2⟩ := (key hf).1 h
    have h3 := atMost_of_nonneg h1
    refine ⟨?_, h3.2⟩
    rw [h3.fval_eq] at h2
    exact units_le_units.1 (by exact_mod_cast h2)
  · intro h
    exact (key (h.isFinite (by decide))).2 ⟨h.nonneg, h.fval_le⟩

/-- The accepted rates (43 R76): positive, finite and at least 1.0. -/
theorem rateAccepted_iff {r : F32} :
    rateAccepted r = true ↔ fsign r = false ∧ isFinite r = true ∧ oneMag ≤ fmag r := by
  have h1 : isNaN Config.srMin = false := by decide +kernel
  have hv : fval Config.srMin = units oneMag := by decide +kernel
  have hpos : 0 < units oneMag := by decide +kernel
  simp only [rateAccepted, Bool.and_eq_true]
  constructor
  · rintro ⟨hf, hle⟩
    have hle' := (fle_iff h1 (not_isNaN_of_isFinite hf)).1 hle
    rw [hv] at hle'
    have hs := fsign_false_of_pos (x := r) (by omega)
    refine ⟨hs, hf, units_le_units.1 ?_⟩
    rw [fval_of_pos hs] at hle'
    exact_mod_cast hle'
  · rintro ⟨hs, hf, hle⟩
    refine ⟨hf, (fle_iff h1 (not_isNaN_of_isFinite hf)).2 ?_⟩
    rw [hv, fval_of_pos hs]
    exact_mod_cast units_le_units.2 hle

/-! ### MIDI notes (42 R69) and note lengths (43 R77) -/

/-- The exponent of every MIDI note lies in the range on which `EXP2` is held. -/
theorem midiExponent_inRange : ∀ n : Nat, n ≤ 127 → exp2InRange (fdiv (toF32 ((n : Int) - Config.midiRefNote)) Config.f32Twelve) = true := by
  have : ∀ n : Fin 128, exp2InRange (fdiv (toF32 ((n.val : Int) - Config.midiRefNote)) Config.f32Twelve) = true := by decide +kernel
  exact fun n hn => this ⟨n, by omega⟩

/-- Every MIDI frequency is positive; it is no NaN, and an infinity at most (42 R69, with no more than 00 R10). -/
theorem midiToHz_eq {n : Nat} (hn : n ≤ 127) :
    ∃ v, v = exp2 (fdiv (toF32 ((n : Int) - Config.midiRefNote)) Config.f32Twelve) ∧ isFinite v = true ∧
      fsign v = false ∧ 0 < units (fmag v) ∧
      midiToHz n = fpack false (roundMag (units (fmag Config.midiRefHz) * units (fmag v)) oneUnits) := by
  have h := exp2_legal (midiExponent_inRange n hn)
  refine ⟨_, rfl, ?_⟩
  unfold midiToHz
  generalize exp2 _ = v at *
  simp only [exp2Legal, Bool.and_eq_true] at h
  obtain ⟨h1, h2⟩ := h
  have h2' := (flt_iff (by decide) (not_isNaN_of_isFinite h1)).1 h2
  rw [fval_zero] at h2'
  have hs := fsign_false_of_pos h2'
  refine ⟨h1, hs, ?_, ?_⟩
  · rw [fval_of_pos hs] at h2'; exact_mod_cast h2'
  · have hrf : isFinite Config.midiRefHz = true := by decide +kernel
    have hrs : fsign Config.midiRefHz = false := by decide +kernel
    rw [fmul_finite hrf h1, hrs, hs]; rfl

theorem midiToHz_pos {n : Nat} (hn : n ≤ 127) :
    isNaN (midiToHz n) = false ∧ fsign (midiToHz n) = false ∧ 0 < fval (midiToHz n) := by
  obtain ⟨v, -, h1, -, hv, he⟩ := midiToHz_eq hn
  have hru : oneUnits ≤ units (fmag Config.midiRefHz) := by decide +kernel
  have hle := roundMag_le_infMag (units (fmag Config.midiRefHz) * units (fmag v)) oneUnits
  have hlt := roundMag_lt (units (fmag Config.midiRefHz) * units (fmag v)) oneUnits
  have hge : fmag v ≤ roundMag (units (fmag Config.midiRefHz) * units (fmag v)) oneUnits := by
    refine le_roundMag oneUnits_pos (isFinite_iff.1 h1).le ?_
    rw [Nat.mul_comm]
    exact Nat.mul_le_mul_right _ hru
  have hs : fsign (midiToHz n) = false := by rw [he]; exact fsign_fpack hlt
  have hm : fmag (midiToHz n) = roundMag (units (fmag Config.midiRefHz) * units (fmag v)) oneUnits := by
    rw [he]; exact fmag_fpack hlt
  refine ⟨?_, hs, ?_⟩
  · simp only [isNaN, hm, decide_eq_false_iff_not]; omega
  · rw [fval_of_pos hs, hm]
    exact_mod_cast lt_of_lt_of_le hv (units_le_units.2 hge)

/-- A MIDI frequency is one that SET_FREQUENCY accepts while the power of two under it is at most 2^55. -/
theorem midiToHz_accepted {n : Nat} (hn : n ≤ 127)
    (h : fval (exp2 (fdiv (toF32 ((n : Int) - Config.midiRefNote)) Config.f32Twelve)) ≤ 2 ^ 55 * oneUnits) :
    AtMost 0x5F5C0000 (midiToHz n) := by
  obtain ⟨v, hv, h1, hs, -, he⟩ := midiToHz_eq hn
  rw [← hv, fval_of_pos hs] at h
  have hu : units (fmag v) ≤ 2 ^ 55 * oneUnits := by exact_mod_cast h
  have hlt := roundMag_lt (units (fmag Config.midiRefHz) * units (fmag v)) oneUnits
  rw [he]
  refine atMost_fpack hlt ?_ (by simp)
  refine roundMag_le oneUnits_pos (by decide) ?_
  calc units (fmag Config.midiRefHz) * units (fmag v)
      ≤ units (fmag Config.midiRefHz) * (2 ^ 55 * oneUnits) := Nat.mul_le_mul_left _ hu
    _ = units 0x5F5C0000 * oneUnits := by decide +kernel

/-- Every entry that the load accepts is a frequency that SET_FREQUENCY accepts, if the MIDI notes convert to such. -/
theorem loadEntries_accepted {k ws hz} (h : loadEntries k ws = some hz)
    (hm : k = .midi → ∀ w ∈ ws, w.toNat ≤ Config.midiMax → freqAccepted (midiToHz w.toNat) = true) :
    ∀ f ∈ hz, freqAccepted f = true := by
  induction ws generalizing hz with
  | nil => simp [loadEntries] at h; simp [h]
  | cons w ws ih =>
    unfold loadEntries at h
    split at h
    · simp at h
    · next v hv =>
      obtain ⟨vs, hvs, rfl⟩ := Option.map_eq_some_iff.1 h
      intro f hf
      rcases List.mem_cons.1 hf with rfl | hf
      · unfold loadEntry at hv
        cases k <;> simp only at hv <;> split at hv <;> simp at hv
        · next hh => rw [← hv]; exact hh
        · next hh => rw [← hv]; exact hm rfl _ List.mem_cons_self hh
      · exact ih hvs (fun hk u hu => hm hk u (List.mem_cons_of_mem _ hu)) f hf

/-- The note length of an accepted rate and tempo, where it is finite, is at least zero. -/
theorem noteLength_inDomain {s : State} {npm} (hr : rateAccepted s.sr = true) (hn : tempoAccepted npm = true)
    (hf : isFinite (noteLength s.sr npm) = true) : inDomain (noteLength s.sr npm) = true := by
  obtain ⟨h1, h2, h3⟩ := rateAccepted_iff.1 hr
  simp only [tempoAccepted, Bool.and_eq_true] at hn
  have hnp := (flt_iff (by decide) (not_isNaN_of_isFinite hn.1)).1 hn.2
  rw [fval_zero] at hnp
  have hns := fsign_false_of_pos hnp
  have h60f : isFinite Config.f32Sixty = true := by decide +kernel
  have h60 : fmag Config.f32Sixty ≠ 0 := by decide +kernel
  have h60s : fsign Config.f32Sixty = false := by decide +kernel
  refine inDomain_iff.2 ⟨hf, fval_nonneg_of_pos ?_⟩
  unfold noteLength
  rw [fdiv_finite hn.1 h60f h60, hns, h60s]
  have hq31 := roundMag_lt (units (fmag npm) * oneUnits) (units (fmag Config.f32Sixty))
  have hqle := roundMag_le_infMag (units (fmag npm) * oneUnits) (units (fmag Config.f32Sixty))
  generalize roundMag (units (fmag npm) * oneUnits) (units (fmag Config.f32Sixty)) = q at *
  have hs : fsign (fpack (false != false) q) = false := fsign_fpack hq31
  have hm : fmag (fpack (false != false) q) = q := fmag_fpack hq31
  have hnan : isNaN (fpack (false != false) q) = false := by
    simp only [isNaN, hm, decide_eq_false_iff_not]; omega
  unfold fdiv
  simp only [hs, h1, hnan, not_isNaN_of_isFinite h2, not_isInf_of_isFinite h2, Bool.false_or, Bool.false_eq_true, if_false, hm]
  split
  · exact fsign_fpack (by norm_num)
  · split
    · split
      · have : oneMag = 0x3F800000 := rfl
        omega
      · exact fsign_fpack infMag_lt
    · exact fsign_fpack (roundMag_lt _ _)

/-! ### The increment (10 R19, 40 R53) -/

/-- The increment of an accepted frequency, a table size and an accepted rate is at least zero and at most 2^88. -/
theorem delta_atMost {f r : F32} {n : Nat} (hf : freqAccepted f = true) (hn : n ≤ 2 ^ 24)
    (hr : rateAccepted r = true) : AtMost deltaMaxMag (fdiv (fmul f (toF32 n)) r) := by
  obtain ⟨hs, hfin, hle⟩ := rateAccepted_iff.1 hr
  obtain ⟨m, hm, hmlt, hmu⟩ := toF32_nat hn
  have hN : AtMost m (toF32 n) := by
    rw [hm]; exact atMost_fpack (lt_trans hmlt infMag_lt) le_rfl (by simp)
  have hprod : AtMost deltaMaxMag (fmul f (toF32 n)) := by
    refine fmul_atMost (freqAccepted_iff.1 hf) hN (by decide) hmlt (by decide) ?_
    rw [units_freqMaxMag, units_deltaMaxMag, hmu]
    calc 2 ^ 213 * (n * oneUnits) ≤ 2 ^ 213 * (2 ^ 24 * oneUnits) :=
          Nat.mul_le_mul_left _ (Nat.mul_le_mul_right _ hn)
      _ = 2 ^ 88 * oneUnits * oneUnits := by rw [oneUnits]; norm_num
  refine fdiv_atMost hprod (by decide) hs hfin hle (by decide) (by decide) ?_
  rw [units_oneMag]

theorem AtMost.deltaBounded {s : State} (h : AtMost deltaMaxMag s.oscDelta) : s.DeltaBounded := by
  refine ⟨h.isFinite (by decide), h.nonneg, ?_⟩
  have := h.fval_le
  rw [units_deltaMaxMag] at this
  exact_mod_cast this

theorem State.DeltaBounded.atMost {s : State} (h : s.DeltaBounded) : AtMost deltaMaxMag s.oscDelta := by
  have h1 := atMost_of_nonneg h.2.1
  refine ⟨units_le_units.1 ?_, h1.2⟩
  have h2 := h.2.2
  rw [h1.fval_eq] at h2
  rw [units_deltaMaxMag]
  exact_mod_cast h2

/-! ### The sample loop (40 R55, 10 R18) -/

/-- The phase after an advance is `wrapN` of the sum where that is defined. -/
theorem phaseAfter_eq {x : F32} {n : Nat} (h : inDomain x = true) : phaseAfter x n = wrapN x n := by
  unfold phaseAfter; rw [if_pos h]

/-- The phase after an advance lies in the table, whatever the sum is (10 R18). -/
theorem phaseAfter_range (x : F32) {n : Nat} (h1 : 1 ≤ n) (h2 : n ≤ 2 ^ 24) :
    fsign (phaseAfter x n) = false ∧ isFinite (phaseAfter x n) = true ∧ fval (phaseAfter x n) < n * oneUnits := by
  have hpos : 0 < n * oneUnits := Nat.mul_pos h1 oneUnits_pos
  have key : ∀ y, inDomain y = true →
      fsign (wrapN y n) = false ∧ isFinite (wrapN y n) = true ∧ fval (wrapN y n) < n * oneUnits := by
    intro y hy
    obtain ⟨e1, e2, e3⟩ := wrapN_exact h1 h2 (inDomain_iff.1 hy).1
    refine ⟨e1, e2, ?_⟩
    rw [fval_of_pos e1, e3]
    exact_mod_cast Nat.mod_lt (units (fmag y)) hpos
  unfold phaseAfter
  split
  · next h => exact key _ h
  · split
    · next h => exact key _ h
    · exact ⟨by decide, by decide, by rw [fval_zero]; exact_mod_cast hpos⟩

/-- What the sample loop needs, and keeps: a built table and the phase in it. -/
structure State.Playable (s : State) : Prop where
  valid : s.tblValid = true
  size : 4 ≤ s.tblSize.toNat ∧ s.tblSize.toNat ≤ 2 ^ 24
  readable : ∀ i, i ≤ s.tblSize.toNat → ∃ v, memRead s.tbl i = some v ∧ inUnitRange v = true
  sign : fsign s.oscIndex = false
  finite : isFinite s.oscIndex = true
  inTable : fval s.oscIndex < s.tblSize.toNat * oneUnits

theorem State.Inv.playable {s : State} (h : s.Inv) (hv : s.tblValid = true) : s.Playable := by
  have ht := h.table.2 hv
  exact ⟨hv, ⟨ht.size.1, le_trans ht.size.2 h.legal.tableSize.2⟩, ht.readable, h.index.1, h.index.2.1,
    h.index.2.2.1 hv⟩

theorem State.Playable.floor_lt {s : State} (h : s.Playable) : floorNat s.oscIndex < s.tblSize.toNat := by
  have h1 := h.inTable
  rw [fval_of_pos h.sign] at h1
  unfold floorNat
  rw [Nat.div_lt_iff_lt_mul oneUnits_pos]
  exact_mod_cast h1

/-- With a bounded increment the sum is finite and at least zero, so that `wrapN` of it is defined (10 R19, 00 R7). -/
theorem State.Playable.sum {s : State} (h : s.Playable) (hb : s.DeltaBounded) :
    inDomain (fadd s.oscIndex s.oscDelta) = true := by
  have hi : AtMost (fmag s.oscIndex) s.oscIndex := atMost_of_nonneg (fval_nonneg_of_pos h.sign)
  have hlt := h.inTable
  rw [fval_of_pos h.sign] at hlt
  have hlt' : units (fmag s.oscIndex) < s.tblSize.toNat * oneUnits := by exact_mod_cast hlt
  have hle : s.tblSize.toNat * oneUnits ≤ 2 ^ 24 * oneUnits := Nat.mul_le_mul_right _ h.size.2
  have hsum : 2 ^ 24 * oneUnits + units deltaMaxMag ≤ units 0x6C000000 := by decide +kernel
  obtain ⟨h1, h2⟩ := fadd_atMost (k := 0x6C000000) hi hb.atMost (isFinite_iff.1 h.finite) (by decide)
    (by decide) h.sign (le_trans (Nat.add_le_add_right (le_trans hlt'.le hle) _) hsum)
  exact inDomain_iff.2 ⟨isFinite_iff.2 (lt_of_le_of_lt h2 (by decide)), fval_nonneg_of_pos h1⟩

/-- The advance keeps what the sample loop needs. -/
theorem State.Playable.next {s : State} (h : s.Playable) {x : F32} (h1 : fsign x = false) (h2 : isFinite x = true)
    (h3 : fval x < s.tblSize.toNat * oneUnits) : State.Playable { s with oscIndex := x } where
  valid := h.valid
  size := h.size
  readable := h.readable
  sign := h1
  finite := h2
  inTable := h3

/-- One sample always completes and leaves the loop playable. -/
theorem State.Playable.oscStep {s : State} (h : s.Playable) :
    ∃ v0 v1, memRead s.tbl (floorNat s.oscIndex) = some v0 ∧ memRead s.tbl (floorNat s.oscIndex + 1) = some v1 ∧
      s.oscStep = .ok
        (fmul s.oscAmp (fadd v0 (fmul (fsub s.oscIndex (toF32 (floorNat s.oscIndex))) (fsub v1 v0))),
          { s with oscIndex := phaseAfter (fadd s.oscIndex s.oscDelta) s.tblSize.toNat }) ∧
      State.Playable { s with oscIndex := phaseAfter (fadd s.oscIndex s.oscDelta) s.tblSize.toNat } := by
  have hfl := h.floor_lt
  obtain ⟨v0, h0, -⟩ := h.readable (floorNat s.oscIndex) hfl.le
  obtain ⟨v1, h1, -⟩ := h.readable (floorNat s.oscIndex + 1) hfl
  have hint : s.interp s.oscIndex = .ok
      (fadd v0 (fmul (fsub s.oscIndex (toF32 (floorNat s.oscIndex))) (fsub v1 v0))) :=
    State.interp_ok.2 ⟨inDomain_iff.2 ⟨h.finite, fval_nonneg_of_pos h.sign⟩, v0, v1,
      State.tblRead_ok.2 ⟨h.valid, hfl.le, h0⟩, State.tblRead_ok.2 ⟨h.valid, hfl, h1⟩, rfl⟩
  obtain ⟨e1, e2, e3⟩ := phaseAfter_range (fadd s.oscIndex s.oscDelta) (n := s.tblSize.toNat)
    (by have := h.size.1; omega) h.size.2
  exact ⟨v0, v1, h0, h1, State.oscStep_ok.2 ⟨_, hint, rfl, rfl⟩, h.next e1 e2 e3⟩

/-- A render of any length completes, changes nothing but the phase, and leaves the loop playable. -/
theorem State.Playable.renderMono {s : State} (h : s.Playable) (n : Nat) :
    ∃ ys t, State.renderMono n s = .ok (ys, t) ∧ ys.length = n ∧ t = { s with oscIndex := t.oscIndex } ∧
      t.Playable := by
  induction n generalizing s with
  | zero => exact ⟨[], s, rfl, rfl, rfl, h⟩
  | succ n ih =>
    obtain ⟨v0, v1, -, -, hstep, hp⟩ := h.oscStep
    obtain ⟨ys, t, h1, h2, h3, h4⟩ := ih hp
    refine ⟨_, t, State.renderMono_succ_ok.2 ⟨_, _, ys, hstep, h1, rfl⟩, by simp [h2], ?_, h4⟩
    rw [h3]

/-! ### The source (42 R70) -/

/-- An installed source always has an entry to give. -/
theorem State.SourceInstalled.nextFrequency {s : State} (h : s.SourceInstalled) :
    ∃ idx f, idx < s.genLen.toNat ∧ memRead (s.bank s.genBank) idx = some f ∧
      s.nextFrequency = .ok (idx, f, s.nextIndex.2.cursorAfter idx) ∧ idx = s.nextIndex.1 := by
  have hlt := State.nextIndex_lt h.cursor
  obtain ⟨f, hf⟩ := h.readable _ hlt
  exact ⟨_, f, hlt, hf, State.nextFrequency_ok.2 ⟨rfl, State.seqRead_ok.2 ⟨hlt, hf⟩, rfl⟩, rfl⟩

theorem State.toNat_cursorAfter {s : State} (idx : Nat) (h : 0 < s.genLen.toNat) :
    (s.cursorAfter idx).genCursor.toNat = (idx + 1) % s.genLen.toNat := by
  show (BitVec.ofNat 16 ((idx + 1) % s.genLen.toNat)).toNat = _
  rw [BitVec.toNat_ofNat]
  exact Nat.mod_eq_of_lt (lt_trans (Nat.mod_lt _ h) s.genLen.isLt)

/-! ### Soundness kept -/

/-- Soundness speaks of no field of the environment's record. -/
theorem State.Inv.environment {s : State} (h : s.Inv) (p : List Event) (r : List Response) (n : List NoteChanged)
    (d : List Nat) (k : Nat) :
    State.Inv { s with pending := p, responses := r, notes := n, draws := d, drawPos := k } :=
  ⟨h.legal, h.fault, ⟨h.table.1, fun hv => ⟨(h.table.2 hv).1, (h.table.2 hv).2, (h.table.2 hv).3, (h.table.2 hv).4⟩⟩,
    h.index, h.delta, h.amp, h.stream, h.tempo,
    ⟨fun hm => ⟨(h.source.1 hm).1, (h.source.1 hm).2, (h.source.1 hm).3⟩, h.source.2⟩, h.timer, h.memories⟩

theorem State.Inv.respond {s : State} (h : s.Inv) (p : Port) (c : ResponseCode) (d : List Word) :
    (s.respond p c d).Inv := h.environment _ _ _ _ _

/-- Sound but for the increment, which is only known to be +0.0 while there is nothing to derive it from. -/
structure State.AlmostSound (s : State) : Prop where
  legal : s.params.Legal
  fault : s.FaultSound
  table : s.TableSound
  index : s.IndexSound
  delta : ¬(s.tblValid = true ∧ s.prepared = true) → s.oscDelta = 0#32
  amp : isFinite s.oscAmp = true
  stream : s.StreamSound
  tempo : s.TempoSound
  source : s.SourceSound
  timer : s.elapsed.toNat ≤ Config.spnMax + s.params.blockMax
  memories : s.MemoriesWf

/-- Deriving the increment restores soundness (40 R53, 70 R106). -/
theorem State.AlmostSound.recomputeDelta {s : State} (h : s.AlmostSound) : s.recomputeDelta.Inv := by
  unfold State.recomputeDelta
  split
  · next hc =>
    simp only [Bool.and_eq_true] at hc
    have ht := h.table.2 hc.1
    exact ⟨h.legal, h.fault, ⟨h.table.1, fun _ => ⟨ht.1, ht.2, ht.3, ht.4⟩⟩, h.index, ⟨fun _ => rfl, fun hn => absurd hc hn⟩,
      h.amp, h.stream, h.tempo,
      ⟨fun hm => ⟨(h.source.1 hm).1, (h.source.1 hm).2, (h.source.1 hm).3⟩, h.source.2⟩, h.timer, h.memories⟩
  · next hc =>
    simp only [Bool.and_eq_true] at hc
    have h0 := h.delta hc
    exact ⟨h.legal, h.fault, h.table, h.index, ⟨fun hy => absurd hy hc, fun _ => h0⟩, h.amp,
      h.stream, h.tempo, h.source, h.timer, h.memories⟩

/-- In a sound state the increment of an accepted frequency is bounded (10 R19). -/
theorem State.Inv.deltaBounded {s : State} (h : s.Inv) (hf : freqAccepted s.oscFreq = true) : s.DeltaBounded := by
  by_cases hc : s.tblValid = true ∧ s.prepared = true
  · refine AtMost.deltaBounded ?_
    rw [h.delta.1 hc]
    exact delta_atMost hf (le_trans (h.table.2 hc.1).size.2 h.legal.tableSize.2) (h.stream.1 hc.2).1
  · unfold State.DeltaBounded
    rw [h.delta.2 hc]
    exact ⟨by decide, by rw [fval_zero], by rw [fval_zero]; exact Int.mul_nonneg (by norm_num) (Int.natCast_nonneg _)⟩

/-- Installing a sequence writes the inactive bank and the source registers and nothing else. -/
theorem State.installSequence_frame (s : State) (v : Variant) (hz : List F32) :
    s.installSequence v hz =
      { s with
        seq0 := (s.installSequence v hz).seq0, seq1 := (s.installSequence v hz).seq1, genBank := !s.genBank,
        genLen := BitVec.ofNat 16 hz.length, genVariant := v, genCursor := 0#16, seqMode := .running } := by
  unfold State.installSequence State.setBank; split <;> rfl

theorem State.installSequence_active (s : State) (v : Variant) (hz : List F32) :
    (s.installSequence v hz).bank (!s.genBank) = memWriteAll (s.bank (!s.genBank)) 0 hz := by
  unfold State.installSequence State.setBank State.bank
  cases s.genBank <;> rfl

theorem State.installSequence_other (s : State) (v : Variant) (hz : List F32) :
    (s.installSequence v hz).bank s.genBank = s.bank s.genBank := by
  unfold State.installSequence State.setBank State.bank
  cases s.genBank <;> rfl

/-- A note boundary changes the frequency, the increment, the cursor, the timer, the draws and the notes, nothing else. -/
theorem State.noteBoundary_frame {s t : State} (h : s.noteBoundary = .ok t) :
    t = { s with
      oscFreq := t.oscFreq, oscDelta := t.oscDelta, genCursor := t.genCursor, elapsed := 0#64, draws := t.draws,
      drawPos := t.drawPos, notes := t.notes } := by
  obtain ⟨idx, f, u, hu, rfl⟩ := State.noteBoundary_ok.1 h
  obtain ⟨_, _, rfl⟩ := State.nextFrequency_ok.1 hu
  rw [State.nextIndex_frame s]
  unfold State.recomputeDelta State.cursorAfter State.emitNote
  simp only
  split <;> rfl

/-- The boundary check of a sound state always completes, and leaves the timer at most `spn`. -/
theorem State.Inv.boundaryCheck {s : State} (h : s.Inv) (hm : s.seqMode = .running) :
    ∃ t, s.boundaryCheck = .ok t ∧ t.Inv ∧ t.elapsed.toNat ≤ s.spn.toNat ∧ t.params = s.params ∧
      t.tblValid = s.tblValid := by
  unfold State.boundaryCheck
  split
  · obtain ⟨idx, f, h1, h2, h4, h5⟩ := (h.source.1 hm).nextFrequency
    refine ⟨_, State.noteBoundary_ok.2 ⟨idx, f, _, h4, rfl⟩, ?_, ?_, ?_, ?_⟩
    · have hfr := State.nextIndex_frame s
      generalize s.nextIndex.2 = u at *
      have hinst : State.Inv (State.recomputeDelta { s with oscFreq := f, genCursor := (u.cursorAfter idx).genCursor, elapsed := 0#64 }) := by
        refine State.AlmostSound.recomputeDelta ?_
        refine ⟨h.legal, h.fault, ⟨h.table.1, fun hv => ⟨(h.table.2 hv).1, (h.table.2 hv).2, (h.table.2 hv).3, (h.table.2 hv).4⟩⟩,
          h.index, h.delta.2, h.amp, h.stream, h.tempo,
          ⟨fun hm' => ⟨(h.source.1 hm).1, ?_, (h.source.1 hm).3⟩, fun hx => ?_⟩, ?_, h.memories⟩
        · show (u.cursorAfter idx).genCursor.toNat < _
          have hl : u.genLen = s.genLen := by rw [hfr]
          rw [State.toNat_cursorAfter _ (by rw [hl]; omega), hl]
          exact Nat.mod_lt _ (by omega)
        · have : s.seqMode = .idle := hx
          rw [hm] at this; cases this
        · show (0#64 : BitVec 64).toNat ≤ _; simp
      have := hinst.environment s.pending s.responses (⟨BitVec.ofNat 32 idx, f⟩ :: s.notes) u.draws u.drawPos
      convert this using 1
      rw [hfr]
      unfold State.recomputeDelta State.cursorAfter State.emitNote
      simp only
      split <;> rfl
    · simp [State.emitNote]
    · have hfr := State.nextIndex_frame s
      generalize s.nextIndex.2 = u at *
      rw [hfr]; unfold State.recomputeDelta State.cursorAfter State.emitNote; simp only
      split <;> rfl
    · have hfr := State.nextIndex_frame s
      generalize s.nextIndex.2 = u at *
      rw [hfr]; unfold State.recomputeDelta State.cursorAfter State.emitNote; simp only
      split <;> rfl
  · next hx => exact ⟨s, rfl, h, by omega, rfl, rfl⟩

/-- A completed RUNNING block changes what the oscillator and the source advance, and answers OK with its samples. -/
theorem State.runBlock_frame {s t : State} {c : BitVec 16} {b : Word} (h : s.runBlock c b = .ok t) :
    ∃ mono : List F32, mono.length = b.toNat ∧
      t = { s with
        oscFreq := t.oscFreq, oscDelta := t.oscDelta, oscIndex := t.oscIndex, genCursor := t.genCursor,
        elapsed := t.elapsed, draws := t.draws, drawPos := t.drawPos, notes := t.notes,
        responses := ⟨.audio, .ok, planar c.toNat mono⟩ :: s.responses } := by
  obtain ⟨s1, mono, s2, h1, h2, rfl⟩ := State.runBlock_ok.1 h
  obtain ⟨h3, h4⟩ := State.renderMono_frame h2
  have h5 : s1 = { s with
      oscFreq := s1.oscFreq, oscDelta := s1.oscDelta, genCursor := s1.genCursor, elapsed := s1.elapsed,
      draws := s1.draws, drawPos := s1.drawPos, notes := s1.notes } := by
    unfold State.boundaryCheck at h1
    split at h1
    · have := State.noteBoundary_frame h1
      rw [this]
    · cases h1; rfl
  refine ⟨mono, h3, ?_⟩
  rw [h4]
  conv_lhs => rw [h5]
  rfl

end Sys2Proof.Machine
end

