-- ==== Sys2Proof/Laws/Commands.lean ====
section
/-!
SUPPORT. One inversion lemma per command: everything it can do, when it gives a next state. FILL_BLOCK's is
`execFillBlock_next` in `Laws/Ops.lean`.
-/

namespace Sys2Proof.Machine

theorem State.answer_next {s t : State} {c} (h : s.answer c = .next t) : t = s.respond .control c [] := by cases h; rfl

/-- Everything SET_AMPLITUDE can do. -/
theorem execSetAmplitude_next {a} {s t : State} (h : execSetAmplitude a s = .next t) :
    (∃ c, c ≠ .ok ∧ c ≠ .fatal ∧ t = s.respond .control c []) ∨
      t = State.respond { s with oscAmp := a } .control .ok [] := by
  rcases State.gated_next h with ⟨-, rfl⟩ | ⟨-, h⟩
  · exact .inl ⟨_, by simp, by simp, rfl⟩
  split at h
  · exact .inl ⟨_, by simp, by simp, State.answer_next h⟩
  · exact .inr (State.answer_next h)

/-- Everything SET_FREQUENCY can do. -/
theorem execSetFrequency_next {a} {s t : State} (h : execSetFrequency a s = .next t) :
    (∃ c, c ≠ .ok ∧ c ≠ .fatal ∧ t = s.respond .control c []) ∨
      ∃ d, t = State.respond { s with oscFreq := a, oscDelta := d } .control .ok [] := by
  rcases State.gated_next h with ⟨-, rfl⟩ | ⟨-, h⟩
  · exact .inl ⟨_, by simp, by simp, rfl⟩
  split at h
  · exact .inl ⟨_, by simp, by simp, State.answer_next h⟩
  · refine .inr ?_
    have := State.answer_next h; unfold State.recomputeDelta at this; split at this
    · exact ⟨_, this⟩
    · exact ⟨s.oscDelta, this⟩

/-- Everything PREPARE can do. -/
theorem execPrepare_next {p r} {s t : State} (h : execPrepare p r s = .next t) :
    (∃ c, c ≠ .ok ∧ c ≠ .fatal ∧ t = s.respond .control c []) ∨
      ∃ d, t = State.respond { s with spb := p, sr := r, prepared := true, oscDelta := d } .control .ok [] := by
  rcases State.gated_next h with ⟨-, rfl⟩ | ⟨-, h⟩
  · exact .inl ⟨_, by simp, by simp, rfl⟩
  split at h
  · exact .inl ⟨_, by simp, by simp, State.answer_next h⟩
  split at h
  · exact .inl ⟨_, by simp, by simp, State.answer_next h⟩
  · refine .inr ?_
    have := State.answer_next h; unfold State.recomputeDelta at this; split at this
    · exact ⟨_, this⟩
    · exact ⟨s.oscDelta, this⟩

/-- Everything SET_TEMPO can do. -/
theorem execSetTempo_next {npm} {s t : State} (h : execSetTempo npm s = .next t) :
    (∃ c, c ≠ .ok ∧ c ≠ .fatal ∧ t = s.respond .control c []) ∨
      ∃ d, t = State.respond { s with spn := d, tempoValid := true } .control .ok [] := by
  rcases State.gated_next h with ⟨-, rfl⟩ | ⟨-, h⟩
  · exact .inl ⟨_, by simp, by simp, rfl⟩
  split at h
  · exact .inl ⟨_, by simp, by simp, State.answer_next h⟩
  split at h
  · exact .inl ⟨_, by simp, by simp, State.answer_next h⟩
  split at h
  · exact .inl ⟨_, by simp, by simp, State.answer_next h⟩
  split at h
  · cases h
  split at h
  · exact .inl ⟨_, by simp, by simp, State.answer_next h⟩
  · exact .inr ⟨_, State.answer_next h⟩

/-- Everything BUILD_TABLE can do. -/
theorem execBuildTable_next {n hh} {s t : State} (h : execBuildTable n hh s = .next t) :
    (∃ c, c ≠ .ok ∧ c ≠ .fatal ∧ t = s.respond .control c []) ∨
      ∃ m d, t = State.respond { s with tbl := m, tblSize := n, tblHarm := hh, tblValid := true, oscDelta := d } .control .ok [] := by
  rcases State.gated_next h with ⟨-, rfl⟩ | ⟨-, h⟩
  · exact .inl ⟨_, by simp, by simp, rfl⟩
  split at h
  · exact .inl ⟨_, by simp, by simp, State.answer_next h⟩
  split at h
  · exact .inl ⟨_, by simp, by simp, State.answer_next h⟩
  split at h
  · exact .inl ⟨_, by simp, by simp, State.answer_next h⟩
  split at h
  · exact .inl ⟨_, by simp, by simp, State.answer_next h⟩
  · refine .inr ?_
    have := State.answer_next h; unfold State.installTable State.recomputeDelta at this; split at this
    · exact ⟨_, _, this⟩
    · exact ⟨_, s.oscDelta, this⟩

/-- Everything SET_SEQUENCE can do. -/
theorem execSetSequence_next {k v es} {s t : State} (h : execSetSequence k v es s = .next t) :
    (∃ c, c ≠ .ok ∧ c ≠ .fatal ∧ t = s.respond .control c []) ∨
      ∃ a b l, t = State.respond { s with seq0 := a, seq1 := b, genBank := !s.genBank, genLen := l, genVariant := v, genCursor := 0#16, seqMode := .running } .control .ok [] := by
  rcases State.gated_next h with ⟨-, rfl⟩ | ⟨-, h⟩
  · exact .inl ⟨_, by simp, by simp, rfl⟩
  split at h
  · exact .inl ⟨_, by simp, by simp, State.answer_next h⟩
  split at h
  · exact .inl ⟨_, by simp, by simp, State.answer_next h⟩
  split at h
  · exact .inl ⟨_, by simp, by simp, State.answer_next h⟩
  · have := State.answer_next h; rw [State.installSequence_frame] at this
    exact .inr ⟨_, _, _, this⟩

/-- Everything READ_TABLE can do. -/
theorem execReadTable_next {i} {s t : State} (h : execReadTable i s = .next t) :
    (∃ c, c ≠ .ok ∧ c ≠ .fatal ∧ c ≠ .faulted ∧ t = s.respond .control c []) ∨
      ∃ w, t = s.respond .control .ok [w] := by
  unfold execReadTable at h
  split at h
  · exact .inl ⟨_, by simp, by simp, by simp, State.answer_next h⟩
  split at h
  · exact .inl ⟨_, by simp, by simp, by simp, State.answer_next h⟩
  unfold State.answerRead State.answerWord at h
  split at h
  · cases h; exact .inr ⟨_, rfl⟩
  · cases h

/-- Everything READ_REG can do. -/
theorem execReadReg_next {i} {s t : State} (h : execReadReg i s = .next t) :
    (∃ c, c ≠ .ok ∧ c ≠ .fatal ∧ c ≠ .faulted ∧ t = s.respond .control c []) ∨
      ∃ w, t = s.respond .control .ok [w] := by
  unfold execReadReg at h
  split at h
  · exact .inl ⟨_, by simp, by simp, by simp, State.answer_next h⟩
  · cases h; exact .inr ⟨_, rfl⟩

/-- Everything READ_SEQ can do. -/
theorem execReadSeq_next {i} {s t : State} (h : execReadSeq i s = .next t) :
    (∃ c, c ≠ .ok ∧ c ≠ .fatal ∧ c ≠ .faulted ∧ t = s.respond .control c []) ∨
      ∃ w, t = s.respond .control .ok [w] := by
  unfold execReadSeq at h
  split at h
  · exact .inl ⟨_, by simp, by simp, by simp, State.answer_next h⟩
  split at h
  · exact .inl ⟨_, by simp, by simp, by simp, State.answer_next h⟩
  unfold State.answerRead State.answerWord at h
  split at h
  · cases h; exact .inr ⟨_, rfl⟩
  · cases h

end Sys2Proof.Machine
end

