-- ==== Sys2Proof/Laws/Decode.lean ====
section
/-!
SUPPORT. Laws of the header word (30 R41, R42): its two halves, the fields of an encoded header, and which headers select
each row.
-/

namespace Sys2Proof

/-! ### The two halves of a header -/

/-- The upper half of a header with the given fields. -/
def headerHigh (op : Mnemonic) (k v : Bool) : BitVec 16 :=
  op.opcode ++ 0#2 ++ BitVec.ofBool k ++ BitVec.ofBool v ++ 0#4

theorem headerOf_eq (op : Mnemonic) (k v : Bool) (a : BitVec 16) : headerOf op k v a = headerHigh op k v ++ a := rfl

/-- Every word is its upper half and its lower half. -/
theorem eq_append_halves (h : Word) : h = h.extractLsb' 16 16 ++ h.extractLsb' 0 16 := by
  apply BitVec.eq_of_toNat_eq
  rw [BitVec.toNat_append, Nat.shiftLeft_eq, BitVec.extractLsb'_toNat, BitVec.extractLsb'_toNat, Nat.shiftRight_eq_div_pow]
  have hlt := h.isLt
  rw [← Nat.shiftLeft_eq, ← Nat.shiftLeft_add_eq_or_of_lt (by omega), Nat.shiftLeft_eq]
  simp only [Nat.shiftRight_zero]
  omega

theorem append_inj {a b c d : BitVec 16} : a ++ b = c ++ d ↔ a = c ∧ b = d := by
  constructor
  · intro h
    have h1 := congrArg (fun x : BitVec 32 => x.extractLsb' 16 16) h
    have h2 := congrArg (fun x : BitVec 32 => x.extractLsb' 0 16) h
    simp only [BitVec.extractLsb'_append_eq_left, BitVec.extractLsb'_append_eq_right] at h1 h2
    exact ⟨h1, h2⟩
  · rintro ⟨rfl, rfl⟩; rfl

/-- A row whose mask and pattern have the given halves selects by halves. -/
theorem selects_halves {r : HeaderRow} {mh ml ph pl hi lo : BitVec 16} (hm : r.mask = mh ++ ml) (hp : r.pattern = ph ++ pl) :
    r.selects (hi ++ lo) = (decide (hi &&& mh = ph) && decide (lo &&& ml = pl)) := by
  unfold HeaderRow.selects
  rw [hm, hp, BitVec.and_append]
  by_cases h1 : hi &&& mh = ph
  · by_cases h2 : lo &&& ml = pl
    · simp [h1, h2]
    · rw [decide_eq_false h2, Bool.and_false, beq_eq_false_iff_ne, ne_eq, append_inj]
      exact fun h => h2 h.2
  · rw [decide_eq_false h1, Bool.false_and, beq_eq_false_iff_ne, ne_eq, append_inj]
    exact fun h => h1 h.1

/-- Which row a header selects, from its halves (30 R42). -/
theorem selectRow_halves (hi lo : BitVec 16) :
    selectRow (hi ++ lo) =
      if hi = 0x0100#16 ∧ lo = 0#16 then some .buildTable
      else if hi = 0x0200#16 ∧ lo = 0#16 then some .prepare
      else if hi = 0x0300#16 ∧ lo = 0#16 then some .setFrequency
      else if hi = 0x0400#16 ∧ lo = 0#16 then some .setAmplitude
      else if hi = 0x0500#16 ∧ lo = 0#16 then some .setTempo
      else if hi &&& 0xFFCF#16 = 0x0600#16 then some .setSequence
      else if hi = 0x0700#16 then some .fillBlock
      else if hi = 0x0800#16 ∧ lo = 0#16 then some .readTable
      else if hi = 0x0900#16 ∧ lo = 0#16 then some .readReg
      else if hi = 0x0A00#16 ∧ lo = 0#16 then some .readSeq
      else none := by
  have full : ∀ (op : Mnemonic) (ph : BitVec 16),
      HeaderRow.selects (hi ++ lo) ⟨op, ph ++ 0#16, 0xFFFFFFFF#32⟩ = decide (hi = ph ∧ lo = 0#16) := by
    intro op ph
    rw [selects_halves (mh := 0xFFFF#16) (ml := 0xFFFF#16) (ph := ph) (pl := 0#16)
      (show (0xFFFFFFFF#32 : Word) = 0xFFFF#16 ++ 0xFFFF#16 by decide) rfl]
    have e : ∀ x : BitVec 16, x &&& 0xFFFF#16 = x := fun x => BitVec.and_allOnes
    rw [e, e, Bool.decide_and]
  have low : ∀ (op : Mnemonic) (mh ph : BitVec 16),
      HeaderRow.selects (hi ++ lo) ⟨op, ph ++ 0#16, mh ++ 0#16⟩ = decide (hi &&& mh = ph) := by
    intro op mh ph
    rw [selects_halves (mh := mh) (ml := 0#16) (ph := ph) (pl := 0#16) rfl rfl]
    simp
  have e : hi &&& 0xFFFF#16 = hi := BitVec.and_allOnes
  have r1 := full .buildTable 0x0100#16
  have r2 := full .prepare 0x0200#16
  have r3 := full .setFrequency 0x0300#16
  have r4 := full .setAmplitude 0x0400#16
  have r5 := full .setTempo 0x0500#16
  have r6 := low .setSequence 0xFFCF#16 0x0600#16
  have r7 := low .fillBlock 0xFFFF#16 0x0700#16
  have r8 := full .readTable 0x0800#16
  have r9 := full .readReg 0x0900#16
  have r10 := full .readSeq 0x0A00#16
  rw [e] at r7
  unfold selectRow headerRows
  simp only [List.find?_cons, List.find?_nil,
    show (0x01000000#32 : Word) = 0x0100#16 ++ 0#16 by decide, show (0x02000000#32 : Word) = 0x0200#16 ++ 0#16 by decide,
    show (0x03000000#32 : Word) = 0x0300#16 ++ 0#16 by decide, show (0x04000000#32 : Word) = 0x0400#16 ++ 0#16 by decide,
    show (0x05000000#32 : Word) = 0x0500#16 ++ 0#16 by decide, show (0x06000000#32 : Word) = 0x0600#16 ++ 0#16 by decide,
    show (0xFFCF0000#32 : Word) = 0xFFCF#16 ++ 0#16 by decide, show (0x07000000#32 : Word) = 0x0700#16 ++ 0#16 by decide,
    show (0xFFFF0000#32 : Word) = 0xFFFF#16 ++ 0#16 by decide, show (0x08000000#32 : Word) = 0x0800#16 ++ 0#16 by decide,
    show (0x09000000#32 : Word) = 0x0900#16 ++ 0#16 by decide, show (0x0A000000#32 : Word) = 0x0A00#16 ++ 0#16 by decide]
  simp only [r1, r2, r3, r4, r5, r6, r7, r8, r9, r10]
  by_cases c0 : hi = 0x0100#16 ∧ lo = 0#16
  · simp only [decide_eq_true c0, if_pos c0, Option.map_some]
  simp only [decide_eq_false c0, if_neg c0]
  by_cases c1 : hi = 0x0200#16 ∧ lo = 0#16
  · simp only [decide_eq_true c1, if_pos c1, Option.map_some]
  simp only [decide_eq_false c1, if_neg c1]
  by_cases c2 : hi = 0x0300#16 ∧ lo = 0#16
  · simp only [decide_eq_true c2, if_pos c2, Option.map_some]
  simp only [decide_eq_false c2, if_neg c2]
  by_cases c3 : hi = 0x0400#16 ∧ lo = 0#16
  · simp only [decide_eq_true c3, if_pos c3, Option.map_some]
  simp only [decide_eq_false c3, if_neg c3]
  by_cases c4 : hi = 0x0500#16 ∧ lo = 0#16
  · simp only [decide_eq_true c4, if_pos c4, Option.map_some]
  simp only [decide_eq_false c4, if_neg c4]
  by_cases c5 : hi &&& 0xFFCF#16 = 0x0600#16
  · simp only [decide_eq_true c5, if_pos c5, Option.map_some]
  simp only [decide_eq_false c5, if_neg c5]
  by_cases c6 : hi = 0x0700#16
  · simp only [decide_eq_true c6, if_pos c6, Option.map_some]
  simp only [decide_eq_false c6, if_neg c6]
  by_cases c7 : hi = 0x0800#16 ∧ lo = 0#16
  · simp only [decide_eq_true c7, if_pos c7, Option.map_some]
  simp only [decide_eq_false c7, if_neg c7]
  by_cases c8 : hi = 0x0900#16 ∧ lo = 0#16
  · simp only [decide_eq_true c8, if_pos c8, Option.map_some]
  simp only [decide_eq_false c8, if_neg c8]
  by_cases c9 : hi = 0x0A00#16 ∧ lo = 0#16
  · simp only [decide_eq_true c9, if_pos c9, Option.map_some]
  simp only [decide_eq_false c9, if_neg c9]
  rfl

/-- The upper halves that the SET_SEQUENCE row accepts: the two free bits are K and V (30 R41). -/
theorem setSequence_high {hi : BitVec 16} (h : hi &&& 0xFFCF#16 = 0x0600#16) :
    hi = headerHigh .setSequence (hi.getLsbD 5) (hi.getLsbD 4) := by
  have split : hi = (hi &&& 0xFFCF#16) ||| (hi &&& 0x0030#16) := by
    rw [← BitVec.and_or_distrib_left]
    exact (BitVec.and_allOnes (x := hi)).symm
  have free : hi &&& 0x0030#16 =
      (if hi.getLsbD 5 then 0x0020#16 else 0#16) ||| (if hi.getLsbD 4 then 0x0010#16 else 0#16) := by
    rw [show (0x0030#16 : BitVec 16) = BitVec.twoPow 16 5 ||| BitVec.twoPow 16 4 by decide, BitVec.and_or_distrib_left,
      BitVec.and_twoPow, BitVec.and_twoPow]
    rfl
  rw [h, free] at split
  conv_lhs => rw [split]
  cases hi.getLsbD 5 <;> cases hi.getLsbD 4 <;> decide

/-! ### The fields of a header -/

@[simp] theorem headerA_append (hi lo : BitVec 16) : headerA (hi ++ lo) = lo := by
  unfold headerA; exact BitVec.extractLsb'_append_eq_right

theorem headerK_append (hi lo : BitVec 16) : headerK (hi ++ lo) = hi.getLsbD 5 := by
  unfold headerK; rw [BitVec.getLsbD_append]; simp

theorem headerV_append (hi lo : BitVec 16) : headerV (hi ++ lo) = hi.getLsbD 4 := by
  unfold headerV; rw [BitVec.getLsbD_append]; simp

@[simp] theorem kindOfBit_bit (k : EntryKind) : kindOfBit k.bit = k := by cases k <;> rfl
@[simp] theorem variantOfBit_bit (v : Variant) : variantOfBit v.bit = v := by cases v <;> rfl
@[simp] theorem bit_kindOfBit (k : Bool) : (kindOfBit k).bit = k := by cases k <;> rfl
@[simp] theorem bit_variantOfBit (v : Bool) : (variantOfBit v).bit = v := by cases v <;> rfl

/-! ### Bytes (20 R30) -/

theorem wordsOfBytes_append (w : Word) (bs : List Byte) :
    wordsOfBytes (bytesOfWord w ++ bs) = (wordsOfBytes bs).map (w :: ·) := by
  have h : wordOfBytes (w.extractLsb' 0 8) (w.extractLsb' 8 8) (w.extractLsb' 16 8) (w.extractLsb' 24 8) = w := by
    apply BitVec.eq_of_toNat_eq
    unfold wordOfBytes
    have hlt := w.isLt
    simp only [BitVec.toNat_append, BitVec.extractLsb'_toNat, Nat.shiftRight_eq_div_pow]
    rw [← Nat.shiftLeft_add_eq_or_of_lt (by omega), ← Nat.shiftLeft_add_eq_or_of_lt (by omega),
      ← Nat.shiftLeft_add_eq_or_of_lt (by omega)]
    simp only [Nat.shiftLeft_eq]
    omega
  simp only [bytesOfWord, List.cons_append, List.nil_append, wordsOfBytes, h]

theorem wordsOfBytes_flatMap (ws : List Word) : wordsOfBytes (ws.flatMap bytesOfWord) = some ws := by
  induction ws with
  | nil => rfl
  | cons w ws ih => rw [List.flatMap_cons, wordsOfBytes_append, ih]; rfl

end Sys2Proof
end

