-- ==== Sys2Proof/Laws/PerInstr.lean ====
section
/-!
SUPPORT. The families of statements about every command as syntax, one lemma per command.
-/

namespace Sys2Proof.Laws.EncodedRow

open Sys2Proof

/-- The header of a command's packet selects the command's own row of 30 R42, and the packet has as many operand words as
that row asks for (30 R44). -/
def Statement (i : Instr) : Prop :=
  i.wellFormed = true → selectRow (encode i).header = some i.mnemonic ∧
    (encode i).operands.length = operandCount i.mnemonic (headerA (encode i).header)

/-- The header of a command without header operands is a fixed word. -/
theorem fixed_header : ∀ op : Mnemonic, op ≠ .setSequence → op ≠ .fillBlock →
    selectRow (headerOf op false false 0) = some op := by
  intro op; cases op <;> decide +kernel

theorem buildTable (size harmonics : Word) : Statement (.buildTable size harmonics) :=
  fun _ => ⟨fixed_header _ (by decide) (by decide), rfl⟩

theorem prepare (samplesPerBlock sampleRate : Word) : Statement (.prepare samplesPerBlock sampleRate) :=
  fun _ => ⟨fixed_header _ (by decide) (by decide), rfl⟩

theorem setFrequency (freq : Word) : Statement (.setFrequency freq) := fun _ => ⟨fixed_header _ (by decide) (by decide), rfl⟩

theorem setAmplitude (amp : Word) : Statement (.setAmplitude amp) := fun _ => ⟨fixed_header _ (by decide) (by decide), rfl⟩

theorem setTempo (npm : Word) : Statement (.setTempo npm) := fun _ => ⟨fixed_header _ (by decide) (by decide), rfl⟩

theorem setSequence (kind : EntryKind) (variant : Variant) (entries : List Word) :
    Statement (.setSequence kind variant entries) := by
  intro h
  have hl : entries.length < 2 ^ 16 := by simpa [Instr.wellFormed] using h
  have hn : (BitVec.ofNat 16 entries.length).toNat = entries.length := by
    rw [BitVec.toNat_ofNat]; exact Nat.mod_eq_of_lt hl
  have hh : headerHigh .setSequence kind.bit variant.bit &&& 0xFFCF#16 = 0x0600#16 := by
    cases kind <;> cases variant <;> decide
  have hne : ∀ p : BitVec 16, p &&& 0xFFCF#16 ≠ 0x0600#16 →
      ¬(headerHigh .setSequence kind.bit variant.bit = p ∧ BitVec.ofNat 16 entries.length = 0#16) :=
    fun p hp hc => hp (by rw [← hc.1]; exact hh)
  constructor
  · simp only [encode, headerOf_eq, selectRow_halves]
    rw [if_neg (hne _ (by decide)), if_neg (hne _ (by decide)), if_neg (hne _ (by decide)), if_neg (hne _ (by decide)),
      if_neg (hne _ (by decide)), if_pos hh]
    rfl
  · simp only [encode, headerOf_eq, headerA_append, Instr.mnemonic, operandCount, hn]

theorem fillBlock (channels : BitVec 16) (frames : Word) : Statement (.fillBlock channels frames) := by
  intro _
  constructor
  · simp only [encode, headerOf_eq, selectRow_halves, show headerHigh .fillBlock false false = 0x0700#16 by decide]
    simp [Instr.mnemonic]
  · rfl

theorem readTable (index : Word) : Statement (.readTable index) := fun _ => ⟨fixed_header _ (by decide) (by decide), rfl⟩

theorem readReg (selector : Word) : Statement (.readReg selector) := fun _ => ⟨fixed_header _ (by decide) (by decide), rfl⟩

theorem readSeq (index : Word) : Statement (.readSeq index) := fun _ => ⟨fixed_header _ (by decide) (by decide), rfl⟩

end Sys2Proof.Laws.EncodedRow
end

