-- ==== Sys2Proof/Laws/Rounding.lean ====
section
/-!
SUPPORT. Rounding is to the nearest binary32 magnitude with ties to even, and overflows only beyond the largest finite value
and half a last place (00 R3). Distances are whole numbers: the value `num / den` and a magnitude's units, both times `den`.
-/

namespace Sys2Proof.Machine

/-- `nearestEven` is within half of the fraction, and even when exactly half away. -/
theorem nearestEven_spec {a b : Nat} (hb : 0 < b) :
    2 * (nearestEven a b * b) ≤ 2 * a + b ∧ 2 * a ≤ 2 * (nearestEven a b * b) + b ∧
      (2 * (nearestEven a b * b) = 2 * a + b ∨ 2 * a = 2 * (nearestEven a b * b) + b → nearestEven a b % 2 = 0) := by
  have hd := Nat.div_add_mod a b
  have hm := Nat.mod_lt a hb
  have hq : b * (a / b) = a / b * b := Nat.mul_comm _ _
  unfold nearestEven
  split
  · next h =>
    have e : (a / b + 1) * b = a / b * b + b := Nat.succ_mul _ _
    rw [e]
    refine ⟨by omega, by omega, ?_⟩
    rintro (h' | h')
    · rcases h with h | ⟨h1, h2⟩ <;> omega
    · omega
  · next h =>
    refine ⟨by omega, by omega, ?_⟩
    rintro (h' | h') <;> omega

/-- The next magnitude above a significand in a place. -/
theorem units_above {t k m : Nat} (h : t = 0 ∨ 2 ^ 23 ≤ k) (hk : k ≤ 2 ^ 24) (hm : t * 2 ^ 23 + k < m) :
    (k + 1) * 2 ^ t ≤ units m := by
  have hle : units (t * 2 ^ 23 + k + 1) ≤ units m := units_le_units.2 hm
  refine le_trans ?_ hle
  rcases Nat.lt_or_eq_of_le hk with hlt | rfl
  · rw [Nat.add_assoc, units_place (by omega) (by omega)]
  · rw [show t * 2 ^ 23 + 2 ^ 24 + 1 = (t + 1) * 2 ^ 23 + (2 ^ 23 + 1) by omega, units_place (by omega) (by omega), pow_succ]
    calc (2 ^ 24 + 1) * 2 ^ t ≤ (2 ^ 23 + 1) * 2 * 2 ^ t := Nat.mul_le_mul_right _ (by norm_num)
      _ = (2 ^ 23 + 1) * (2 ^ t * 2) := by ring

/-- The magnitudes below a significand that is not the least of its place. -/
theorem units_below {t k m : Nat} (h : t = 0 ∨ 2 ^ 23 < k) (hk : k ≤ 2 ^ 24) (hm : m < t * 2 ^ 23 + k) :
    units m + 2 ^ t ≤ k * 2 ^ t := by
  have hle : units m ≤ units (t * 2 ^ 23 + (k - 1)) := units_le_units.2 (by omega)
  rw [units_place (by omega) (by omega)] at hle
  have hk0 : 1 ≤ k := by omega
  have e : k * 2 ^ t = (k - 1) * 2 ^ t + 2 ^ t := by
    conv_lhs => rw [← Nat.sub_add_cancel hk0]
    exact Nat.succ_mul _ _
  omega

/-- No magnitude is nearer to the fraction than its rounding, where that is finite, and where another is as near, the
rounding is even. -/
theorem roundMag_nearest {num den : Nat} (hd : 0 < den) (hf : roundMag num den < infMag) (m : Nat) :
    ((units (roundMag num den) * den : Nat) - num : Int).natAbs ≤ ((units m * den : Nat) - num : Int).natAbs ∧
      (((units (roundMag num den) * den : Nat) - num : Int).natAbs = ((units m * den : Nat) - num : Int).natAbs →
        m ≠ roundMag num den → roundMag num den % 2 = 0) := by
  obtain ⟨h1, h2⟩ := rounded_place num den
  obtain ⟨-, hq⟩ := dropped_spec (num / den)
  generalize ht : dropped (num / den) = t at *
  have hpos : 0 < den * 2 ^ t := Nat.mul_pos hd (Nat.two_pow_pos t)
  obtain ⟨e1, e2, e3⟩ := nearestEven_spec (a := num) hpos
  have hr : roundMag num den = t * 2 ^ 23 + nearestEven num (den * 2 ^ t) := by
    unfold roundMag at hf ⊢
    rw [ht] at hf ⊢
    simp only at hf ⊢
    omega
  generalize nearestEven num (den * 2 ^ t) = k at *
  have hu : units (roundMag num den) = k * 2 ^ t := by rw [hr]; exact units_place h1 h2
  rw [hu]
  have hkd : k * (den * 2 ^ t) = k * 2 ^ t * den := by ring
  rw [hkd] at e1 e2 e3
  have heven : k % 2 = 0 → roundMag num den % 2 = 0 := by
    intro hk; rw [hr]; omega
  rcases Nat.lt_trichotomy m (roundMag num den) with hlt | heq | hgt
  · rw [hr] at hlt
    by_cases hlow : t = 0 ∨ 2 ^ 23 < k
    · have hb := Nat.mul_le_mul_right den (units_below hlow h2 hlt)
      rw [Nat.add_mul, Nat.mul_comm (2 ^ t) den] at hb
      generalize den * 2 ^ t = p at *
      generalize k * 2 ^ t * den = a at *
      generalize units m * den = u at *
      refine ⟨by omega, fun he hne => heven (e3 ?_)⟩
      omega
    · have hk : k = 2 ^ 23 := by omega
      have hle : k * 2 ^ t * den ≤ num := by
        rcases hq with h0 | hq
        · omega
        · calc k * 2 ^ t * den = 2 ^ (t + 23) * den := by rw [hk, ← pow_add, Nat.add_comm 23 t]
            _ ≤ num / den * den := Nat.mul_le_mul_right _ hq
            _ ≤ num := Nat.div_mul_le_self _ _
      have hb : units m * den < k * 2 ^ t * den := by
        refine Nat.mul_lt_mul_of_pos_right ?_ hd
        rw [← hu, units_lt_units, hr]; exact hlt
      generalize k * 2 ^ t * den = a at *
      generalize units m * den = u at *
      exact ⟨by omega, fun he => by omega⟩
  · subst heq
    rw [hu]
    exact ⟨le_rfl, fun _ hne => absurd rfl hne⟩
  · rw [hr] at hgt
    have hb := Nat.mul_le_mul_right den (units_above h1 h2 hgt)
    have e : (k + 1) * 2 ^ t * den = k * 2 ^ t * den + den * 2 ^ t := by ring
    rw [e] at hb
    generalize den * 2 ^ t = p at *
    generalize k * 2 ^ t * den = a at *
    generalize units m * den = u at *
    refine ⟨by omega, fun he hne => heven (e3 ?_)⟩
    omega

/-- A fraction below the largest finite value and half its last place rounds to a finite value. -/
theorem roundMag_lt_infMag {num den : Nat} (hd : 0 < den) (h : num < (2 ^ 25 - 1) * 2 ^ 252 * den) :
    roundMag num den < infMag := by
  have hq : num / den < (2 ^ 25 - 1) * 2 ^ 252 := (Nat.div_lt_iff_lt_mul hd).2 h
  have hlog : Nat.log2 (num / den) < 277 := by
    rcases Nat.eq_zero_or_pos (num / den) with h0 | h0
    · rw [h0]; decide
    · refine (Nat.log2_lt (by omega)).2 (lt_of_lt_of_le hq ?_)
      rw [show (2 : Nat) ^ 277 = 2 ^ 25 * 2 ^ 252 from (pow_add 2 25 252)]
      exact Nat.mul_le_mul_right _ (by norm_num)
  obtain ⟨-, h2⟩ := rounded_place num den
  have ht : dropped (num / den) ≤ 253 := by unfold dropped; omega
  have hI : infMag = 255 * 2 ^ 23 := by decide
  unfold roundMag
  simp only
  rcases Nat.lt_or_eq_of_le ht with hlt | heq
  · have : dropped (num / den) * 2 ^ 23 ≤ 252 * 2 ^ 23 := Nat.mul_le_mul_right _ (by omega)
    rw [hI]
    omega
  · rw [heq] at h2 ⊢
    obtain ⟨e1, -, -⟩ := nearestEven_spec (a := num) (b := den * 2 ^ 253) (Nat.mul_pos hd (Nat.two_pow_pos _))
    have hk : nearestEven num (den * 2 ^ 253) ≤ 2 ^ 24 - 1 := by
      by_contra hc
      have hge : 2 ^ 24 * (den * 2 ^ 253) ≤ nearestEven num (den * 2 ^ 253) * (den * 2 ^ 253) :=
        Nat.mul_le_mul_right _ (by omega)
      have e2 : (2 ^ 25 - 1) * 2 ^ 252 * den * 2 + den * 2 ^ 253 = 2 * (2 ^ 24 * (den * 2 ^ 253)) := by
        rw [show (2 : Nat) ^ 253 = 2 * 2 ^ 252 from by rw [pow_succ]; ring]
        generalize (2 : Nat) ^ 252 = z
        norm_num
        ring
      omega
    rw [hI]; omega

/-- A fraction that is not below that rounds to infinity. -/
theorem roundMag_eq_infMag {num den : Nat} (hd : 0 < den) (h : (2 ^ 25 - 1) * 2 ^ 252 * den ≤ num) :
    roundMag num den = infMag := by
  have h1 : roundMag ((2 ^ 25 - 1) * 2 ^ 252) 1 = infMag := by decide +kernel
  have h2 := roundMag_mono (n1 := (2 ^ 25 - 1) * 2 ^ 252) (d1 := 1) (n2 := num) (d2 := den) Nat.one_pos hd
    (by rw [Nat.mul_one]; exact h)
  have h3 := roundMag_le_infMag num den
  omega

end Sys2Proof.Machine
end

