-- ==== Sys2Proof/Tests/Slice0.lean ====
section
/-!
SUPPORT. The model's own tests: words and values taken from the spec's vectors (95_test_vectors.md part 2 and 3, named in each
comment), the smoke test of WellFormed, and for each obligation with hypotheses a concrete state that meets them.
-/

namespace Sys2Proof.Tests

open Sys2Proof Sys2Proof.Machine

set_option Elab.async false

/-! ### Helpers -/

/-- The next state, if there is one. -/
def after (r : Result) : Option State :=
  match r with
  | .next s => some s
  | .fault _ => none
  | .refused _ => none

/-- The last response of a result. -/
def answerOf (r : Result) : Option Response := (after r).bind fun s => s.responses.head?

/-- The block after P1 lines 1 to 5 (95 part 3): the table of V-T1, a stream of 4 frames at 8 Hz, amplitude 1.0, `spn` 4,
the sequence 1.0, 2.0 in bank 1. -/
def bench : State :=
  { State.reset with
    tblValid := true, tblSize := 5#32, tblHarm := 1#32, oscAmp := 0x3F800000#32, prepared := true, sr := 0x41000000#32,
    spb := 4#32, tempoValid := true, spn := 4#32, seqMode := .running, genBank := true, genLen := 2#16,
    tbl := [(0, 0x00000000#32), (1, 0x3F800000#32), (2, 0x00000000#32), (3, 0xBF800000#32), (4, 0x00000000#32),
      (5, 0x00000000#32)],
    seq1 := [(0, 0x3F800000#32), (1, 0x40000000#32)] }

/-- The same block after V-B8: faulted, cause BLOCK_TOO_LARGE. -/
def broken : State := { bench with faulted := true, faultCause := .blockTooLarge }

/-- The Random source of V-F6: entries 1.0, 2.0, 4.0, the second advance's draws supplied. -/
def dice : State :=
  { bench with
    genVariant := .random, genLen := 3#16, genCursor := 1#16,
    seq1 := [(0, 0x3F800000#32), (1, 0x40000000#32), (2, 0x40800000#32)], draws := [0x3F400000, 2] }

/-! ### WellFormed -/

theorem test_wellFormed_accepts_the_longest_list :
    (Instr.setSequence .hz .sequence (List.replicate 65535 0#32)).wellFormed = true := by
  simp only [Instr.wellFormed, List.length_replicate]; decide

theorem test_wellFormed_refuses_a_list_too_long :
    (Instr.setSequence .midi .random (List.replicate 65536 0#32)).wellFormed = false := by
  simp only [Instr.wellFormed, List.length_replicate]; decide

/-! ### Decoding: words of 30 R42 and 95 V-E -/

theorem test_decode_buildTable : decode .control ⟨0x01000000#32, [5#32, 1#32]⟩ = .instr (.buildTable 5#32 1#32) := by
  decide +kernel
theorem test_decode_prepare :
    decode .control ⟨0x02000000#32, [4#32, 0x41000000#32]⟩ = .instr (.prepare 4#32 0x41000000#32) := by decide +kernel
theorem test_decode_setFrequency :
    decode .control ⟨0x03000000#32, [0x40000000#32]⟩ = .instr (.setFrequency 0x40000000#32) := by decide +kernel
theorem test_decode_setAmplitude :
    decode .control ⟨0x04000000#32, [0x3F800000#32]⟩ = .instr (.setAmplitude 0x3F800000#32) := by decide +kernel
theorem test_decode_setTempo :
    decode .control ⟨0x05000000#32, [0x42F00000#32]⟩ = .instr (.setTempo 0x42F00000#32) := by decide +kernel
theorem test_decode_setSequence :
    decode .control ⟨0x06100003#32, [0x3F800000#32, 0x40000000#32, 0x40800000#32]⟩ =
      .instr (.setSequence .hz .random [0x3F800000#32, 0x40000000#32, 0x40800000#32]) ∧
    decode .control ⟨0x06200001#32, [0x45#32]⟩ = .instr (.setSequence .midi .sequence [0x45#32]) := by decide +kernel
theorem test_decode_fillBlock : decode .audio ⟨0x07000002#32, [4#32]⟩ = .instr (.fillBlock 2#16 4#32) := by decide +kernel
theorem test_decode_readTable : decode .control ⟨0x08000000#32, [5#32]⟩ = .instr (.readTable 5#32) := by decide +kernel
theorem test_decode_readReg : decode .control ⟨0x09000000#32, [13#32]⟩ = .instr (.readReg 13#32) := by decide +kernel
theorem test_decode_readSeq : decode .control ⟨0x0A000000#32, [0#32]⟩ = .instr (.readSeq 0#32) := by decide +kernel

/-- V-E1 to V-E9 and V-E11. -/
theorem test_decode_rejects :
    decode .control ⟨0x00000000#32, []⟩ = .illegal .noHeaderRow ∧
    decode .control ⟨0x0B000000#32, []⟩ = .illegal .noHeaderRow ∧
    decode .control ⟨0x01000001#32, [5#32, 1#32]⟩ = .illegal .noHeaderRow ∧
    decode .control ⟨0x01000000#32, [5#32]⟩ = .illegal .wrongLength ∧
    decode .audio ⟨0x01000000#32, [5#32, 1#32]⟩ = .illegal .wrongPort ∧
    decode .control ⟨0x07000001#32, [4#32]⟩ = .illegal .wrongPort ∧
    decode .control ⟨0x06400001#32, [0x3F800000#32]⟩ = .illegal .noHeaderRow ∧
    decode .control ⟨0x06010001#32, [0x3F800000#32]⟩ = .illegal .noHeaderRow ∧
    decode .control ⟨0x06000002#32, [0x3F800000#32]⟩ = .illegal .wrongLength ∧
    decode .control ⟨0x03100000#32, [0x3F800000#32]⟩ = .illegal .noHeaderRow := by decide +kernel

/-- 20 R30: the header of SET_SEQUENCE with A = 1 is the bytes 01 00 00 06. -/
theorem test_bytes :
    decodeBytes .control [0x01#8, 0x00#8, 0x00#8, 0x06#8, 0x00#8, 0x00#8, 0x80#8, 0x3F#8] =
      .instr (.setSequence .hz .sequence [0x3F800000#32]) ∧
    decodeBytes .control [0x01#8, 0x00#8] = .illegal .raggedBytes ∧ decodeBytes .control [] = .illegal .emptyPacket := by
  decide +kernel

theorem test_table_row :
    decodeTableWord 64 0x00000005_08000000 = some (.readTable 5#32) ∧ decodeTableWord 32 0x0B000000 = none := by
  decide +kernel

theorem test_fetch_word :
    answerOf (step (State.reset.withFetchWord 64 0x00000002_04000000)) = some ⟨.control, .ok, []⟩ := by decide +kernel

/-! ### Arithmetic: 95 V-O9, V-S1, V-Q8, V-F1 -/

theorem test_sum_rounds_to_the_size : fadd 0x40555555#32 0x3FD55555#32 = 0x40A00000#32 := by decide +kernel
theorem test_wrap_of_the_size : wrapN 0x40A00000#32 5 = 0x00000000#32 ∧ wrapN 0x40C80000#32 5 = 0x3FA00000#32 := by
  decide +kernel
theorem test_division_rounds : fdiv 0x42C80000#32 0x42700000#32 = 0x3FD55555#32 := by decide +kernel
theorem test_largest_increment : fdiv (fmul 0x5F800000#32 (toF32 5)) 0x41000000#32 = 0x5F200000#32 := by decide +kernel
theorem test_note_length : roundHalfAway (noteLength 0x473B8000#32 0x40E00000#32) = 411429 := by decide +kernel
theorem test_note_length_overflows : noteLength 0x473B8000#32 0x00000001#32 = 0x7F800000#32 := by decide +kernel
theorem test_midi_exponent : fdiv (toF32 (70 - 69)) 0x41400000#32 = 0x3DAAAAAB#32 := by decide +kernel

/-! ### One step of each command: 95 part 2 -/

/-- V-T3: the table does not depend on the free part of SIN_TURN, since N - 1 = 4. -/
theorem test_buildTable : (after (exec (.buildTable 5#32 3#32) State.reset)).map State.tbl = some bench.tbl := by
  decide +kernel
/-- V-T14: the size check comes first. -/
theorem test_buildTable_size_first :
    answerOf (exec (.buildTable 3#32 1#32) bench) = some ⟨.control, .invalidArgument, []⟩ ∧
    answerOf (exec (.buildTable 9#32 1#32) bench) = some ⟨.control, .invalidState, []⟩ := by decide +kernel
/-- V-Q13's last line. -/
theorem test_prepare :
    (after (exec (.prepare 4#32 0x41000000#32)
      { bench with prepared := false, sr := 0#32, spb := 0#32, oscFreq := 0x3F800000#32 })).map State.oscDelta =
      some 0x3F200000#32 := by decide +kernel
/-- V-S3: 4097 frames, and a rate of 0.5. -/
theorem test_prepare_rejects :
    answerOf (exec (.prepare 4097#32 0x473B8000#32) State.reset) = some ⟨.control, .invalidArgument, []⟩ ∧
    answerOf (exec (.prepare 512#32 0x3F000000#32) State.reset) = some ⟨.control, .invalidArgument, []⟩ := by decide +kernel
/-- V-Q4. -/
theorem test_setFrequency :
    (after (exec (.setFrequency 0x41200000#32) bench)).map State.oscDelta = some 0x40C80000#32 := by decide +kernel
/-- V-Q7 and V-Q9. -/
theorem test_setFrequency_limits :
    (after (exec (.setFrequency 0x80000000#32) bench)).map State.oscDelta = some 0x80000000#32 ∧
    answerOf (exec (.setFrequency 0x5F800001#32) bench) = some ⟨.control, .invalidArgument, []⟩ := by decide +kernel
/-- V-A2. -/
theorem test_setAmplitude :
    (after (exec (.setAmplitude 0xC0000000#32) State.reset)).map State.oscAmp = some 0xC0000000#32 := by decide +kernel
/-- V-A6. -/
theorem test_setAmplitude_nan :
    (after (exec (.setAmplitude 0x7FC00000#32) State.reset)).map State.oscAmp = some 0x00000000#32 := by decide +kernel
/-- V-S1 at 8 Hz: 960 notes a minute is half a frame, which rounds away from zero. -/
theorem test_setTempo : (after (exec (.setTempo 0x44700000#32) bench)).map State.spn = some 1#32 := by decide +kernel
/-- V-S2: before PREPARE. -/
theorem test_setTempo_unprepared :
    answerOf (exec (.setTempo 0x42700000#32) State.reset) = some ⟨.control, .invalidState, []⟩ := by decide +kernel
/-- V-F2's second row. -/
theorem test_setSequence :
    (after (exec (.setSequence .midi .sequence [0x45#32, 0x51#32]) State.reset)).map State.seq1 =
      some [(0, 0x43DC0000#32), (1, 0x445C0000#32)] := by decide +kernel
/-- V-F3: a NaN in entry 1 stores no entry. -/
theorem test_setSequence_bad_entry :
    (after (exec (.setSequence .hz .sequence [0x3F800000#32, 0x7FC00000#32]) State.reset)).map State.seq1 = some [] := by
  decide +kernel
/-- P1 line 8: a boundary, then the samples of V-O1 on two channels. -/
theorem test_fillBlock :
    answerOf (exec (.fillBlock 2#16 4#32) { bench with elapsed := 8#64 }) =
      some ⟨.audio, .ok, [0x00000000#32, 0x3F200000#32, 0x3F400000#32, 0x3E000000#32,
        0x00000000#32, 0x3F200000#32, 0x3F400000#32, 0x3E000000#32]⟩ := by decide +kernel
/-- V-B8. -/
theorem test_fillBlock_fatal : after (exec (.fillBlock 1#16 5#32) bench) =
    some { broken with responses := [⟨.audio, .fatal, [0#32, 0#32, 0#32, 0#32, 0#32]⟩] } := by decide +kernel
/-- V-D2. -/
theorem test_readTable : answerOf (exec (.readTable 3#32) bench) = some ⟨.control, .ok, [0xBF800000#32]⟩ := by
  decide +kernel
/-- V-D3 and V-D4. -/
theorem test_readTable_guard :
    answerOf (exec (.readTable 5#32) bench) = some ⟨.control, .ok, [0x00000000#32]⟩ ∧
    answerOf (exec (.readTable 6#32) bench) = some ⟨.control, .invalidArgument, []⟩ := by decide +kernel
/-- V-B11. -/
theorem test_readReg : answerOf (exec (.readReg 0#32) broken) = some ⟨.control, .ok, [0x0000055F#32]⟩ := by decide +kernel
/-- V-D6. -/
theorem test_readReg_14 : answerOf (exec (.readReg 14#32) bench) = some ⟨.control, .invalidArgument, []⟩ := by
  decide +kernel
/-- V-D10: reads work while faulted. -/
theorem test_readSeq : answerOf (exec (.readSeq 0#32) broken) = some ⟨.control, .ok, [0x3F800000#32]⟩ := by decide +kernel
/-- V-D9. -/
theorem test_readSeq_end : answerOf (exec (.readSeq 2#32) bench) = some ⟨.control, .invalidArgument, []⟩ := by
  decide +kernel

/-- V-F6, the second advance: 0.75 is a jump, J = 2. -/
theorem test_random_jump : (dice.nextFrequency.toOption).map (fun r => (r.1, r.2.1, r.2.2.genCursor)) =
    some (2, 0x40800000#32, 0#16) := by decide +kernel
/-- A parameter SIN_TURN that 00 R9 allows and that makes a table degenerate (41 R63). -/
theorem test_degenerate_table : tableWords (sinTurnWith fun _ _ => 0#32) 4 1 = none := by decide +kernel
/-- 70 R102 from the faulted block. -/
theorem test_reset_clears_the_fault :
    (after (step { broken with pending := [.reset] })).map (fun s => (s.faulted, s.tblValid, s.tbl)) =
      some (false, false, []) := by decide +kernel

/-! ### The listing's lines (30 R49, R50) -/

theorem test_lines :
    assembleLine "SET_SEQUENCE.seq.hz 1.0, 2.0" = some (.setSequence .hz .sequence [0x3F800000#32, 0x40000000#32]) ∧
    assembleLine "SET_SEQUENCE.rand.midi 69, 81, 57" = some (.setSequence .midi .random [69#32, 81#32, 57#32]) ∧
    assembleLine "READ_REG OSC_AMP" = some (.readReg 5#32) ∧
    assembleLine "FILL_BLOCK 2, 0x10" = some (.fillBlock 2#16 16#32) ∧
    assembleLine "SET_AMPLITUDE f32:0x00000001" = some (.setAmplitude 1#32) := by decide +kernel
theorem test_pseudo_lines :
    assembleLine "SILENCE" = some (.setAmplitude 0#32) ∧
    assembleLine "SET_SEQUENCE_MIDI 69, 81" = some (.setSequence .midi .sequence [69#32, 81#32]) ∧
    assembleLine "SET_SEQUENCE 440.0" = some (.setSequence .hz .sequence [0x43DC0000#32]) := by decide +kernel

/-! ### Witnesses: for each obligation with hypotheses, values that meet them -/

theorem test_bench_sound : bench.Inv where
  legal := ⟨by decide, by decide, by decide, by decide, by decide⟩
  fault := by unfold State.FaultSound; decide
  table := ⟨fun h => (by cases h), fun _ =>
    { size := by decide
      harm := by decide
      readable := fun i hi => by
        replace hi : i ≤ 5 := hi
        interval_cases i <;> exact ⟨_, rfl, by decide +kernel⟩
      guardWord := by decide }⟩
  index := ⟨by decide, by decide, fun _ => by decide +kernel, fun h => (by cases h)⟩
  delta := ⟨fun _ => by decide +kernel, fun h => absurd ⟨rfl, rfl⟩ h⟩
  amp := by decide
  stream := ⟨fun _ => ⟨by decide +kernel, by decide, by decide⟩, fun h => (by cases h)⟩
  tempo := ⟨fun _ => rfl, fun h => (by cases h)⟩
  source := ⟨fun _ =>
    { len := by decide
      cursor := by decide
      readable := fun j hj => by
        replace hj : j < 2 := hj
        interval_cases j <;> exact ⟨_, rfl⟩ }, fun h => (by cases h)⟩
  timer := by decide
  memories := by unfold State.MemoriesWf; decide

/-- The bench is sound at any timer value up to 4100 and with anything pending. -/
theorem test_bench_sound_at (e : BitVec 64) (he : e.toNat ≤ 4100) (p : List Event) :
    State.Inv { bench with elapsed := e, pending := p } :=
  { test_bench_sound with
    source := ⟨fun h => ⟨(test_bench_sound.source.1 h).1, (test_bench_sound.source.1 h).2,
      (test_bench_sound.source.1 h).3⟩, fun h => (by cases h)⟩
    table := ⟨fun h => (by cases h), fun h => ⟨(test_bench_sound.table.2 h).1, (test_bench_sound.table.2 h).2,
      (test_bench_sound.table.2 h).3, (test_bench_sound.table.2 h).4⟩⟩
    timer := by
      show e.toNat ≤ Config.spnMax + 4096
      unfold Config.spnMax; omega }

theorem test_bench_ready (e : BitVec 64) : State.ReadyToFill { bench with elapsed := e } 2#16 4#32 :=
  ⟨rfl, (by decide : bench.shapeOk 2#16 4#32 = true), rfl, (by decide : bench.runningCause 4#32 = none)⟩

theorem test_witness_StepDecodesInOrder :
    selectRow 0x00000000#32 = none ∧
    (selectRow 0x01000000#32 = some .buildTable ∧ [5#32].length ≠ operandCount .buildTable (headerA 0x01000000#32)) ∧
    (selectRow 0x07000001#32 = some .fillBlock ∧ [4#32].length = operandCount .fillBlock (headerA 0x07000001#32) ∧
      Port.control ≠ Mnemonic.fillBlock.port) ∧
    (selectRow 0x06000000#32 = some .setSequence ∧
      ([] : List Word).length = operandCount .setSequence (headerA 0x06000000#32) ∧
      Port.control = Mnemonic.setSequence.port) := by decide +kernel

theorem test_witness_UnknownHeadersAreIllegal :
    selectRow 0x03100000#32 = none ∧
    (0x00FFFFFF#32).toNat / 2 ^ 24 = 0 ∧ 0x0B ≤ (0x0B000000#32).toNat / 2 ^ 24 ∧
    (0x06400001#32).toNat / 2 ^ 22 % 4 ≠ 0 ∧ (0x06010001#32).toNat / 2 ^ 16 % 16 ≠ 0 := by decide +kernel

theorem test_witness_pending_events :
    ({ bench with pending := [.reset] } : State).pending = .reset :: [] ∧
    ({ bench with pending := [.takeNote] } : State).pending = .takeNote :: [] ∧
    ({ bench with pending := [.supplyDraw 7] } : State).pending = .supplyDraw 7 :: [] ∧ bench.pending = [] ∧
    1 ≤ (8#16).toNat ∧ (8#16).toNat ≤ State.reset.params.channelsMax ∧ (4096#32).toNat ≤ State.reset.params.blockMax :=
  ⟨rfl, rfl, rfl, rfl, by decide, by decide, by decide⟩

/-- The bench's frequencies are within their bounds. -/
theorem test_bench_freq_sound (e : BitVec 64) (p : List Event) :
    State.FreqSound { bench with elapsed := e, pending := p } where
  freq := by show freqAccepted bench.oscFreq = true; decide +kernel
  bounded := (⟨by decide, by decide, by decide +kernel⟩ : bench.DeltaBounded)
  entries := by
    intro _ j v hj hv
    replace hj : j < 2 := hj
    replace hv : memRead bench.seq1 j = some v := hv
    interval_cases j <;> (cases hv; decide +kernel)

/-- A packet whose MIDI notes convert as 42 R69 says, whatever EXP2 is: notes 69 and 81, at octaves (V-F1). -/
theorem test_octaves_fit : (Event.command .control ⟨0x06200002#32, [0x45#32, 0x51#32]⟩).MidiFits := by
  intro p k v es he hd
  cases he
  have hi : decode .control ⟨0x06200002#32, [0x45#32, 0x51#32]⟩ = .instr (.setSequence .midi .sequence [0x45#32, 0x51#32]) := by
    decide +kernel
  have h69 : freqAccepted (midiToHz 69) = true := by decide +kernel
  have h81 : freqAccepted (midiToHz 81) = true := by decide +kernel
  simp only [hi, Decoded.instr.injEq, Instr.setSequence.injEq] at hd
  obtain ⟨-, -, rfl⟩ := hd
  intro w hw _
  simp only [List.mem_cons, List.not_mem_nil, or_false] at hw
  rcases hw with rfl | rfl
  · exact h69
  · exact h81

theorem test_witness_FreqSound_step :
    State.Inv { bench with pending := [.command .control ⟨0x06200002#32, [0x45#32, 0x51#32]⟩] } ∧
    State.FreqSound { bench with pending := [.command .control ⟨0x06200002#32, [0x45#32, 0x51#32]⟩] } ∧
    (after (step { bench with pending := [.command .control ⟨0x06200002#32, [0x45#32, 0x51#32]⟩] })).map State.seq0 =
      some [(0, 0x43DC0000#32), (1, 0x445C0000#32)] :=
  ⟨test_bench_sound_at 0#64 (by decide) _, test_bench_freq_sound 0#64 _, by decide +kernel⟩

/-- The power under note 81 is 2, far below the bound of the statement. -/
theorem test_witness_MidiFrequenciesAreInRange :
    realValue (exp2 (fdiv (toF32 ((81 : Nat) - 69 : Int)) 0x41400000#32)) ≤ 2 ^ 55 := by
  have h : exp2 (fdiv (toF32 ((81 : Nat) - 69 : Int)) 0x41400000#32) = 0x40000000#32 := by decide +kernel
  have hv : fval 0x40000000#32 = 2 ^ 150 := by decide +kernel
  rw [h, realValue, hv]; norm_num

/-- A sum at which `wrapN` is not defined: the phase is free there, but in the table (log 22). -/
theorem test_infinite_increment :
    inDomain (fadd 0x3F800000#32 0x7F800000#32) = false ∧
    (after (exec (.fillBlock 1#16 1#32) { bench with oscDelta := 0x7F800000#32 })).isSome = true := by decide +kernel

/-- A sound state with a step to a next state: the invariants' witness. -/
theorem test_witness_EveryStepKeepsSoundness :
    State.Inv { bench with elapsed := 5#64, pending := [.command .audio ⟨0x07000002#32, [4#32]⟩] } ∧
    ((after (step { bench with elapsed := 5#64, pending := [.command .audio ⟨0x07000002#32, [4#32]⟩] })).map
      State.elapsed) = some 4#64 :=
  ⟨test_bench_sound_at _ (by decide) _, by decide +kernel⟩

/-- Every clause of the writers' rule: each command answers a next state, and no clause's exception covers all ten. -/
theorem test_witness_OnlyTheNamedCommandsWrite :
    [Instr.buildTable 5#32 1#32, .prepare 4#32 0x41000000#32, .setFrequency 0x3F800000#32, .setAmplitude 0x3F800000#32,
      .setTempo 0x42F00000#32, .setSequence .hz .sequence [0x3F800000#32], .fillBlock 2#16 4#32, .readTable 0#32,
      .readReg 0#32, .readSeq 0#32].all (fun i => (after (exec i bench)).isSome) = true := by decide +kernel

theorem test_witness_PhaseMovesOnlyInFillBlock :
    Event.takeNote ≠ .reset ∧ (after (step { bench with pending := [.takeNote] })).isSome = true ∧
    decode .audio ⟨0x04000000#32, [0#32]⟩ = .illegal .wrongPort := by decide +kernel

theorem test_witness_RejectedCommandsChangeNothing :
    answerOf (exec (.setTempo 0#32) bench) = some ⟨.control, .invalidArgument, []⟩ ∧
    answerOf (exec (.fillBlock 0#16 4#32) bench) = some ⟨.audio, .fatal, []⟩ := by decide +kernel

theorem test_witness_FaultedBlockAnswersFaulted :
    broken.faulted = true ∧ isReadBack (.setTempo 0#32) = false ∧ (Instr.setTempo 0#32).port = .control ∧
    ((8#16).toNat ≤ broken.params.channelsMax ∧ (4096#32).toNat ≤ broken.params.blockMax) ∧
    ((0#16).toNat < 1 ∧ broken.params.channelsMax < (9#16).toNat ∧ broken.params.blockMax < (4097#32).toNat) ∧
    (isReadBack (.readReg 0#32) = true ∧ (after (exec (.readReg 0#32) broken)).isSome = true) ∧
    (after (step { broken with pending := [.takeNote] })).isSome = true := by decide +kernel

theorem test_witness_FatalFaultsInOrder :
    (bench.faulted = false ∧ bench.params.channelsMax < (9#16).toNat) ∧
    (1 ≤ (1#16).toNat ∧ (1#16).toNat ≤ bench.params.channelsMax ∧ (4096#32).toNat ≤ bench.params.blockMax ∧
      bench.seqMode = .running) ∧
    bench.spb.toNat < (5#32).toNat ∧
    ({ bench with tblValid := false } : State).tblValid = false ∧
    ({ bench with prepared := false } : State).prepared = false ∧
    ({ bench with tempoValid := false } : State).tempoValid = false := by decide +kernel

theorem test_witness_SetAmplitude_SetFrequency :
    (0x7F800000#32 : F32).extractLsb' 23 8 = 0xFF#8 ∧ (0x7F7FFFFF#32 : F32).extractLsb' 23 8 ≠ 0xFF#8 ∧
    (0x5F800000#32 : F32).toNat ≤ 0x5F800000 ∧ (0x80000000#32 : F32).toNat = 0x80000000 ∧
    ¬((0x5F800001#32 : F32).toNat ≤ 0x5F800000 ∨ (0x5F800001#32 : F32).toNat = 0x80000000) := by decide +kernel

theorem test_witness_PlanarBuffer : (7 : Nat) < 8 ∧ (1 : Nat) < [0x3F800000#32, (0#32 : F32)].length := by decide

/-- Each clause of the table builder's rule at a limit; `test_degenerate_table` shows the degenerate clause. -/
theorem test_witness_BuildTableRule :
    ((3#32).toNat < 4 ∧ State.reset.params.tableSizeMax < (4097#32).toNat) ∧
    ((4#32).toNat ≤ State.reset.params.tableSizeMax ∧ (0#32).toNat < 1 ∧ State.reset.params.harmonicsMax < (4097#32).toNat) ∧
    (bench.tblValid = true ∧ State.reset.tblValid = false ∧ State.reset.faulted = false ∧
      4 ≤ (5#32).toNat ∧ (5#32).toNat ≤ State.reset.params.tableSizeMax) ∧
    feq (fmaxList (rawTable sinTurn 5 1)) (fminList (rawTable sinTurn 5 1)) = false := by decide +kernel

theorem test_witness_BuiltTableIsNormalized :
    Params.reference.Legal ∧ answerOf (exec (.buildTable 5#32 1#32) State.reset) = some ⟨.control, .ok, []⟩ :=
  ⟨test_bench_sound.legal, by decide +kernel⟩

/-- Each clause of the load rule at a limit. -/
theorem test_witness_SetSequenceRule :
    State.reset.params.seqMax < (List.replicate 65 (0#32 : Word)).length ∧
    (List.replicate 64 (0#32 : Word)).length ≤ State.reset.params.seqMax ∧
    ¬((0x5F800001#32 : Word).toNat ≤ 0x5F800000 ∨ (0x5F800001#32 : Word).toNat = 0x80000000) ∧
    ¬((128#32 : Word).toNat ≤ 127) ∧ (127#32 : Word).toNat ≤ 127 := by decide +kernel

theorem test_witness_SequenceAdvanceRule :
    ({ bench with genCursor := 1#16 } : State).genCursor.toNat < bench.genLen.toNat ∧
    memRead (bench.bank bench.genBank) 1 = some 0x40000000#32 := by decide +kernel

/-- A jump at 0.75 (V-F6), a step at 0.25, and the threshold itself, which is a jump. -/
theorem test_witness_RandomAdvanceRule :
    flt (drawROf dice.rawDraw) 0x3F000000#32 = false ∧ drawJOf dice.afterDraw.rawDraw dice.genLen.toNat = 2 ∧
    memRead (dice.bank dice.genBank) 2 = some 0x40800000#32 ∧ dice.genCursor.toNat < dice.genLen.toNat ∧
    flt (drawROf 0x3E800000) 0x3F000000#32 = true ∧ flt (drawROf 0x3F000000) 0x3F000000#32 = false := by decide +kernel

theorem test_witness_SequenceIsPeriodic :
    bench.SourceInstalled ∧ bench.genVariant = .sequence ∧ bench.params.Legal ∧
    answerOf (exec (.setSequence .hz .sequence [0x3F800000#32, 0x40000000#32, 0x40800000#32]) bench) =
      some ⟨.control, .ok, []⟩ :=
  ⟨test_bench_sound.source.1 rfl, rfl, test_bench_sound.legal, by decide +kernel⟩

/-- The limits of PREPARE, of the tempo and of the note length. -/
theorem test_witness_PrepareRule_SetTempoRule :
    (4096#32).toNat ≤ bench.params.blockMax ∧ bench.params.blockMax < (4097#32).toNat ∧
    (0x7F7FFFFF#32 : F32).toNat < 0x7F800000 ∧ (0x3F7FFFFF#32 : F32).toNat < 0x3F800000 ∧
    isFinite (fdiv 0x473B8000#32 (fdiv 0x00000001#32 0x42700000#32)) = false ∧
    2 ^ 32 - 1 < roundHalfAway (fdiv 0x473B8000#32 (fdiv 0x37FBA882#32 0x42700000#32)) ∧
    roundHalfAway (fdiv bench.sr (fdiv 0x42F00000#32 0x42700000#32)) ≤ 2 ^ 32 - 1 := by decide +kernel

theorem test_witness_IdleFillBlockIsSilent :
    State.reset.faulted = false ∧ State.reset.seqMode = .idle ∧ (8#16).toNat ≤ State.reset.params.channelsMax ∧
    (0#32).toNat ≤ State.reset.params.blockMax := by decide

/-- `spn` is 4: a timer of 4 finds no boundary, a timer of 5 does. -/
theorem test_witness_FillBlock :
    State.Inv { bench with elapsed := 4#64 } ∧ State.Inv { bench with elapsed := 5#64 } ∧
    State.ReadyToFill { bench with elapsed := 4#64 } 2#16 4#32 ∧ State.ReadyToFill { bench with elapsed := 5#64 } 2#16 4#32 ∧
    (4#64).toNat ≤ bench.spn.toNat ∧ bench.spn.toNat < (5#64).toNat :=
  ⟨test_bench_sound_at _ (by decide) [], test_bench_sound_at _ (by decide) [], test_bench_ready _, test_bench_ready _,
    by decide, by decide⟩

theorem test_witness_NotesOnlyAtBoundaries :
    (after (step { bench with elapsed := 5#64, pending := [.command .audio ⟨0x07000002#32, [4#32]⟩] })).map State.notes =
      some [⟨0#32, 0x3F800000#32⟩] ∧
    (after (step { bench with elapsed := 4#64, pending := [.command .audio ⟨0x07000002#32, [4#32]⟩] })).map State.notes =
      some [] := by decide +kernel

theorem test_witness_TimerNeverWraps :
    (({ bench with elapsed := 5#64 } : State).boundaryCheck.toOption).map State.elapsed = some 0#64 := by decide +kernel

theorem test_witness_NoteLastsWholeBlocks :
    bench.Inv ∧ bench.ReadyToFill 2#16 4#32 ∧ bench.elapsed = 0#64 ∧ 1 ≤ (4#32).toNat :=
  ⟨test_bench_sound, test_bench_ready _, rfl, by decide⟩

theorem test_witness_reads :
    (State.reset.tblValid = false ∧ bench.tblSize.toNat < (6#32).toNat ∧ (5#32).toNat ≤ bench.tblSize.toNat ∧
      memRead bench.tbl 5 = some 0#32) ∧
    (13 < (14#32).toNat ∧ (13#32).toNat ≤ 13) ∧
    (State.reset.seqMode = .idle ∧ bench.genLen.toNat ≤ (2#32).toNat ∧ (1#32).toNat < bench.genLen.toNat ∧
      memRead (bench.bank bench.genBank) 1 = some 0x40000000#32) := by decide +kernel

/-- Finite operands, a nonzero and a zero divisor, and a sum at and beyond the limit of the finite range. -/
theorem test_witness_ArithmeticRoundsOnce :
    isFinite 0x7F7FFFFF#32 = true ∧ realValue 0x3F800000#32 ≠ 0 ∧ realValue 0x80000000#32 = 0 ∧
    (2 : ℚ) ^ 128 - 2 ^ 103 = realValue 0x7F7FFFFF#32 + realValue 0x73000000#32 := by
  refine ⟨by decide, ?_, ?_, ?_⟩ <;> unfold realValue
  · rw [show fval 0x3F800000#32 = 2 ^ 149 by decide +kernel]; norm_num
  · rw [show fval 0x80000000#32 = 0 by decide +kernel]; norm_num
  · rw [show fval 0x7F7FFFFF#32 = (2 ^ 24 - 1) * 2 ^ 253 by decide +kernel,
      show fval 0x73000000#32 = 2 ^ 252 by decide +kernel]
    norm_num

/-- A value just below 1.0: finite, at least 0, below 1. -/
theorem test_witness_values_below_one :
    isFinite 0x3F7FFFFF#32 = true ∧ 0 ≤ realValue 0x3F7FFFFF#32 ∧ realValue 0x3F7FFFFF#32 < 1 := by
  refine ⟨by decide, ?_, ?_⟩ <;> unfold realValue <;>
    rw [show fval 0x3F7FFFFF#32 = (2 ^ 24 - 1) * 2 ^ 125 by decide +kernel] <;> norm_num

theorem test_witness_ComparisonsAndFloor :
    0x7F800000 < (0x7F800001#32 : F32).toNat % 2 ^ 31 ∧ 0x7F800000 < (0xFFFFFFFF#32 : F32).toNat % 2 ^ 31 := by
  decide +kernel

theorem test_witness_SinTurnProperties :
    3 ≤ 4 ∧ 3 < 4 ∧ 4 * 0 % 4 = 0 ∧ 4 * 1 / 4 = 1 ∧ 4 * 2 / 4 = 2 ∧ 4 * 3 / 4 = 3 := by decide

/-- The exponent 4.8333335 of note 127 (V-F1), and the integer exponents -6 and 4. -/
theorem test_witness_Exp2Properties :
    exp2InRange 0x409AAAAB#32 = true ∧ fval 0xC0C00000#32 = -6 * 2 ^ 149 ∧ fval 0x40800000#32 = 4 * 2 ^ 149 := by
  decide +kernel

/-- The last selector, which has a line, and a list of entries with its line (30 R49). -/
theorem test_witness_AssembledLinesAreWellFormed :
    (Instr.readReg 13#32).wellFormed = true ∧ (13#32).toNat ≤ 13 ∧ assembleLine "READ_REG 13" = some (.readReg 13#32) ∧
    lineOf (.setSequence .hz .random [0x3F800000#32, 5#32]) = "SET_SEQUENCE.rand.hz f32:0x3f800000, f32:0x00000005" := by
  decide +kernel

/-- A fraction with a zero after the point, and a tie without a fraction: 16777217 = 2^24 + 1 goes to the even 2^24. -/
theorem test_witness_DecimalLiteralsAreRounded :
    (0 < 2 ∧ 5 < 10 ^ 2 ∧ "1.05" = toString 1 ++ "." ++ String.ofList (List.leftpad 2 '0' (Nat.toDigits 10 5)) ∧
     (1 : ℚ) + 5 / 10 ^ 2 < 2 ^ 128 - 2 ^ 103) ∧
    (0 < 10 ^ 0 ∧ "16777217" = toString 16777217 ∧ (16777217 : ℚ) + 0 / 10 ^ 0 < 2 ^ 128 - 2 ^ 103) ∧
    assembleLine "SET_AMPLITUDE 16777217" = some (.setAmplitude 0x4B800000#32) := by
  refine ⟨⟨by decide, by decide, by decide +kernel, by norm_num⟩, ⟨by decide, by decide +kernel, by norm_num⟩, by decide +kernel⟩

end Sys2Proof.Tests
end

section
/-!
PROOFS. What 00_scope.md says of the whole machine: the size parameters never change (R1), and a rejected command
changes nothing (R11).
-/

namespace Sys2Proof.Machine

/-! ### What a command's outcome does to the state -/

/-- The command answers a code other than FATAL, and changes nothing else. -/
def State.OnlyAnswers (s t : State) : Prop :=
  ∃ p c d, c ≠ ResponseCode.fatal ∧ t = s.respond p c d

/-- The command answers OK; its effect leaves the size parameters alone. -/
def State.Completes (s t : State) : Prop :=
  ∃ p d, t.responses = ⟨p, .ok, d⟩ :: s.responses ∧ t.params = s.params

/-- The command raises a fatal fault, with a cause to record (60 R90). -/
def State.FaultsFatally (s t : State) : Prop :=
  ∃ cause d, cause ≠ FaultCause.none ∧ t = s.raiseFatal cause d

theorem State.onlyAnswers_of_rejected {s t : State}
    (h : ∃ c, c ≠ ResponseCode.ok ∧ c ≠ .fatal ∧ t = s.respond .control c []) : s.OnlyAnswers t := by
  obtain ⟨c, -, hc, rfl⟩ := h
  exact ⟨_, c, _, hc, rfl⟩

/-- A read-back command only answers, with a word or with an error. -/
theorem State.onlyAnswers_of_readBack {s t : State}
    (h : (∃ c, c ≠ ResponseCode.ok ∧ c ≠ .fatal ∧ c ≠ .faulted ∧ t = s.respond .control c []) ∨
      ∃ w, t = s.respond .control .ok [w]) : s.OnlyAnswers t := by
  rcases h with ⟨c, hok, hfatal, -, ht⟩ | ⟨w, ht⟩
  · exact State.onlyAnswers_of_rejected ⟨c, hok, hfatal, ht⟩
  · exact ⟨_, _, _, by simp, ht⟩

theorem State.runningCause_ne_none_cause {s : State} {frames : Word} {cause : FaultCause}
    (h : s.runningCause frames = some cause) : cause ≠ .none := by
  unfold State.runningCause at h
  split_ifs at h <;> cases h <;> decide

/-- What a FILL_BLOCK can do, of the three outcomes. -/
theorem execFillBlock_outcome {channels : BitVec 16} {frames : Word} {s t : State}
    (h : execFillBlock channels frames s = .next t) : s.OnlyAnswers t ∨ s.Completes t ∨ s.FaultsFatally t := by
  rcases execFillBlock_next h with ⟨-, ht⟩ | ⟨-, -, ht⟩ | ⟨-, -, -, ht⟩ | ⟨cause, -, -, -, hcause, ht⟩ |
    ⟨-, -, -, -, hrun⟩
  · exact .inl ⟨_, _, _, by simp, ht⟩
  · exact .inr (.inr ⟨_, _, by simp, ht⟩)
  · exact .inl ⟨_, _, _, by simp, ht⟩
  · exact .inr (.inr ⟨cause, _, State.runningCause_ne_none_cause hcause, ht⟩)
  · obtain ⟨mono, -, ht⟩ := State.runBlock_frame hrun
    exact .inr (.inl ⟨_, _, by rw [ht], by rw [ht]⟩)

/-- Every command only answers, or completes with OK, or raises a fatal fault (00 R11, 60 R88). -/
theorem exec_outcome {i : Instr} {s t : State} (h : exec i s = .next t) :
    s.OnlyAnswers t ∨ s.Completes t ∨ s.FaultsFatally t := by
  cases i with
  | buildTable size harmonics =>
    rcases execBuildTable_next h with hrej | ⟨m, d, rfl⟩
    · exact .inl (State.onlyAnswers_of_rejected hrej)
    · exact .inr (.inl ⟨_, _, rfl, rfl⟩)
  | prepare samplesPerBlock sampleRate =>
    rcases execPrepare_next h with hrej | ⟨d, rfl⟩
    · exact .inl (State.onlyAnswers_of_rejected hrej)
    · exact .inr (.inl ⟨_, _, rfl, rfl⟩)
  | setFrequency freq =>
    rcases execSetFrequency_next h with hrej | ⟨d, rfl⟩
    · exact .inl (State.onlyAnswers_of_rejected hrej)
    · exact .inr (.inl ⟨_, _, rfl, rfl⟩)
  | setAmplitude amp =>
    rcases execSetAmplitude_next h with hrej | rfl
    · exact .inl (State.onlyAnswers_of_rejected hrej)
    · exact .inr (.inl ⟨_, _, rfl, rfl⟩)
  | setTempo npm =>
    rcases execSetTempo_next h with hrej | ⟨d, rfl⟩
    · exact .inl (State.onlyAnswers_of_rejected hrej)
    · exact .inr (.inl ⟨_, _, rfl, rfl⟩)
  | setSequence kind variant entries =>
    rcases execSetSequence_next h with hrej | ⟨a, b, l, rfl⟩
    · exact .inl (State.onlyAnswers_of_rejected hrej)
    · exact .inr (.inl ⟨_, _, rfl, rfl⟩)
  | fillBlock channels frames => exact execFillBlock_outcome h
  | readTable index => exact .inl (State.onlyAnswers_of_readBack (execReadTable_next h))
  | readReg selector => exact .inl (State.onlyAnswers_of_readBack (execReadReg_next h))
  | readSeq index => exact .inl (State.onlyAnswers_of_readBack (execReadSeq_next h))

/-! ### The parameters (00 R1) -/

theorem exec_params {i : Instr} {s t : State} (h : exec i s = .next t) : t.params = s.params := by
  rcases exec_outcome h with ⟨p, c, d, -, rfl⟩ | ⟨p, d, -, hparams⟩ | ⟨cause, d, -, rfl⟩
  · exact State.respond_params s p c d
  · exact hparams
  · exact State.raiseFatal_params s cause d

theorem runEvent_params {e : Event} {s t : State} (h : runEvent e s = .next t) : t.params = s.params := by
  cases e with
  | command p k =>
    unfold runEvent at h
    cases hd : decode p k with
    | instr i => simp only [hd] at h; exact exec_params h
    | illegal why => simp only [hd] at h; cases h; exact State.respond_params s p _ _
  | supplyDraw raw => cases h; exact State.supply_params s raw
  | takeNote => cases h; rfl
  | reset => cases h; rfl

/-- Settles O16: a step is idle, or one event, and no event writes the parameters. -/
theorem parametersNeverChange : Obligations.ParametersNeverChange := by
  unfold Obligations.ParametersNeverChange
  intro s t h
  cases hp : s.pending with
  | nil => rw [step_nil hp] at h; cases h; rfl
  | cons e rest =>
    rw [step_cons hp] at h
    have hparams := runEvent_params h
    exact hparams

/-! ### Rejected commands (00 R11) -/

/-- Settles O20: a command that does not answer OK only answers, unless it raises a fatal fault. -/
theorem rejectedCommandsChangeNothing : Obligations.RejectedCommandsChangeNothing := by
  unfold Obligations.RejectedCommandsChangeNothing
  intro i s t r h hr
  rcases exec_outcome h with ⟨p, c, d, hc, rfl⟩ | ⟨p, d, hresp, -⟩ | ⟨cause, d, hcause, rfl⟩
  · have hrEq : ⟨p, c, d⟩ = r := by simpa using hr
    subst hrEq
    exact ⟨fun _ _ => rfl, fun hfatal => absurd hfatal hc⟩
  · have hrEq : ⟨p, .ok, d⟩ = r := by simpa [hresp] using hr
    subst hrEq
    exact ⟨fun hok => absurd rfl hok, fun hfatal => by cases hfatal⟩
  · have hrEq : ⟨.audio, .fatal, d⟩ = r := by simpa using hr
    subst hrEq
    exact ⟨fun _ hfatal => absurd rfl hfatal, fun _ => ⟨cause, hcause, rfl⟩⟩

end Sys2Proof.Machine
end

section
/-!
PROOFS. The arithmetic of 00_scope.md §4.2 on exact values: comparisons and `floorNat` (R5), `roundHalfAway` (R6),
`wrapN` (R7), `toF32` (R4), SIN_TURN (R9) and EXP2 (R10).
-/

namespace Sys2Proof.Machine

/-! ### Exact values and whole numbers of units -/

theorem natCast_oneUnits : ((oneUnits : Nat) : ℚ) = 2 ^ 149 := by rw [oneUnits]; norm_num

theorem realValue_lt_iff {a b : F32} : realValue a < realValue b ↔ fval a < fval b := by
  unfold realValue
  rw [div_lt_div_iff_of_pos_right (by positivity), Int.cast_lt]

theorem realValue_le_iff {a b : F32} : realValue a ≤ realValue b ↔ fval a ≤ fval b := by
  rw [← not_lt, ← not_lt, realValue_lt_iff]

theorem realValue_inj {a b : F32} : realValue a = realValue b ↔ fval a = fval b := by
  rw [le_antisymm_iff, le_antisymm_iff, realValue_le_iff, realValue_le_iff]

@[simp] theorem realValue_zero : realValue 0#32 = 0 := by simp [realValue]

theorem realValue_nonneg_iff {x : F32} : 0 ≤ realValue x ↔ 0 ≤ fval x := by
  rw [← realValue_zero, realValue_le_iff, fval_zero]

theorem realValue_pos_iff {x : F32} : 0 < realValue x ↔ 0 < fval x := by
  rw [← realValue_zero, realValue_lt_iff, fval_zero]

theorem realValue_eq_zero_iff {x : F32} : realValue x = 0 ↔ fval x = 0 := by
  rw [← realValue_zero, realValue_inj, fval_zero]

/-- A value that is a whole number of units of 1.0 is that whole number. -/
theorem realValue_eq_intCast_iff {x : F32} {j : Int} : realValue x = j ↔ fval x = j * oneUnits := by
  unfold realValue
  rw [div_eq_iff (by positivity), ← natCast_oneUnits]
  exact_mod_cast Iff.rfl

/-- A value of at least zero is its magnitude in units of 1.0. -/
theorem realValue_of_nonneg {x : F32} (h : 0 ≤ realValue x) :
    realValue x = (units (fmag x) : ℚ) / (oneUnits : Nat) := by
  rw [natCast_oneUnits, realValue, ← units_of_nonneg (realValue_nonneg_iff.1 h), Int.cast_natCast]

/-! ### `toF32` (00 R4) -/

/-- Settles O51: the units of `toF32 n` are `n` times those of 1.0. -/
theorem smallIntegersConvertExactly : Obligations.SmallIntegersConvertExactly := by
  unfold Obligations.SmallIntegersConvertExactly
  intro n hlow hhigh
  obtain ⟨hfin, hval⟩ := toF32_int (n := n) (by omega)
  exact ⟨hfin, realValue_eq_intCast_iff.2 hval⟩

/-! ### Comparisons and `floorNat` (00 R5) -/

theorem comparisons_of_isNaN {a b : F32} (h : isNaN a = true) :
    flt a b = false ∧ flt b a = false ∧ fle a b = false ∧ fle b a = false ∧ feq a b = false ∧ feq b a = false := by
  simp [flt, fle, feq, h]

/-- A value is finite exactly when its exponent field is not all ones (00 R5). -/
theorem isFinite_iff_exponent {x : F32} : isFinite x = true ↔ x.extractLsb' 23 8 ≠ 0xFF#8 := by
  have hx := x.isLt
  have hexp : x.extractLsb' 23 8 = 0xFF#8 ↔ x.toNat / 2 ^ 23 % 2 ^ 8 = 0xFF := by
    rw [← BitVec.toNat_inj, BitVec.extractLsb'_toNat, Nat.shiftRight_eq_div_pow]
    rfl
  rw [isFinite_iff, Ne, hexp, fmag, infMag]
  omega

/-- `floorNat` is the floor of the exact value (00 R5). -/
theorem floorNat_eq_floor {x : F32} (h : 0 ≤ realValue x) : floorNat x = ⌊realValue x⌋₊ := by
  rw [realValue_of_nonneg h, Nat.floor_div_eq_div, floorNat]

/-- Settles O52: on finite values the comparisons are those of the units, and `floorNat` is a floor. -/
theorem comparisonsAndFloor : Obligations.ComparisonsAndFloor := by
  unfold Obligations.ComparisonsAndFloor
  refine ⟨fun a b ha hb => ?_, by decide +kernel, fun a b hnan => ?_, fun x => isFinite_iff_exponent, fun x _ hx => ?_⟩
  · have ha' := not_isNaN_of_isFinite ha
    have hb' := not_isNaN_of_isFinite hb
    exact ⟨(flt_iff ha' hb').trans realValue_lt_iff.symm, (fle_iff ha' hb').trans realValue_le_iff.symm,
      (feq_iff ha' hb').trans realValue_inj.symm⟩
  · exact comparisons_of_isNaN (decide_eq_true hnan)
  · rw [floorNat_eq_floor hx]
    exact ⟨Nat.floor_le hx, Nat.lt_floor_add_one _⟩

/-! ### `roundHalfAway` (00 R6) -/

/-- `roundHalfAway` is the floor of the exact value and a half (00 R6). -/
theorem roundHalfAway_eq_floor {x : F32} (h : 0 ≤ realValue x) : roundHalfAway x = ⌊realValue x + 1 / 2⌋₊ := by
  have hpos : ((oneUnits : Nat) : ℚ) ≠ 0 := by exact_mod_cast oneUnits_pos.ne'
  have hhalf : realValue x + 1 / 2 = ((2 * units (fmag x) + oneUnits : Nat) : ℚ) / (2 * oneUnits : Nat) := by
    rw [realValue_of_nonneg h]
    push_cast
    field_simp
  rw [hhalf, Nat.floor_div_eq_div, roundHalfAway]

/-- Settles O53: the bounds are those of the floor of the value and a half. -/
theorem roundHalfAwayIsNearest : Obligations.RoundHalfAwayIsNearest := by
  unfold Obligations.RoundHalfAwayIsNearest
  intro x _ hx
  have hle := Nat.floor_le (show 0 ≤ realValue x + 1 / 2 by linarith)
  have hlt := Nat.lt_floor_add_one (realValue x + 1 / 2)
  rw [← roundHalfAway_eq_floor hx] at hle hlt
  constructor <;> linarith

/-! ### `wrapN` (00 R7) -/

/-- The value of the remainder, with the floor of R7 in place of the division of the units. -/
theorem realValue_wrapN {x : F32} {n : Nat} (hx : isFinite x = true) (h : 0 ≤ realValue x) (hn : 1 ≤ n)
    (hn' : n ≤ 2 ^ 24) : realValue (wrapN x n) = realValue x - n * (⌊realValue x / n⌋ : ℚ) := by
  obtain ⟨hsign, -, hunits⟩ := wrapN_exact hn hn' hx
  have hpos : ((oneUnits : Nat) : ℚ) ≠ 0 := by exact_mod_cast oneUnits_pos.ne'
  have hfloor : ⌊realValue x / n⌋ = ((units (fmag x) / (n * oneUnits) : Nat) : Int) := by
    rw [realValue_of_nonneg h, div_div, mul_comm, ← Nat.cast_mul, Rat.floor_natCast_div_natCast, Int.natCast_ediv]
  have hdivmod : ((n * oneUnits : Nat) : ℚ) * (units (fmag x) / (n * oneUnits) : Nat) +
      (units (fmag x) % (n * oneUnits) : Nat) = units (fmag x) := by exact_mod_cast Nat.div_add_mod _ _
  rw [realValue_of_nonneg (realValue_nonneg_iff.2 (fval_nonneg_of_pos hsign)), hunits, hfloor,
    realValue_of_nonneg h, ← hdivmod, Int.cast_natCast, Nat.cast_mul]
  field_simp
  ring

/-- Settles O54: the remainder of the units is below `n` times the units of 1.0, and it is not rounded. -/
theorem wrapIsTheExactRemainder : Obligations.WrapIsTheExactRemainder := by
  unfold Obligations.WrapIsTheExactRemainder
  intro x n hx h0 hn hn'
  obtain ⟨hsign, hfin, hunits⟩ := wrapN_exact hn hn' hx
  have hnonneg := realValue_nonneg_iff.2 (fval_nonneg_of_pos hsign)
  refine ⟨hfin, realValue_wrapN hx h0 hn hn', hnonneg, ?_, fun hzero => ?_⟩
  · have hpos : (0 : ℚ) < (oneUnits : Nat) := by exact_mod_cast oneUnits_pos
    rw [realValue_of_nonneg hnonneg, div_lt_iff₀ hpos, hunits]
    exact_mod_cast Nat.mod_lt _ (Nat.mul_pos hn oneUnits_pos)
  · have hmag : fmag (wrapN x n) = 0 := by
      rw [realValue_eq_zero_iff, fval_of_pos hsign] at hzero
      exact units_inj.1 (by rw [units_zero]; exact_mod_cast hzero)
    exact fext hsign hmag

/-! ### SIN_TURN (00 R9) -/

theorem sinTurn_of_quarter {k m : Nat} (h : 4 * k % m = 0) : sinTurn k m = quarterTurn (4 * k / m) := by
  rw [sinTurn, sinTurnWith, if_pos h]

/-- The range check of 00 R9 (b) on exact values. -/
theorem realValue_of_inUnitRange {v : F32} (h : inUnitRange v = true) : -1 ≤ realValue v ∧ realValue v ≤ 1 := by
  obtain ⟨hlow, hhigh⟩ := Bool.and_eq_true_iff.1 h
  have hone : realValue Config.f32One = (1 : Int) := realValue_eq_intCast_iff.2 (by rw [fval_f32One, Int.one_mul])
  have hneg : realValue Config.f32NegOne = (-1 : Int) :=
    realValue_eq_intCast_iff.2 (by rw [fval_f32NegOne, Int.neg_one_mul])
  have hlow' := realValue_le_iff.2 (fle_nan hlow).2.2
  have hhigh' := realValue_le_iff.2 (fle_nan hhigh).2.2
  rw [hneg] at hlow'
  rw [hone] at hhigh'
  exact_mod_cast And.intro hlow' hhigh'

/-- Settles O55: at a quarter turn SIN_TURN is the exact value, and everywhere it passes the range check. -/
theorem sinTurnProperties : Obligations.SinTurnProperties := by
  unfold Obligations.SinTurnProperties
  intro k m _ _
  have hrange := sinTurn_inUnitRange k m
  refine ⟨fun hquarter => ?_, isFinite_of_inUnitRange hrange, realValue_of_inUnitRange hrange⟩
  rw [sinTurn_of_quarter hquarter]
  refine ⟨fun h02 => ?_, fun h1 => by rw [h1]; rfl, fun h3 => by rw [h3]; rfl⟩
  rcases h02 with h0 | h2
  · rw [h0]; rfl
  · rw [h2]; rfl

/-! ### EXP2 (00 R10) -/

/-- At a whole exponent from -6 to 4, EXP2 is the power of two (00 R10 (a)). -/
theorem exp2_of_whole {e : F32} {j : Int} (he : isFinite e = true) (hval : fval e = j * oneUnits) (hlow : -6 ≤ j)
    (hhigh : j ≤ 4) : exp2 e = pow2 j := by
  have hone : (oneUnits : Int) = 2 ^ 149 := by rw [oneUnits]; norm_num
  have hmod : fval e % 2 ^ 149 = 0 := by rw [hval, hone, Int.mul_emod_left]
  have hdiv : fval e / 2 ^ 149 = j := by rw [hval, hone, Int.mul_ediv_cancel _ (by norm_num)]
  rw [exp2, exp2With, hdiv, if_pos ⟨he, hmod, hlow, hhigh⟩]

/-- The pattern of `pow2 j` is that of 2 to the power `j` (00 R10 (a)). -/
theorem realValue_pow2 {j : Int} (hlow : -6 ≤ j) (hhigh : j ≤ 4) : realValue (pow2 j) = (2 : ℚ) ^ j := by
  obtain ⟨d, hd⟩ : ∃ d : Nat, (127 + j).toNat = d + 1 := ⟨(126 + j).toNat, by omega⟩
  have hlt : (d + 1) * 2 ^ 23 < 2 ^ 31 := by omega
  have hexp : j = ((d + 23 : Nat) : Int) - (149 : Nat) := by omega
  have hval : fval (pow2 j) = ((2 ^ (d + 23) : Nat) : Int) := by
    rw [pow2, hd, fval_fpack hlt, units_pow]
    rfl
  rw [realValue, hval, hexp, zpow_sub₀ two_ne_zero, zpow_natCast, zpow_natCast]
  push_cast
  rfl

/-- The range of 00 R10 (c), whose upper end is 4.8334, on exact values. -/
theorem exp2InRange_of_realValue {e : F32} (he : isFinite e = true) (hlow : -(23 / 4) ≤ realValue e)
    (hhigh : realValue e ≤ 48334 / 10000) : exp2InRange e = true := by
  unfold realValue at hlow hhigh
  rw [le_div_iff₀ (by positivity)] at hlow
  rw [div_le_iff₀ (by positivity)] at hhigh
  have hlow' : -(23 * 2 ^ 147) ≤ fval e := by
    have : (-(23 * 2 ^ 147) : ℚ) ≤ fval e := by linarith
    exact_mod_cast this
  have hhigh' : fval e * 5000 ≤ 24167 * 2 ^ 149 := by
    have : (fval e * 5000 : ℚ) ≤ 24167 * 2 ^ 149 := by linarith
    exact_mod_cast this
  rw [exp2InRange, he, decide_eq_true hlow', decide_eq_true hhigh']
  rfl

theorem realValue_pos_of_exp2Legal {v : F32} (h : exp2Legal v = true) : isFinite v = true ∧ 0 < realValue v := by
  obtain ⟨hfin, hlt⟩ := Bool.and_eq_true_iff.1 h
  rw [flt_iff (by decide) (not_isNaN_of_isFinite hfin), fval_zero] at hlt
  exact ⟨hfin, realValue_pos_iff.2 hlt⟩

/-- Settles O56: a whole exponent gives the power of two, and the range of (c) a legal value. -/
theorem exp2Properties : Obligations.Exp2Properties := by
  unfold Obligations.Exp2Properties
  constructor
  · intro e j he hval hlow hhigh
    rw [exp2_of_whole he (realValue_eq_intCast_iff.1 hval) hlow hhigh]
    exact ⟨(realValue_pos_of_exp2Legal (pow2_legal j hlow hhigh)).1, realValue_pow2 hlow hhigh⟩
  · intro e he hlow hhigh
    exact realValue_pos_of_exp2Legal (exp2_legal (exp2InRange_of_realValue he hlow hhigh))

end Sys2Proof.Machine
end

section
/-!
PROOFS. The four operations round the exact result once (00 R3). Each is `fpack neg (roundMag num den)` for a fraction
`num / den` of units, so one lemma about such a rounding, `roundedOnce_fpack`, serves all four.
-/

namespace Sys2Proof.Machine

/-! ### Signs -/

/-- The factor that a sign bit stands for. -/
def signFactor (neg : Bool) : Int := if neg then -1 else 1

theorem signFactor_xor (a b : Bool) : signFactor (a != b) = signFactor a * signFactor b := by
  cases a <;> cases b <;> rfl

theorem signFactor_mul_self (neg : Bool) : signFactor neg * signFactor neg = 1 := by cases neg <;> rfl

theorem abs_signFactor (neg : Bool) : |(signFactor neg : ℚ)| = 1 := by cases neg <;> simp [signFactor]

/-- A whole number is its magnitude with its sign. -/
theorem signFactor_mul_natAbs (x : Int) : signFactor (decide (x < 0)) * x.natAbs = x := by
  unfold signFactor
  by_cases hx : x < 0 <;> simp only [hx, decide_true, decide_false, if_true, Bool.false_eq_true, if_false] <;> omega

theorem fval_eq_signFactor_mul (x : F32) : fval x = signFactor (fsign x) * units (fmag x) := by
  unfold fval signFactor
  cases fsign x <;> simp

theorem realValue_eq_signFactor_mul (x : F32) :
    realValue x = signFactor (fsign x) * (units (fmag x) : ℚ) / 2 ^ 149 := by
  rw [realValue, fval_eq_signFactor_mul]
  push_cast
  rfl

theorem getLsbD_31_eq_fsign (x : F32) : x.getLsbD 31 = fsign x := by simp [fsign, BitVec.msb_eq_getLsbD_last]

/-- The last bit of a value is that of its magnitude: an even significand (00 R3). -/
theorem getLsbD_zero_fpack {neg : Bool} {m : Nat} (hm : m < 2 ^ 31) (h : m % 2 = 0) :
    (fpack neg m).getLsbD 0 = false := by
  rw [BitVec.getLsbD, toNat_fpack hm, Nat.testBit_zero, decide_eq_false_iff_not]
  cases neg <;> simp only [if_true, Bool.false_eq_true, if_false] <;> omega

/-! ### Zeros and infinities -/

theorem fval_eq_zero_iff {x : F32} : fval x = 0 ↔ fmag x = 0 := by
  rw [← Int.natAbs_eq_zero, natAbs_fval, ← units_zero, units_inj, units_zero]

theorem realValue_eq_zero_iff_fmag {x : F32} : realValue x = 0 ↔ fmag x = 0 :=
  realValue_eq_zero_iff.trans fval_eq_zero_iff

theorem eq_fpack_iff {x : F32} {neg : Bool} {m : Nat} (hm : m < 2 ^ 31) :
    x = fpack neg m ↔ fsign x = neg ∧ fmag x = m := by
  constructor
  · rintro rfl
    exact ⟨fsign_fpack hm, fmag_fpack hm⟩
  · rintro ⟨rfl, rfl⟩
    exact (fpack_sign_mag x).symm

/-- The infinity of a sign. -/
theorem fpack_infMag (neg : Bool) : fpack neg infMag = if neg then 0xFF800000#32 else 0x7F800000#32 := by
  cases neg <;> decide

theorem infMag_lt_fmag_nanResult (op : FOp) (a b : F32) : infMag < fmag (nanResult op a b) := by
  have hquiet : (0x7FC00000#32 : F32).toNat % 2 ^ 31 = 0x7FC00000 := by decide
  rw [fmag, nanResult, BitVec.toNat_or, Nat.or_mod_two_pow, hquiet]
  exact lt_of_lt_of_le (by decide) Nat.right_le_or

/-! ### One rounding -/

/-- `r` is the exact value `v` rounded once (00 R3): to a nearest finite value below the overflow limit, to the infinity
of its sign from there on. -/
def RoundedOnce (v : ℚ) (r : F32) : Prop :=
  (|v| < 2 ^ 128 - 2 ^ 103 → isFinite r = true ∧ RoundsTo v r) ∧
  (2 ^ 128 - 2 ^ 103 ≤ v → r = 0x7F800000#32) ∧ (v ≤ -(2 ^ 128 - 2 ^ 103) → r = 0xFF800000#32)

/-- The exact value of `num / den` units, with a sign. -/
def fractionValue (neg : Bool) (num den : Nat) : ℚ := signFactor neg * ((num : ℚ) / den) / 2 ^ 149

/-- `roundMag_nearest` against a value of either sign: one on the other side of zero is farther than zero. -/
theorem roundMag_nearest_int {num den : Nat} (hd : 0 < den) (hf : roundMag num den < infMag) {w : Int} {m : Nat}
    (hw : w.natAbs = units m) :
    |(units (roundMag num den) : Int) * den - num| ≤ |w * den - num| ∧
      (|(units (roundMag num den) : Int) * den - num| = |w * den - num| → w ≠ units (roundMag num den) →
        roundMag num den % 2 = 0) := by
  rw [Int.abs_eq_natAbs, Int.abs_eq_natAbs, ← Int.natCast_mul]
  rcases le_or_gt 0 w with hpos | hneg
  · obtain ⟨hle, heven⟩ := roundMag_nearest hd hf m
    have hwm : w = units m := by omega
    rw [hwm, ← Int.natCast_mul]
    exact ⟨by exact_mod_cast hle, fun htie hne => heven (by exact_mod_cast htie) fun hm => hne (by rw [hm])⟩
  · obtain ⟨hle, -⟩ := roundMag_nearest hd hf 0
    have hwd : w * den < 0 := Int.mul_neg_of_neg_of_pos hneg (by exact_mod_cast hd)
    rw [units_zero, Nat.zero_mul] at hle
    exact ⟨by omega, fun htie => by omega⟩

/-- The distance of a value from `num / den` signed units, as a whole number over `den`. -/
theorem abs_realValue_sub_fractionValue (neg : Bool) (num : Nat) {den : Nat} (hd : 0 < den) (x : F32) :
    |realValue x - fractionValue neg num den| =
      (|signFactor neg * fval x * den - num| : Int) / ((den : ℚ) * 2 ^ 149) := by
  have hd' : (den : ℚ) ≠ 0 := by exact_mod_cast hd.ne'
  have hself : (signFactor neg : ℚ) * signFactor neg = 1 := by exact_mod_cast signFactor_mul_self neg
  have hsub : realValue x - fractionValue neg num den =
      signFactor neg * ((signFactor neg * fval x * den - num : Int) : ℚ) / ((den : ℚ) * 2 ^ 149) := by
    rw [realValue, fractionValue]
    push_cast
    field_simp
    linear_combination (-(fval x : ℚ) * den) * hself
  rw [hsub, abs_div, abs_mul, abs_signFactor, one_mul, Int.cast_abs,
    abs_of_pos (a := (den : ℚ) * 2 ^ 149) (by positivity)]

theorem signFactor_mul_fval_fpack {neg : Bool} {m : Nat} (hm : m < 2 ^ 31) :
    signFactor neg * fval (fpack neg m) = units m := by
  rw [fval_eq_signFactor_mul, fsign_fpack hm, fmag_fpack hm, ← Int.mul_assoc, signFactor_mul_self, Int.one_mul]

theorem natAbs_signFactor_mul (neg : Bool) (x : Int) : (signFactor neg * x).natAbs = x.natAbs := by
  cases neg <;> simp [signFactor]

/-- A finite rounding is to nearest with ties to even (00 R3). -/
theorem roundsTo_fpack (neg : Bool) {num den : Nat} (hd : 0 < den) (hf : roundMag num den < infMag) :
    RoundsTo (fractionValue neg num den) (fpack neg (roundMag num den)) := by
  intro c _
  have hlt := roundMag_lt num den
  obtain ⟨hle, heven⟩ := roundMag_nearest_int hd hf (w := signFactor neg * fval c) (m := fmag c)
    (by rw [natAbs_signFactor_mul, natAbs_fval])
  have hpos : (0 : ℚ) < (den : ℚ) * 2 ^ 149 := by
    have : (0 : ℚ) < den := by exact_mod_cast hd
    positivity
  rw [abs_realValue_sub_fractionValue _ _ hd, abs_realValue_sub_fractionValue _ _ hd, signFactor_mul_fval_fpack hlt,
    div_le_div_iff_of_pos_right hpos, div_left_inj' hpos.ne', Int.cast_le, Int.cast_inj]
  refine ⟨hle, fun htie hne => getLsbD_zero_fpack hlt (heven htie fun hw => hne (realValue_inj.2 ?_))⟩
  calc fval c = signFactor neg * signFactor neg * fval c := by rw [signFactor_mul_self, Int.one_mul]
    _ = signFactor neg * units (roundMag num den) := by rw [Int.mul_assoc, hw]
    _ = fval (fpack neg (roundMag num den)) := by rw [fval_eq_signFactor_mul, fsign_fpack hlt, fmag_fpack hlt]

/-- The overflow limit of 00 R3 in units: the largest finite value and half its last place. -/
theorem abs_fractionValue_lt_iff (neg : Bool) (num : Nat) {den : Nat} (hd : 0 < den) :
    |fractionValue neg num den| < 2 ^ 128 - 2 ^ 103 ↔ num < (2 ^ 25 - 1) * 2 ^ 252 * den := by
  have hd' : (0 : ℚ) < den := by exact_mod_cast hd
  have hlimit : ((2 : ℚ) ^ 128 - 2 ^ 103) * (den * 2 ^ 149) = ((2 ^ 25 - 1) * 2 ^ 252 * den : Nat) := by
    push_cast
    ring
  rw [fractionValue, abs_div, abs_mul, abs_signFactor, one_mul, abs_of_nonneg (by positivity : (0 : ℚ) ≤ num / den),
    abs_of_pos (by positivity : (0 : ℚ) < 2 ^ 149), div_div, div_lt_iff₀ (by positivity), hlimit, Nat.cast_lt]

/-- The value of a fraction lies on the side of zero that its sign says. -/
theorem signFactor_mul_fractionValue_nonneg (neg : Bool) (num den : Nat) :
    0 ≤ signFactor neg * fractionValue neg num den := by
  have hself : (signFactor neg : ℚ) * signFactor neg = 1 := by exact_mod_cast signFactor_mul_self neg
  have : (signFactor neg : ℚ) * fractionValue neg num den = (num : ℚ) / den / 2 ^ 149 := by
    rw [fractionValue, ← mul_div_assoc, ← mul_assoc, hself, one_mul]
  rw [this]
  positivity

/-- Packing the rounded magnitude rounds the exact value once. -/
theorem roundedOnce_fpack (neg : Bool) (num : Nat) {den : Nat} (hd : 0 < den) :
    RoundedOnce (fractionValue neg num den) (fpack neg (roundMag num den)) := by
  have hside := signFactor_mul_fractionValue_nonneg neg num den
  have hlimit : (0 : ℚ) < 2 ^ 128 - 2 ^ 103 := by norm_num
  have hoverflow : 2 ^ 128 - 2 ^ 103 ≤ |fractionValue neg num den| → roundMag num den = infMag := fun h =>
    roundMag_eq_infMag hd (not_lt.1 fun hlt => absurd ((abs_fractionValue_lt_iff neg num hd).2 hlt) (not_lt.2 h))
  refine ⟨fun h => ?_, fun h => ?_, fun h => ?_⟩
  · have hf := roundMag_lt_infMag hd ((abs_fractionValue_lt_iff neg num hd).1 h)
    exact ⟨isFinite_iff.2 (by rwa [fmag_fpack (roundMag_lt _ _)]), roundsTo_fpack neg hd hf⟩
  · rw [hoverflow (le_trans h (le_abs_self _)), fpack_infMag]
    cases neg with
    | false => rfl
    | true => simp [signFactor] at hside; linarith
  · rw [hoverflow (le_trans (by linarith) (neg_le_abs _)), fpack_infMag]
    cases neg with
    | false => simp [signFactor] at hside; linarith
    | true => rfl

/-! ### The four operations -/

/-- Subtraction adds the opposite. -/
theorem fsub_eq_fadd_fneg {a b : F32} (ha : isFinite a = true) (hb : isFinite b = true) :
    fsub a b = fadd a (fneg b) := by
  rw [fsub_finite ha hb, fadd_finite ha (isFinite_fneg.trans hb), fval_fneg, fsign_fneg, Int.sub_eq_add_neg]

theorem realValue_fneg (x : F32) : realValue (fneg x) = -realValue x := by
  rw [realValue, fval_fneg, realValue, Int.cast_neg, neg_div]

theorem fadd_roundedOnce {a b : F32} (ha : isFinite a = true) (hb : isFinite b = true) :
    RoundedOnce (realValue a + realValue b) (fadd a b) := by
  have hsum : realValue a + realValue b = ((fval a + fval b : Int) : ℚ) / 2 ^ 149 := by
    rw [realValue, realValue, ← add_div, Int.cast_add]
  rw [fadd_finite ha hb, hsum]
  generalize fval a + fval b = x
  split
  · next hx =>
    have h := roundedOnce_fpack (fsign a && fsign b) 0 Nat.one_pos
    rw [roundMag_zero] at h
    simpa [fractionValue, hx] using h
  · have hv : (x : ℚ) / 2 ^ 149 = fractionValue (decide (x < 0)) x.natAbs 1 := by
      rw [fractionValue, Nat.cast_one, div_one, ← Int.cast_natCast, ← Int.cast_mul, signFactor_mul_natAbs]
    rw [hv]
    exact roundedOnce_fpack _ _ Nat.one_pos

theorem fsub_roundedOnce {a b : F32} (ha : isFinite a = true) (hb : isFinite b = true) :
    RoundedOnce (realValue a - realValue b) (fsub a b) := by
  rw [fsub_eq_fadd_fneg ha hb, sub_eq_add_neg, ← realValue_fneg]
  exact fadd_roundedOnce ha (isFinite_fneg.trans hb)

theorem fmul_roundedOnce {a b : F32} (ha : isFinite a = true) (hb : isFinite b = true) :
    RoundedOnce (realValue a * realValue b) (fmul a b) := by
  have hv : realValue a * realValue b =
      fractionValue (fsign a != fsign b) (units (fmag a) * units (fmag b)) oneUnits := by
    rw [realValue_eq_signFactor_mul a, realValue_eq_signFactor_mul b, fractionValue, signFactor_xor, natCast_oneUnits]
    push_cast
    ring
  rw [fmul_finite ha hb, hv]
  exact roundedOnce_fpack _ _ oneUnits_pos

theorem fdiv_roundedOnce {a b : F32} (ha : isFinite a = true) (hb : isFinite b = true) (h0 : realValue b ≠ 0) :
    RoundedOnce (realValue a / realValue b) (fdiv a b) := by
  have hmag : fmag b ≠ 0 := fun h => h0 (realValue_eq_zero_iff_fmag.2 h)
  have hpos : 0 < units (fmag b) := units_pos.2 (Nat.pos_of_ne_zero hmag)
  have hv : realValue a / realValue b =
      fractionValue (fsign a != fsign b) (units (fmag a) * oneUnits) (units (fmag b)) := by
    have hself : (signFactor (fsign b) : ℚ) * signFactor (fsign b) = 1 := by
      exact_mod_cast signFactor_mul_self (fsign b)
    have hsb : (signFactor (fsign b) : ℚ) ≠ 0 := left_ne_zero_of_mul_eq_one hself
    have hub : (units (fmag b) : ℚ) ≠ 0 := by exact_mod_cast hpos.ne'
    rw [realValue_eq_signFactor_mul a, realValue_eq_signFactor_mul b, fractionValue, signFactor_xor]
    push_cast
    rw [natCast_oneUnits]
    field_simp
    linear_combination -(signFactor (fsign a) : ℚ) * units (fmag a) * hself
  rw [fdiv_finite ha hb hmag, hv]
  exact roundedOnce_fpack _ _ hpos

/-- The sign of an exact zero sum (log 17): minus only when both terms are -0.0. -/
theorem fadd_of_sum_zero {a b : F32} (ha : isFinite a = true) (hb : isFinite b = true) (h : fval a + fval b = 0) :
    fadd a b = if a = 0x80000000#32 ∧ b = 0x80000000#32 then 0x80000000#32 else 0x00000000#32 := by
  have hneg : ∀ x : F32, x = 0x80000000#32 ↔ fsign x = true ∧ fmag x = 0 := fun x =>
    eq_fpack_iff (neg := true) (m := 0) (by norm_num)
  have hsigns : (fsign a && fsign b) = true ↔ a = 0x80000000#32 ∧ b = 0x80000000#32 := by
    rw [hneg, hneg, Bool.and_eq_true]
    refine ⟨fun ⟨hsa, hsb⟩ => ?_, fun ⟨⟨hsa, _⟩, hsb, _⟩ => ⟨hsa, hsb⟩⟩
    simp only [fval, hsa, hsb, if_true] at h
    exact ⟨⟨hsa, units_inj.1 (by rw [units_zero]; omega)⟩, hsb, units_inj.1 (by rw [units_zero]; omega)⟩
  rw [fadd_finite ha hb, if_pos h]
  simp only [← hsigns]
  cases fsign a && fsign b <;> rfl

theorem fsub_of_difference_zero {a b : F32} (ha : isFinite a = true) (hb : isFinite b = true)
    (h : fval a - fval b = 0) :
    fsub a b = if a = 0x80000000#32 ∧ b = 0x00000000#32 then 0x80000000#32 else 0x00000000#32 := by
  have hopposite : fneg b = 0x80000000#32 ↔ b = 0x00000000#32 := by
    simp [fneg]
  rw [fsub_eq_fadd_fneg ha hb, fadd_of_sum_zero ha (isFinite_fneg.trans hb) (by rw [fval_fneg]; omega)]
  simp only [hopposite]

theorem fsign_fmul {a b : F32} (ha : isFinite a = true) (hb : isFinite b = true) :
    fsign (fmul a b) = (fsign a ^^ fsign b) := by
  rw [fmul_finite ha hb, fsign_fpack (roundMag_lt _ _)]

theorem fsign_fdiv {a b : F32} (ha : isFinite a = true) (hb : isFinite b = true) (h0 : fmag b ≠ 0) :
    fsign (fdiv a b) = (fsign a ^^ fsign b) := by
  rw [fdiv_finite ha hb h0, fsign_fpack (roundMag_lt _ _)]

/-- Over a zero: an infinity, or a NaN when the dividend is a zero too (log 17, log 9). -/
theorem fdiv_by_zero {a b : F32} (ha : isFinite a = true) (hb : isFinite b = true) (h0 : fmag b = 0) :
    fdiv a b = if fmag a = 0 then nanResult .div a b else fpack (fsign a != fsign b) infMag := by
  simp [fdiv, not_isNaN_of_isFinite ha, not_isNaN_of_isFinite hb, not_isInf_of_isFinite ha,
    not_isInf_of_isFinite hb, h0]

/-- Settles O50: each operation packs one rounding of a fraction of units, but for exact zero sums and zero divisors. -/
theorem arithmeticRoundsOnce : Obligations.ArithmeticRoundsOnce := by
  unfold Obligations.ArithmeticRoundsOnce
  intro a b ha hb
  simp only [getLsbD_31_eq_fsign, ne_eq, realValue_eq_zero_iff_fmag]
  refine ⟨?_, fun h => ?_, fun h => ?_, fsign_fmul ha hb, fsign_fdiv ha hb, fun hb0 ha0 => ?_, fun hb0 ha0 => ?_⟩
  · rintro v r (⟨rfl, rfl⟩ | ⟨rfl, rfl⟩ | ⟨rfl, rfl⟩ | ⟨hb0, rfl, rfl⟩)
    · exact fadd_roundedOnce ha hb
    · exact fsub_roundedOnce ha hb
    · exact fmul_roundedOnce ha hb
    · exact fdiv_roundedOnce ha hb fun h => hb0 (realValue_eq_zero_iff_fmag.1 h)
  · have hopposite : realValue a = realValue (fneg b) := by rw [realValue_fneg]; linarith
    rw [realValue_inj, fval_fneg] at hopposite
    exact fadd_of_sum_zero ha hb (by omega)
  · rw [sub_eq_zero, realValue_inj] at h
    exact fsub_of_difference_zero ha hb (by omega)
  · rw [fdiv_by_zero ha hb hb0, if_neg ha0, fpack_infMag]
    cases fsign a <;> cases fsign b <;> rfl
  · rw [fdiv_by_zero ha hb hb0, if_pos ha0]
    exact infMag_lt_fmag_nanResult _ _ _

end Sys2Proof.Machine
end

section
/-!
PROOFS. The invariants of 10_state.md: the reset state satisfies them, and every event keeps them, with the bounds on the
frequencies as long as the MIDI notes sent fit (42 R69, log 8). Both halves of soundness go through one proof: `State.SoundIf`
asks for the bounds only under a condition, which is False for the first half and the premise on the notes for the second.
-/

namespace Sys2Proof.Machine

variable {acc : Prop} {s t : State}

/-! ### Conditional soundness -/

/-- Sound, with the frequencies within their bounds as well if `acc` holds. -/
structure State.SoundIf (acc : Prop) (s : State) : Prop where
  inv : s.Inv
  freq : acc → s.FreqSound

/-- What the commands that load frequencies have to keep: the bound on the increment follows from it. -/
structure State.LoadsAccepted (s : State) : Prop where
  freq : freqAccepted s.oscFreq = true
  entries : s.seqMode = .running →
    ∀ j v, j < s.genLen.toNat → memRead (s.bank s.genBank) j = some v → freqAccepted v = true

/-- In a sound state the frequencies are within their bounds exactly when the loads were accepted (10 R19). -/
theorem State.Inv.freqSound_iff (h : s.Inv) : s.FreqSound ↔ s.LoadsAccepted :=
  ⟨fun hs => ⟨hs.freq, hs.entries⟩, fun hl => ⟨hl.freq, h.deltaBounded hl.freq, hl.entries⟩⟩

theorem State.SoundIf.loadsAccepted (h : s.SoundIf acc) (ha : acc) : s.LoadsAccepted :=
  h.inv.freqSound_iff.1 (h.freq ha)

theorem State.Inv.soundIf (h : s.Inv) (hl : acc → s.LoadsAccepted) : s.SoundIf acc :=
  ⟨h, fun ha => h.freqSound_iff.2 (hl ha)⟩

/-! ### What each part of soundness depends on -/

theorem State.TableSound.congr (h : s.TableSound) (hparams : t.params = s.params := by rfl)
    (hvalid : t.tblValid = s.tblValid := by rfl) (hsize : t.tblSize = s.tblSize := by rfl)
    (hharm : t.tblHarm = s.tblHarm := by rfl) (htbl : t.tbl = s.tbl := by rfl) : t.TableSound := by
  unfold State.TableSound State.TableUnbuilt
  rw [hvalid, hsize, hharm]
  refine ⟨h.1, fun hv => ?_⟩
  obtain ⟨size, harm, readable, guardWord⟩ := h.2 hv
  constructor
  · rwa [hsize, hparams]
  · rwa [hharm, hparams]
  · rwa [hsize, htbl]
  · rwa [hsize, htbl]

theorem State.SourceInstalled.congr (h : s.SourceInstalled) (hparams : t.params = s.params := by rfl)
    (hlen : t.genLen = s.genLen := by rfl) (hcursor : t.genCursor = s.genCursor := by rfl)
    (hbank : t.bank t.genBank = s.bank s.genBank := by rfl) : t.SourceInstalled := by
  constructor
  · rw [hlen, hparams]; exact h.len
  · rw [hcursor, hlen]; exact h.cursor
  · rw [hlen, hbank]; exact h.readable

theorem State.SourceSound.congr (h : s.SourceSound) (hparams : t.params = s.params := by rfl)
    (hmode : t.seqMode = s.seqMode := by rfl) (hlen : t.genLen = s.genLen := by rfl)
    (hcursor : t.genCursor = s.genCursor := by rfl) (hvariant : t.genVariant = s.genVariant := by rfl)
    (hgen : t.genBank = s.genBank := by rfl) (hbank : t.bank t.genBank = s.bank s.genBank := by rfl)
    (helapsed : t.elapsed = s.elapsed := by rfl) : t.SourceSound := by
  unfold State.SourceSound State.SourceIdle
  rw [hmode, hlen, hcursor, hvariant, hgen, helapsed]
  exact ⟨fun hm => (h.1 hm).congr hparams hlen hcursor hbank, h.2⟩

theorem State.Inv.almostSound (h : s.Inv) : s.AlmostSound := { h with delta := h.delta.2 }

/-! ### The environment's record -/

theorem State.SoundIf.environment (h : s.SoundIf acc) (p : List Event) (r : List Response) (n : List NoteChanged)
    (d : List Nat) (k : Nat) :
    State.SoundIf acc { s with pending := p, responses := r, notes := n, draws := d, drawPos := k } :=
  ⟨h.inv.environment p r n d k, fun ha => { h.freq ha with }⟩

theorem State.SoundIf.respond (h : s.SoundIf acc) (p : Port) (c : ResponseCode) (d : List Word) :
    (s.respond p c d).SoundIf acc := h.environment _ _ _ _ _

/-! ### Reset (70 R102) -/

theorem Params.reference_legal : Params.reference.Legal := by
  constructor <;> decide

theorem fsign_zero : fsign 0#32 = false := by decide

theorem isFinite_zero : isFinite 0#32 = true := by decide

theorem freqAccepted_zero : freqAccepted 0#32 = true := by decide +kernel

theorem State.resetWith_inv {p : Params} (h : p.Legal) : (State.resetWith p).Inv where
  legal := h
  fault := ⟨nofun, fun hcause => absurd rfl hcause⟩
  table := ⟨fun _ => ⟨rfl, rfl⟩, nofun⟩
  index := ⟨fsign_zero, isFinite_zero, nofun, fun _ => rfl⟩
  delta := ⟨nofun, fun _ => rfl⟩
  amp := isFinite_zero
  stream := ⟨nofun, fun _ => ⟨rfl, rfl⟩⟩
  tempo := ⟨nofun, fun _ => rfl⟩
  source := ⟨nofun, fun _ => ⟨rfl, rfl, rfl, rfl, rfl⟩⟩
  timer := Nat.zero_le _
  memories := ⟨List.Pairwise.nil, List.Pairwise.nil, List.Pairwise.nil⟩

theorem State.resetWith_loadsAccepted (p : Params) : (State.resetWith p).LoadsAccepted where
  freq := freqAccepted_zero
  entries := nofun

theorem State.resetWith_soundIf {p : Params} (h : p.Legal) : (State.resetWith p).SoundIf acc :=
  (State.resetWith_inv h).soundIf fun _ => State.resetWith_loadsAccepted p

theorem State.doReset_soundIf (h : s.SoundIf acc) : s.doReset.SoundIf acc :=
  (State.resetWith_soundIf h.inv.legal).environment _ _ _ _ _

/-! ### Completing in a sound state (60 R99) -/

/-- The result is a next state, and it is sound. -/
def CompletesSound (acc : Prop) (r : Result) : Prop := ∃ t, r = .next t ∧ t.SoundIf acc

theorem State.SoundIf.completes (h : s.SoundIf acc) : CompletesSound acc (.next s) := ⟨s, rfl, h⟩

theorem State.SoundIf.answer (h : s.SoundIf acc) (c : ResponseCode) : CompletesSound acc (s.answer c) :=
  (h.respond _ _ _).completes

theorem State.SoundIf.answerWord (h : s.SoundIf acc) (w : Word) : CompletesSound acc (s.answerWord w) :=
  (h.respond _ _ _).completes

/-- The fault gate's own answer is sound, so a gated command needs its proof only behind the gate. -/
theorem State.SoundIf.gated (h : s.SoundIf acc) {k : Result} (hk : CompletesSound acc k) :
    CompletesSound acc (s.gated k) := by
  cases hf : s.faulted with
  | true => rw [State.gated_faulted hf]; exact (h.respond _ _ _).completes
  | false => rw [State.gated_sound hf]; exact hk

/-! ### The increment (40 R53) -/

@[simp] theorem State.recomputeDelta_bank (s : State) (b : Bool) : s.recomputeDelta.bank b = s.bank b := by
  simp [State.bank]

theorem State.LoadsAccepted.recomputeDelta (h : s.LoadsAccepted) : s.recomputeDelta.LoadsAccepted := by
  constructor
  · simpa using h.freq
  · simpa using h.entries

theorem State.AlmostSound.recomputeDelta_soundIf (h : s.AlmostSound) (hl : acc → s.LoadsAccepted) :
    s.recomputeDelta.SoundIf acc :=
  h.recomputeDelta.soundIf fun ha => (hl ha).recomputeDelta

/-! ### The oscillator's commands (40 R51, R52) -/

theorem State.SoundIf.setOscAmp (h : s.SoundIf acc) {amp : F32} (hamp : isFinite amp = true) :
    State.SoundIf acc { s with oscAmp := amp } where
  inv := { h.inv with amp := hamp, table := h.inv.table.congr, source := h.inv.source.congr }
  freq ha := { h.freq ha with }

theorem execSetAmplitude_sound (h : s.SoundIf acc) (amp : F32) : CompletesSound acc (execSetAmplitude amp s) := by
  refine h.gated ?_
  split
  · exact h.answer _
  · next hamp => exact (h.setOscAmp (by simpa using hamp)).answer _

theorem State.SoundIf.loadFrequency (h : s.SoundIf acc) {freq : F32} (hfreq : acc → freqAccepted freq = true) :
    (State.recomputeDelta { s with oscFreq := freq }).SoundIf acc := by
  refine State.AlmostSound.recomputeDelta_soundIf ?_ fun ha => ?_
  · exact { h.inv.almostSound with table := h.inv.table.congr, source := h.inv.source.congr }
  · exact { h.loadsAccepted ha with freq := hfreq ha }

theorem execSetFrequency_sound (h : s.SoundIf acc) (freq : F32) :
    CompletesSound acc (execSetFrequency freq s) := by
  refine h.gated ?_
  split
  · exact h.answer _
  · next hfreq => exact (h.loadFrequency fun _ => by simpa using hfreq).answer _

/-! ### PREPARE and SET_TEMPO (43 R76, R77) -/

theorem State.SoundIf.prepare (h : s.SoundIf acc) {spb : Word} {sr : F32} (hlow : 1 ≤ spb.toNat)
    (hhigh : spb.toNat ≤ s.params.blockMax) (hsr : rateAccepted sr = true) :
    (State.recomputeDelta { s with spb := spb, sr := sr, prepared := true }).SoundIf acc := by
  refine State.AlmostSound.recomputeDelta_soundIf ?_ fun ha => { h.loadsAccepted ha with }
  exact { h.inv.almostSound with
    table := h.inv.table.congr
    source := h.inv.source.congr
    delta := fun hnot => h.inv.delta.2 fun hboth => hnot ⟨hboth.1, rfl⟩
    stream := ⟨fun _ => ⟨hsr, hlow, hhigh⟩, nofun⟩
    tempo := ⟨fun _ => rfl, h.inv.tempo.2⟩ }

theorem execPrepare_sound (h : s.SoundIf acc) (spb : Word) (sr : F32) :
    CompletesSound acc (execPrepare spb sr s) := by
  refine h.gated ?_
  split
  · exact h.answer _
  next hspb =>
  split
  · exact h.answer _
  next hsr =>
  simp only [Bool.or_eq_true, decide_eq_true_eq, not_or, not_lt] at hspb
  exact (h.prepare hspb.1 hspb.2 (by simpa using hsr)).answer _

theorem State.SoundIf.setTempo (h : s.SoundIf acc) (hprepared : s.prepared = true) (spn : Word) :
    State.SoundIf acc { s with spn := spn, tempoValid := true } where
  inv := { h.inv with
    table := h.inv.table.congr
    source := h.inv.source.congr
    tempo := ⟨fun _ => hprepared, nofun⟩ }
  freq ha := { h.freq ha with }

/-- `roundHalfAway` is asked for in its domain only: the rate is at least 1.0 and the tempo above 0.0 (43 R77). -/
theorem execSetTempo_sound (h : s.SoundIf acc) (npm : F32) : CompletesSound acc (execSetTempo npm s) := by
  refine h.gated ?_
  split
  · exact h.answer _
  next hnpm =>
  split
  · exact h.answer _
  next hprepared =>
  split
  · exact h.answer _
  next hlength =>
  simp only [Bool.not_eq_true', Bool.not_eq_false] at hnpm hprepared hlength
  have hdomain := noteLength_inDomain (h.inv.stream.1 hprepared).1 hnpm hlength
  simp only [domain_ok.2 ⟨hdomain, rfl⟩]
  split
  · exact h.answer _
  · exact (h.setTempo hprepared _).answer _

/-! ### BUILD_TABLE (41 R58, R61) -/

/-- What a run of writes from word 0 leaves below its length. -/
theorem memRead_memWriteAll_zero (m : WordMem) (vs : List Word) {j : Nat} (hj : j < vs.length) :
    memRead (memWriteAll m 0 vs) j = some vs[j] := by
  rw [memRead_memWriteAll, if_pos (by omega), Nat.sub_zero, List.getElem?_eq_getElem hj]

theorem State.SoundIf.installTable (h : s.SoundIf acc) {size harmonics : Word} {ws : List F32}
    (hunbuilt : s.tblValid = false) (hsize : 4 ≤ size.toNat ∧ size.toNat ≤ s.params.tableSizeMax)
    (hharm : 1 ≤ harmonics.toNat ∧ harmonics.toNat ≤ s.params.harmonicsMax)
    (hws : tableWords sinTurn size.toNat harmonics.toNat = some ws) :
    (s.installTable size harmonics ws).SoundIf acc := by
  have hlegal := h.inv.legal
  obtain ⟨hlen, hrange, hguard, -, -⟩ := tableWords_spec hsize.1 (hsize.2.trans hlegal.tableSize.2)
    (hharm.2.trans hlegal.harmonics.2) hws
  have hread {j : Nat} (hj : j < ws.length) := memRead_memWriteAll_zero s.tbl ws hj
  obtain ⟨hsign, hfinite, -, hstart⟩ := h.inv.index
  refine State.AlmostSound.recomputeDelta_soundIf ?_ fun ha => { h.loadsAccepted ha with }
  refine { h.inv.almostSound with
    source := h.inv.source.congr
    table := ⟨nofun, fun _ => ⟨hsize, hharm, fun i hi => ?_, ?_⟩⟩
    index := ⟨hsign, hfinite, fun _ => ?_, nofun⟩
    delta := fun _ => h.inv.delta.2 (by simp [hunbuilt])
    memories := ⟨memWriteAll_wf h.inv.memories.1 0 ws, h.inv.memories.2⟩ }
  · have hlt : i < ws.length := by rw [hlen]; exact Nat.lt_succ_of_le hi
    exact ⟨ws[i], hread hlt, hrange _ (List.getElem_mem hlt)⟩
  · show memRead (memWriteAll s.tbl 0 ws) size.toNat = memRead (memWriteAll s.tbl 0 ws) 0
    rw [hread (by omega), hread (by omega), ← List.getElem?_eq_getElem, ← List.getElem?_eq_getElem, hguard]
  · show fval s.oscIndex < size.toNat * oneUnits
    rw [hstart hunbuilt, fval_zero]
    exact_mod_cast Nat.mul_pos (by omega) oneUnits_pos

theorem execBuildTable_sound (h : s.SoundIf acc) (size harmonics : Word) :
    CompletesSound acc (execBuildTable size harmonics s) := by
  refine h.gated ?_
  split
  · exact h.answer _
  next hsize =>
  split
  · exact h.answer _
  next hharm =>
  split
  · exact h.answer _
  next hunbuilt =>
  split
  · exact h.answer _
  next ws hws =>
  simp only [Bool.or_eq_true, decide_eq_true_eq, not_or, not_lt] at hsize hharm
  exact (h.installTable (by simpa using hunbuilt) hsize hharm hws).answer _

/-! ### SET_SEQUENCE (42 R67) -/

/-- What 42 R69 says of the notes of a command, as `Event.MidiFits` says it of an event (log 8). -/
def NotesFit (i : Instr) : Prop :=
  ∀ v es, i = .setSequence .midi v es →
    ∀ w ∈ es, w.toNat ≤ Config.midiMax → freqAccepted (midiToHz w.toNat) = true

theorem Event.MidiFits.notesFit {p : Port} {k : Packet} {i : Instr} (h : Event.MidiFits (.command p k))
    (hd : decode p k = .instr i) : NotesFit i := by
  rintro v es rfl
  exact h p k v es rfl hd

theorem State.MemoriesWf.bank (h : s.MemoriesWf) (b : Bool) : memWf (s.bank b) := by
  obtain ⟨-, hseq0, hseq1⟩ := h
  cases b
  · exact hseq0
  · exact hseq1

theorem State.installSequence_memoriesWf (h : s.MemoriesWf) (v : Variant) (hz : List F32) :
    (s.installSequence v hz).MemoriesWf := by
  have hwritten := memWriteAll_wf (h.bank (!s.genBank)) 0 hz
  obtain ⟨htbl, hseq0, hseq1⟩ := h
  unfold State.installSequence State.setBank
  cases hb : s.genBank <;> rw [hb] at hwritten
  · exact ⟨htbl, hseq0, hwritten⟩
  · exact ⟨htbl, hwritten, hseq1⟩

theorem State.toNat_installSequence_genLen {v : Variant} {hz : List F32} (h : hz.length < 2 ^ 16) :
    (s.installSequence v hz).genLen.toNat = hz.length := by
  rw [State.installSequence_frame]
  exact Nat.mod_eq_of_lt h

/-- The active bank after the flip is the one just written. -/
theorem State.memRead_installSequence {v : Variant} {hz : List F32} {j : Nat} (hj : j < hz.length) :
    memRead ((s.installSequence v hz).bank (s.installSequence v hz).genBank) j = some hz[j] := by
  have hgen : (s.installSequence v hz).genBank = !s.genBank := by rw [State.installSequence_frame]
  rw [hgen, State.installSequence_active]
  exact memRead_memWriteAll_zero _ _ hj

theorem State.SoundIf.installSequence (h : s.SoundIf acc) {v : Variant} {hz : List F32} (hpos : 1 ≤ hz.length)
    (hmax : hz.length ≤ s.params.seqMax) (hacc : acc → ∀ f ∈ hz, freqAccepted f = true) :
    (s.installSequence v hz).SoundIf acc := by
  have hseqMax := h.inv.legal.seqLen.2
  have hlen : (s.installSequence v hz).genLen.toNat = hz.length := State.toNat_installSequence_genLen (by omega)
  have hmem := State.installSequence_memoriesWf h.inv.memories v hz
  have hinstalled : (s.installSequence v hz).SourceInstalled := by
    refine ⟨?_, ?_, fun j hj => ?_⟩
    · rw [hlen, State.installSequence_frame]; exact ⟨hpos, hmax⟩
    · rw [hlen, State.installSequence_frame]; exact hpos
    · exact ⟨_, State.memRead_installSequence (hlen ▸ hj)⟩
  have hmode : (s.installSequence v hz).seqMode = .running := by rw [State.installSequence_frame]
  have hsource : (s.installSequence v hz).SourceSound :=
    ⟨fun _ => hinstalled, fun hidle => by rw [hmode] at hidle; cases hidle⟩
  refine State.Inv.soundIf ?_ fun ha => ⟨?_, fun _ j w hj hw => ?_⟩
  · rw [State.installSequence_frame] at hsource hmem ⊢
    exact { h.inv with table := h.inv.table.congr, source := hsource, memories := hmem }
  · rw [State.installSequence_frame]
    exact (h.loadsAccepted ha).freq
  · rw [hlen] at hj
    rw [State.memRead_installSequence hj] at hw
    cases hw
    exact hacc ha _ (List.getElem_mem hj)

theorem execSetSequence_sound (h : s.SoundIf acc) (k : EntryKind) (v : Variant) (es : List Word)
    (hfit : acc → NotesFit (.setSequence k v es)) : CompletesSound acc (execSetSequence k v es s) := by
  refine h.gated ?_
  split
  · exact h.answer _
  next hempty =>
  split
  · exact h.answer _
  next hlong =>
  split
  · exact h.answer _
  next hz hload =>
  have hlen := loadEntries_length hload
  refine (h.installSequence (by omega) (by omega) fun ha => ?_).answer _
  exact loadEntries_accepted hload fun hk => hfit ha v es (by rw [hk])

/-! ### FILL_BLOCK (43 R78) -/

theorem State.SoundIf.raiseFatal (h : s.SoundIf acc) {cause : FaultCause} (hc : cause ≠ .none) (silence : List Word) :
    (s.raiseFatal cause silence).SoundIf acc := by
  have hinv : State.Inv { s with faulted := true, faultCause := cause } :=
    { h.inv with
      table := h.inv.table.congr
      source := h.inv.source.congr
      fault := ⟨fun _ => hc, fun _ => rfl⟩ }
  have hfaulted : State.SoundIf acc { s with faulted := true, faultCause := cause } :=
    ⟨hinv, fun ha => { h.freq ha with }⟩
  exact hfaulted.respond .audio .fatal silence

/-- The boundary check changes what a note boundary changes, and nothing else. -/
theorem State.boundaryCheck_frame (h : s.boundaryCheck = .ok t) :
    t = { s with
      oscFreq := t.oscFreq, oscDelta := t.oscDelta, genCursor := t.genCursor, elapsed := t.elapsed, draws := t.draws,
      drawPos := t.drawPos, notes := t.notes } := by
  unfold State.boundaryCheck at h
  split at h
  · have hframe := State.noteBoundary_frame h
    rw [hframe]
  · cases h; rfl

/-- The frequency after the boundary check is the old one or an entry of the active bank (43 R79). -/
theorem State.boundaryCheck_oscFreq (h : s.boundaryCheck = .ok t) :
    t.oscFreq = s.oscFreq ∨ ∃ j, j < s.genLen.toNat ∧ memRead (s.bank s.genBank) j = some t.oscFreq := by
  unfold State.boundaryCheck at h
  split at h
  · obtain ⟨idx, f, s1, hnext, rfl⟩ := State.noteBoundary_ok.1 h
    obtain ⟨-, hread, -⟩ := State.nextFrequency_ok.1 hnext
    refine .inr ⟨idx, ?_⟩
    simpa using State.seqRead_ok.1 hread
  · cases h; exact .inl rfl

theorem State.LoadsAccepted.boundaryCheck (hl : s.LoadsAccepted) (hm : s.seqMode = .running)
    (h : s.boundaryCheck = .ok t) : t.LoadsAccepted := by
  constructor
  · rcases State.boundaryCheck_oscFreq h with hfreq | ⟨j, hj, hread⟩
    · rw [hfreq]; exact hl.freq
    · exact hl.entries hm j _ hj hread
  · rw [State.boundaryCheck_frame h]; exact hl.entries

/-- The state after the samples: the phase and the timer have moved on (43 R78, R80). -/
theorem State.SoundIf.advance (h : s.SoundIf acc) (hm : s.seqMode = .running) {x : F32} {elapsed : BitVec 64}
    (hplay : State.Playable { s with oscIndex := x })
    (htimer : elapsed.toNat ≤ Config.spnMax + s.params.blockMax) :
    State.SoundIf acc { s with oscIndex := x, elapsed := elapsed } where
  inv := { h.inv with
    table := h.inv.table.congr
    source := ⟨fun _ => (h.inv.source.1 hm).congr, fun hidle => by cases hm.symm.trans hidle⟩
    index := ⟨hplay.sign, hplay.finite, fun _ => hplay.inTable, fun hv => by cases hplay.valid.symm.trans hv⟩
    timer := htimer }
  freq ha := { h.freq ha with }

/-- After the check the timer is at most `spn`, and a block is at most BLOCK_MAX frames, so the sum does not overflow
(43 R80). -/
theorem toNat_elapsed_add {blockMax : Nat} {elapsed : BitVec 64} {frames spn : Word} (htimer : elapsed.toNat ≤ spn.toNat)
    (hframes : frames.toNat ≤ blockMax) :
    (elapsed + frames.zeroExtend 64).toNat ≤ Config.spnMax + blockMax := by
  have hspn := spn.isLt
  have hlt := frames.isLt
  have hmax : Config.spnMax = 2 ^ 32 - 1 := rfl
  rw [BitVec.toNat_add, BitVec.toNat_setWidth]
  omega

/-- A RUNNING block that has passed its checks completes (60 R99). -/
theorem State.SoundIf.runBlock (h : s.SoundIf acc) (hm : s.seqMode = .running) (hv : s.tblValid = true)
    {channels : BitVec 16} {frames : Word} (hframes : frames.toNat ≤ s.params.blockMax) :
    ∃ t, s.runBlock channels frames = .ok t ∧ t.SoundIf acc := by
  obtain ⟨u, hcheck, hinv, htimer, hparams, hvalid⟩ := h.inv.boundaryCheck hm
  have hu : u.SoundIf acc := hinv.soundIf fun ha => (h.loadsAccepted ha).boundaryCheck hm hcheck
  have hrunning : u.seqMode = .running := by rw [State.boundaryCheck_frame hcheck]; exact hm
  obtain ⟨ys, w, hrender, -, hframe, hplay⟩ := (hinv.playable (hvalid.trans hv)).renderMono frames.toNat
  refine ⟨_, State.runBlock_ok.2 ⟨u, ys, w, hcheck, hrender, rfl⟩, State.SoundIf.respond ?_ _ _ _⟩
  rw [hframe] at hplay ⊢
  exact hu.advance hrunning hplay (toNat_elapsed_add htimer (hparams ▸ hframes))

theorem execFillBlock_sound (h : s.SoundIf acc) (channels : BitVec 16) (frames : Word) :
    CompletesSound acc (execFillBlock channels frames s) := by
  unfold execFillBlock
  split
  · exact (h.respond _ _ _).completes
  split
  · exact (h.raiseFatal (by decide) _).completes
  next hshape =>
  split
  · exact (h.respond _ _ _).completes
  next hm =>
  split
  · next cause hcause => exact (h.raiseFatal (State.runningCause_ne_none_cause hcause) _).completes
  next hcause =>
  obtain ⟨-, -, hframes⟩ := State.shapeOk_iff.1 (show s.shapeOk channels frames = true by simpa using hshape)
  obtain ⟨hvalid, -⟩ := State.runningCause_none.1 hcause
  obtain ⟨t, hrun, ht⟩ := h.runBlock hm hvalid (channels := channels) hframes
  rw [outcomeOf_ok hrun]
  exact ht.completes

/-! ### The read-back commands (44 R84 to R86) -/

theorem execReadTable_sound (h : s.SoundIf acc) (index : Word) : CompletesSound acc (execReadTable index s) := by
  unfold execReadTable
  split
  · exact h.answer _
  next hvalid =>
  split
  · exact h.answer _
  next hindex =>
  have hv : s.tblValid = true := by simpa using hvalid
  have hle : u32Operand index ≤ s.tblSize.toNat := by omega
  obtain ⟨w, hw, -⟩ := (h.inv.table.2 hv).readable _ hle
  rw [State.tblRead_ok.2 ⟨hv, hle, hw⟩]
  exact h.answerWord w

theorem execReadReg_sound (h : s.SoundIf acc) (selector : Word) : CompletesSound acc (execReadReg selector s) := by
  unfold execReadReg
  split
  · exact h.answer _
  · exact h.answerWord _

theorem execReadSeq_sound (h : s.SoundIf acc) (index : Word) : CompletesSound acc (execReadSeq index s) := by
  unfold execReadSeq
  split
  · exact h.answer _
  next hidle =>
  split
  · exact h.answer _
  next hindex =>
  have hm : s.seqMode = .running := by
    cases hmode : s.seqMode with
    | idle => exact absurd hmode hidle
    | running => rfl
  have hlt : u32Operand index < s.genLen.toNat := by omega
  obtain ⟨w, hw⟩ := (h.inv.source.1 hm).readable _ hlt
  rw [State.seqRead_ok.2 ⟨hlt, hw⟩]
  exact h.answerWord w

/-! ### Commands, events and steps -/

/-- In a sound state every command completes, in a sound state. -/
theorem exec_sound (h : s.SoundIf acc) (i : Instr) (hfit : acc → NotesFit i) : CompletesSound acc (exec i s) := by
  cases i with
  | buildTable size harmonics => exact execBuildTable_sound h size harmonics
  | prepare samplesPerBlock sampleRate => exact execPrepare_sound h samplesPerBlock sampleRate
  | setFrequency freq => exact execSetFrequency_sound h freq
  | setAmplitude amp => exact execSetAmplitude_sound h amp
  | setTempo npm => exact execSetTempo_sound h npm
  | setSequence kind variant entries => exact execSetSequence_sound h kind variant entries hfit
  | fillBlock channels frames => exact execFillBlock_sound h channels frames
  | readTable index => exact execReadTable_sound h index
  | readReg selector => exact execReadReg_sound h selector
  | readSeq index => exact execReadSeq_sound h index

theorem runEvent_of_instr {p : Port} {k : Packet} {i : Instr} (hd : decode p k = .instr i) :
    runEvent (.command p k) s = exec i s := by
  simp [runEvent, hd]

theorem runEvent_of_illegal {p : Port} {k : Packet} {why : Illegal} (hd : decode p k = .illegal why) :
    runEvent (.command p k) s = .next (s.illegal p) := by
  simp [runEvent, hd]

theorem runEvent_sound (h : s.SoundIf acc) (e : Event) (hfit : acc → e.MidiFits) :
    CompletesSound acc (runEvent e s) := by
  cases e with
  | command p k =>
    cases hd : decode p k with
    | instr i => rw [runEvent_of_instr hd]; exact exec_sound h i fun ha => (hfit ha).notesFit hd
    | illegal why => rw [runEvent_of_illegal hd]; exact (h.respond _ _ _).completes
  | supplyDraw raw => exact (h.environment _ _ _ _ _).completes
  | takeNote => exact h.completes
  | reset => exact (State.doReset_soundIf h).completes

/-- In a sound state a step completes, in a sound state; only the event it takes has to fit. -/
theorem step_sound (h : s.SoundIf acc) (hfit : acc → ∀ e ∈ s.pending.head?, e.MidiFits) :
    CompletesSound acc (step s) := by
  cases hp : s.pending with
  | nil => rw [step_nil hp]; exact h.completes
  | cons e rest =>
    rw [step_cons hp]
    exact runEvent_sound (h.environment _ _ _ _ _) e fun ha => hfit ha e (by rw [hp]; rfl)

theorem soundIf_of_step (h : s.SoundIf acc) (hfit : acc → ∀ e ∈ s.pending.head?, e.MidiFits) (hstep : step s = .next t) :
    t.SoundIf acc := by
  obtain ⟨u, hu, hsound⟩ := step_sound h hfit
  rw [hstep] at hu
  cases hu
  exact hsound

/-! ### The pending events (20 R35) -/

/-- A command sends no event of its own. -/
theorem exec_pending {i : Instr} (h : exec i s = .next t) : t.pending = s.pending := by
  cases i with
  | buildTable size harmonics => rcases execBuildTable_next h with ⟨c, -, -, rfl⟩ | ⟨m, d, rfl⟩ <;> rfl
  | prepare samplesPerBlock sampleRate => rcases execPrepare_next h with ⟨c, -, -, rfl⟩ | ⟨d, rfl⟩ <;> rfl
  | setFrequency freq => rcases execSetFrequency_next h with ⟨c, -, -, rfl⟩ | ⟨d, rfl⟩ <;> rfl
  | setAmplitude amp => rcases execSetAmplitude_next h with ⟨c, -, -, rfl⟩ | rfl <;> rfl
  | setTempo npm => rcases execSetTempo_next h with ⟨c, -, -, rfl⟩ | ⟨d, rfl⟩ <;> rfl
  | setSequence kind variant entries =>
    rcases execSetSequence_next h with ⟨c, -, -, rfl⟩ | ⟨a, b, l, rfl⟩ <;> rfl
  | fillBlock channels frames =>
    rcases execFillBlock_next h with ⟨-, rfl⟩ | ⟨-, -, rfl⟩ | ⟨-, -, -, rfl⟩ | ⟨cause, -, -, -, -, rfl⟩ |
      ⟨-, -, -, -, hrun⟩
    · rfl
    · rfl
    · rfl
    · rfl
    · obtain ⟨mono, -, ht⟩ := State.runBlock_frame hrun
      rw [ht]
  | readTable index => rcases execReadTable_next h with ⟨c, -, -, -, rfl⟩ | ⟨w, rfl⟩ <;> rfl
  | readReg selector => rcases execReadReg_next h with ⟨c, -, -, -, rfl⟩ | ⟨w, rfl⟩ <;> rfl
  | readSeq index => rcases execReadSeq_next h with ⟨c, -, -, -, rfl⟩ | ⟨w, rfl⟩ <;> rfl

theorem runEvent_pending {e : Event} (h : runEvent e s = .next t) : t.pending = s.pending := by
  cases e with
  | command p k =>
    cases hd : decode p k with
    | instr i => rw [runEvent_of_instr hd] at h; exact exec_pending h
    | illegal why => rw [runEvent_of_illegal hd] at h; cases h; rfl
  | supplyDraw raw => cases h; rfl
  | takeNote => cases h; rfl
  | reset => cases h; rfl

/-- A step takes the first pending event and adds none. -/
theorem step_pending (h : step s = .next t) : t.pending = s.pending.tail := by
  cases hp : s.pending with
  | nil => rw [step_nil hp] at h; cases h; exact hp
  | cons e rest => rw [step_cons hp] at h; exact runEvent_pending h

/-! ### Runs -/

theorem run_succ_of_next {M : Host.Core} {k : Nat} {a b : M.State} (h : M.step a = .next b) :
    M.run (k + 1) a = M.run k b := by
  simp [Host.Core.run, h]

/-- A run of any length from a sound state goes on and stays sound, while the events it finds pending fit. -/
theorem run_sound (k : Nat) (h : s.SoundIf acc) (hfit : acc → ∀ e ∈ s.pending, e.MidiFits) :
    ∃ t : State, Host.Core.run Sys2Proof.core k s = .next t ∧ t.SoundIf acc := by
  induction k generalizing s with
  | zero => exact ⟨s, rfl, h⟩
  | succ k ih =>
    obtain ⟨u, hstep, hu⟩ := step_sound h fun ha e he => hfit ha e (List.mem_of_mem_head? he)
    have hrest : acc → ∀ e ∈ u.pending, e.MidiFits := fun ha e he =>
      hfit ha e (List.mem_of_mem_tail (step_pending hstep ▸ he))
    obtain ⟨t, hrun, ht⟩ := ih hu hrest
    exact ⟨t, (run_succ_of_next hstep).trans hrun, ht⟩

/-! ### The phase (10 R18) -/

theorem realValue_lt_natCast_iff {x : F32} {n : Nat} : realValue x < n ↔ fval x < n * oneUnits := by
  unfold realValue
  rw [div_lt_iff₀ (by positivity), ← natCast_oneUnits]
  exact_mod_cast Iff.rfl

theorem State.Playable.phase_range (h : s.Playable) :
    isFinite s.oscIndex = true ∧ 0 ≤ realValue s.oscIndex ∧ realValue s.oscIndex < s.tblSize.toNat :=
  ⟨h.finite, realValue_nonneg_iff.2 (fval_nonneg_of_pos h.sign), realValue_lt_natCast_iff.2 h.inTable⟩

end Sys2Proof.Machine

namespace Sys2Proof.Machine

/-! ### The statements of 10_state.md -/

/-- Settles O12: the empty registers satisfy every clause, for the sizes of 95 part 2, which are legal. -/
theorem resetStateIsSound : Obligations.ResetStateIsSound := by
  unfold Obligations.ResetStateIsSound
  have hsound : State.reset.SoundIf True := State.resetWith_soundIf Params.reference_legal
  exact ⟨hsound.inv, hsound.freq trivial⟩

/-- Settles O13: both halves are `soundIf_of_step`, the first with no condition on the notes, the second under it. -/
theorem everyStepKeepsSoundness : Obligations.EveryStepKeepsSoundness := by
  unfold Obligations.EveryStepKeepsSoundness
  constructor
  · intro s t hinv hstep
    have hsound : s.SoundIf False := ⟨hinv, False.elim⟩
    exact (soundIf_of_step hsound False.elim hstep).inv
  · intro s t e rest hinv hfreq hpending hfit hstep
    have hsound : s.SoundIf True := ⟨hinv, fun _ => hfreq⟩
    refine (soundIf_of_step hsound (fun _ e' he' => ?_) hstep).freq trivial
    rw [hpending] at he'
    cases he'
    exact hfit

/-- Settles O15: the reset state is sound, and a run keeps that, with the premise on the notes as the condition. -/
theorem everyRunFromResetIsSound : Obligations.EveryRunFromResetIsSound := by
  unfold Obligations.EveryRunFromResetIsSound
  intro events k
  have hreset : State.reset.SoundIf (∀ e ∈ events, e.MidiFits) := State.resetWith_soundIf Params.reference_legal
  obtain ⟨t, hrun, ht⟩ := run_sound k (hreset.environment events [] [] [] 0) id
  exact ⟨t, hrun, ht.inv, ht.freq⟩

/-- Settles O27: a render is one OscStep and the rest, and each keeps the state playable. -/
theorem phaseStaysInTheTable : Obligations.PhaseStaysInTheTable := by
  unfold Obligations.PhaseStaysInTheTable
  refine ⟨State.renderMono_zero, fun k s t y ys => ?_, fun k s hinv hvalid => ?_⟩
  · rw [State.renderMono_succ_ok]
    constructor
    · rintro ⟨_, u, _, hstep, hrest, heq⟩
      cases heq
      exact ⟨u, hstep, hrest⟩
    · rintro ⟨u, hstep, hrest⟩
      exact ⟨y, u, ys, hstep, hrest, rfl⟩
  · obtain ⟨ys, t, hrender, hlen, hframe, hplay⟩ := (hinv.playable hvalid).renderMono k
    have hsize : t.tblSize = s.tblSize := by rw [hframe]
    exact ⟨ys, t, hrender, hlen, hframe, hsize ▸ hplay.phase_range⟩

end Sys2Proof.Machine
end

section
/-!
PROOFS. The memories and the transports of 20_memory.md: which command writes which state (R26 to R28), the planar output
buffer (R29), the byte order (R30), and the one transition a command is (R35).
-/

namespace Sys2Proof

/-! ### The byte transport (20 R30) -/

theorem getD_bytesOfWord (w : Word) {j : Nat} (hj : j < 4) :
    (bytesOfWord w).getD j 0#8 = w.extractLsb' (8 * j) 8 := by
  interval_cases j <;> rfl

/-- Bytes that hold a packet's words decode as the packet: it has a header, so it is not the empty packet (30 R40). -/
theorem decodeBytes_of_words (p : Port) {bs : List Byte} {k : Packet} (h : wordsOfBytes bs = some k.words) :
    decodeBytes p bs = decode p k := by
  rw [decodeBytes, h]
  rfl

/-- Settles O8: each byte is a field of the word, and reading words back undoes the transport. -/
theorem bytesCarryWordsLittleEndian : Obligations.BytesCarryWordsLittleEndian := by
  unfold Obligations.BytesCarryWordsLittleEndian
  refine ⟨fun w j hj => ?_, fun p k => decodeBytes_of_words p (wordsOfBytes_flatMap k.words)⟩
  rw [getD_bytesOfWord w hj, BitVec.extractLsb'_toNat, Nat.shiftRight_eq_div_pow]

end Sys2Proof

namespace Sys2Proof.Machine

/-! ### The output buffer (20 R29) -/

theorem planar_succ (channels : Nat) (mono : List F32) :
    planar (channels + 1) mono = mono ++ planar channels mono := by
  rw [planar, List.replicate_succ, List.flatten_cons, planar]

/-- Frame `t` of any channel is frame `t` of channel 0. -/
theorem getElem?_planar {channels c t : Nat} {mono : List F32} (hc : c < channels) (ht : t < mono.length) :
    (planar channels mono)[c * mono.length + t]? = mono[t]? := by
  induction channels generalizing c with
  | zero => omega
  | succ channels ih =>
    rw [planar_succ]
    cases c with
    | zero => rw [Nat.zero_mul, Nat.zero_add, List.getElem?_append_left ht]
    | succ c =>
      have hskip : (c + 1) * mono.length + t = mono.length + (c * mono.length + t) := by ring
      rw [hskip, List.getElem?_append_right (Nat.le_add_right _ _), Nat.add_sub_cancel_left]
      exact ih (by omega)

/-- Settles O28, by induction on the channels: each puts one more copy of channel 0 in front. -/
theorem planarBufferCopiesChannelZero : Obligations.PlanarBufferCopiesChannelZero := by
  unfold Obligations.PlanarBufferCopiesChannelZero
  exact fun channels _ _ mono hc ht => ⟨getElem?_planar hc ht, length_planar channels mono⟩

/-! ### A step runs the decoded command (20 R35) -/

/-- Settles O4: the packet leaves the list, then the event is what its decoded command does. -/
theorem stepRunsTheDecodedCommand : Obligations.StepRunsTheDecodedCommand := by
  unfold Obligations.StepRunsTheDecodedCommand
  intro s p k rest i hpending hdecode
  rw [step_cons hpending]
  exact runEvent_of_instr hdecode

/-! ### Which command writes which state (10 §2, 20 R27, R28) -/

/-- The state `s` with what the command may write taken from `t`: the written-by column of 10 §2, the memories of 20 §1,
and the model's own histories (log 5, log 6). -/
def State.withWritesOf (s t : State) : Instr → State
  | .buildTable _ _ =>
    { s with
      tblValid := t.tblValid, tblSize := t.tblSize, tblHarm := t.tblHarm, tbl := t.tbl, oscDelta := t.oscDelta,
      responses := t.responses }
  | .prepare _ _ =>
    { s with prepared := t.prepared, sr := t.sr, spb := t.spb, oscDelta := t.oscDelta, responses := t.responses }
  | .setFrequency _ => { s with oscFreq := t.oscFreq, oscDelta := t.oscDelta, responses := t.responses }
  | .setAmplitude _ => { s with oscAmp := t.oscAmp, responses := t.responses }
  | .setTempo _ => { s with tempoValid := t.tempoValid, spn := t.spn, responses := t.responses }
  | .setSequence _ _ _ =>
    { s with
      seqMode := t.seqMode, genVariant := t.genVariant, genLen := t.genLen, genBank := t.genBank,
      genCursor := t.genCursor, seq0 := t.seq0, seq1 := t.seq1, responses := t.responses }
  | .fillBlock _ _ =>
    { s with
      faulted := t.faulted, faultCause := t.faultCause, oscIndex := t.oscIndex, oscFreq := t.oscFreq,
      oscDelta := t.oscDelta, elapsed := t.elapsed, genCursor := t.genCursor, notes := t.notes, draws := t.draws,
      drawPos := t.drawPos, responses := t.responses }
  | .readTable _ | .readReg _ | .readSeq _ => { s with responses := t.responses }

section Writers
variable {i : Instr} {s t : State}

theorem execFillBlock_writes {channels : BitVec 16} {frames : Word} (h : execFillBlock channels frames s = .next t) :
    t = s.withWritesOf t (.fillBlock channels frames) := by
  rcases execFillBlock_next h with ⟨-, rfl⟩ | ⟨-, -, rfl⟩ | ⟨-, -, -, rfl⟩ | ⟨cause, -, -, -, -, rfl⟩ |
    ⟨-, -, -, -, hrun⟩
  · rfl
  · rfl
  · rfl
  · rfl
  · obtain ⟨mono, -, hframe⟩ := State.runBlock_frame hrun
    rw [hframe]
    rfl

/-- A command changes only what it may write. -/
theorem exec_writes (h : exec i s = .next t) : t = s.withWritesOf t i := by
  cases i with
  | buildTable size harmonics => rcases execBuildTable_next h with ⟨c, -, -, rfl⟩ | ⟨m, d, rfl⟩ <;> rfl
  | prepare samplesPerBlock sampleRate => rcases execPrepare_next h with ⟨c, -, -, rfl⟩ | ⟨d, rfl⟩ <;> rfl
  | setFrequency freq => rcases execSetFrequency_next h with ⟨c, -, -, rfl⟩ | ⟨d, rfl⟩ <;> rfl
  | setAmplitude amp => rcases execSetAmplitude_next h with ⟨c, -, -, rfl⟩ | rfl <;> rfl
  | setTempo npm => rcases execSetTempo_next h with ⟨c, -, -, rfl⟩ | ⟨d, rfl⟩ <;> rfl
  | setSequence kind variant entries =>
    rcases execSetSequence_next h with ⟨c, -, -, rfl⟩ | ⟨a, b, l, rfl⟩ <;> rfl
  | fillBlock channels frames => exact execFillBlock_writes h
  | readTable index => rcases execReadTable_next h with ⟨c, -, -, -, rfl⟩ | ⟨w, rfl⟩ <;> rfl
  | readReg selector => rcases execReadReg_next h with ⟨c, -, -, -, rfl⟩ | ⟨w, rfl⟩ <;> rfl
  | readSeq index => rcases execReadSeq_next h with ⟨c, -, -, -, rfl⟩ | ⟨w, rfl⟩ <;> rfl

/-- 20 R27: only BUILD_TABLE writes the table and its registers. -/
theorem exec_table (h : exec i s = .next t) (hi : ∀ n hh, i ≠ .buildTable n hh) :
    t.tblValid = s.tblValid ∧ t.tblSize = s.tblSize ∧ t.tblHarm = s.tblHarm ∧ t.tbl = s.tbl := by
  rw [exec_writes h]
  cases i with
  | buildTable n hh => exact absurd rfl (hi n hh)
  | _ => exact ⟨rfl, rfl, rfl, rfl⟩

theorem exec_stream (h : exec i s = .next t) (hi : ∀ p r, i ≠ .prepare p r) :
    t.prepared = s.prepared ∧ t.sr = s.sr ∧ t.spb = s.spb := by
  rw [exec_writes h]
  cases i with
  | prepare p r => exact absurd rfl (hi p r)
  | _ => exact ⟨rfl, rfl, rfl⟩

theorem exec_tempo (h : exec i s = .next t) (hi : ∀ npm, i ≠ .setTempo npm) :
    t.tempoValid = s.tempoValid ∧ t.spn = s.spn := by
  rw [exec_writes h]
  cases i with
  | setTempo npm => exact absurd rfl (hi npm)
  | _ => exact ⟨rfl, rfl⟩

theorem exec_oscAmp (h : exec i s = .next t) (hi : ∀ a, i ≠ .setAmplitude a) : t.oscAmp = s.oscAmp := by
  rw [exec_writes h]
  cases i with
  | setAmplitude a => exact absurd rfl (hi a)
  | _ => rfl

/-- 20 R28: only SET_SEQUENCE writes the banks and the source's registers, the cursor apart. -/
theorem exec_source (h : exec i s = .next t) (hi : ∀ k v es, i ≠ .setSequence k v es) :
    t.seqMode = s.seqMode ∧ t.genVariant = s.genVariant ∧ t.genLen = s.genLen ∧ t.genBank = s.genBank ∧
      t.seq0 = s.seq0 ∧ t.seq1 = s.seq1 := by
  rw [exec_writes h]
  cases i with
  | setSequence k v es => exact absurd rfl (hi k v es)
  | _ => exact ⟨rfl, rfl, rfl, rfl, rfl, rfl⟩

/-- Only FILL_BLOCK moves the phase and the timer, raises a fatal fault, notifies or draws. -/
theorem exec_playback (h : exec i s = .next t) (hi : ∀ c b, i ≠ .fillBlock c b) :
    t.oscIndex = s.oscIndex ∧ t.elapsed = s.elapsed ∧ t.faulted = s.faulted ∧ t.faultCause = s.faultCause ∧
      t.notes = s.notes ∧ t.draws = s.draws ∧ t.drawPos = s.drawPos := by
  rw [exec_writes h]
  cases i with
  | fillBlock c b => exact absurd rfl (hi c b)
  | _ => exact ⟨rfl, rfl, rfl, rfl, rfl, rfl, rfl⟩

theorem exec_oscFreq (h : exec i s = .next t) (hset : ∀ f, i ≠ .setFrequency f) (hfill : ∀ c b, i ≠ .fillBlock c b) :
    t.oscFreq = s.oscFreq := by
  rw [exec_writes h]
  cases i with
  | setFrequency f => exact absurd rfl (hset f)
  | fillBlock c b => exact absurd rfl (hfill c b)
  | _ => rfl

theorem exec_genCursor (h : exec i s = .next t) (hset : ∀ k v es, i ≠ .setSequence k v es)
    (hfill : ∀ c b, i ≠ .fillBlock c b) : t.genCursor = s.genCursor := by
  rw [exec_writes h]
  cases i with
  | setSequence k v es => exact absurd rfl (hset k v es)
  | fillBlock c b => exact absurd rfl (hfill c b)
  | _ => rfl

/-- Only the four commands that recompute the increment write it (40 R53). -/
theorem exec_oscDelta (h : exec i s = .next t) (hbuild : ∀ n hh, i ≠ .buildTable n hh)
    (hprepare : ∀ p r, i ≠ .prepare p r) (hset : ∀ f, i ≠ .setFrequency f) (hfill : ∀ c b, i ≠ .fillBlock c b) :
    t.oscDelta = s.oscDelta := by
  rw [exec_writes h]
  cases i with
  | buildTable n hh => exact absurd rfl (hbuild n hh)
  | prepare p r => exact absurd rfl (hprepare p r)
  | setFrequency f => exact absurd rfl (hset f)
  | fillBlock c b => exact absurd rfl (hfill c b)
  | _ => rfl

end Writers

/-- Settles O17, clause by clause from what each command may write. -/
theorem onlyTheNamedCommandsWrite : Obligations.OnlyTheNamedCommandsWrite := by
  unfold Obligations.OnlyTheNamedCommandsWrite
  intro i s t h
  exact ⟨exec_params h, exec_pending h, exec_table h, exec_stream h, exec_tempo h, exec_oscAmp h, exec_source h,
    exec_playback h, exec_oscFreq h, exec_genCursor h, exec_oscDelta h⟩

end Sys2Proof.Machine
end

section
/-!
PROOFS. Decoding and encoding of 30_encoding.md: what a matched header is (R41, R42), the decode order (R44) and the ports
(R45), the illegal headers (R46), and the responses (R40, R48).
-/

namespace Sys2Proof

/-! ### Headers (30 R41, R42) -/

/-- A header word as a number: each field at its place, the reserved fields zero (30 R41). -/
theorem toNat_headerOf (op : Mnemonic) (k v : Bool) (a : BitVec 16) :
    (headerOf op k v a).toNat = op.opcode.toNat * 2 ^ 24 + k.toNat * 2 ^ 21 + v.toNat * 2 ^ 20 + a.toNat := by
  have hhigh : (headerHigh op k v).toNat = op.opcode.toNat * 2 ^ 8 + k.toNat * 2 ^ 5 + v.toNat * 2 ^ 4 := by
    cases op <;> cases k <;> cases v <;> rfl
  rw [headerOf_eq, BitVec.toNat_append, ← Nat.shiftLeft_add_eq_or_of_lt a.isLt, Nat.shiftLeft_eq, hhigh]
  ring

theorem opcode_range (op : Mnemonic) : 1 ≤ op.opcode.toNat ∧ op.opcode.toNat ≤ 0x0A := by cases op <;> decide

theorem headerK_headerOf_setSequence (k v : Bool) (a : BitVec 16) : headerK (headerOf .setSequence k v a) = k := by
  rw [headerOf_eq, headerK_append]
  cases k <;> cases v <;> rfl

theorem headerV_headerOf_setSequence (k v : Bool) (a : BitVec 16) : headerV (headerOf .setSequence k v a) = v := by
  rw [headerOf_eq, headerV_append]
  cases k <;> cases v <;> rfl

/-- Everything a header that a row matches can be: K, V and A are free in a SET_SEQUENCE, A in a FILL_BLOCK, and no bit is
free in the others (30 R41, R42). -/
theorem selectRow_eq_some {h : Word} {op : Mnemonic} (hsel : selectRow h = some op) :
    (op ≠ .setSequence ∧ op ≠ .fillBlock ∧ h = headerOf op false false 0) ∨
    (op = .fillBlock ∧ h = headerOf .fillBlock false false (headerA h)) ∨
    (op = .setSequence ∧ h = headerOf .setSequence (headerK h) (headerV h) (headerA h)) := by
  have fixed : ∀ {op' : Mnemonic} {hi lo high : BitVec 16}, op' ≠ .setSequence → op' ≠ .fillBlock →
      headerHigh op' false false = high → hi = high ∧ lo = 0#16 → some op' = some op →
      op ≠ .setSequence ∧ op ≠ .fillBlock ∧ hi ++ lo = headerOf op false false 0 := by
    rintro op' hi lo high hseq hfill rfl ⟨rfl, rfl⟩ ⟨⟩
    exact ⟨hseq, hfill, rfl⟩
  rw [eq_append_halves h] at hsel ⊢
  generalize h.extractLsb' 16 16 = hi, h.extractLsb' 0 16 = lo at *
  rw [selectRow_halves] at hsel
  split_ifs at hsel with h1 h2 h3 h4 h5 h6 h7 h8 h9 h10
  · exact .inl (fixed (by decide) (by decide) (by decide) h1 hsel)
  · exact .inl (fixed (by decide) (by decide) (by decide) h2 hsel)
  · exact .inl (fixed (by decide) (by decide) (by decide) h3 hsel)
  · exact .inl (fixed (by decide) (by decide) (by decide) h4 hsel)
  · exact .inl (fixed (by decide) (by decide) (by decide) h5 hsel)
  · cases hsel
    refine .inr (.inr ⟨rfl, ?_⟩)
    rw [headerK_append, headerV_append, headerA_append, headerOf_eq, ← setSequence_high h6]
  · cases hsel
    subst h7
    exact .inr (.inl ⟨rfl, by rw [headerA_append]; rfl⟩)
  · exact .inl (fixed (by decide) (by decide) (by decide) h8 hsel)
  · exact .inl (fixed (by decide) (by decide) (by decide) h9 hsel)
  · exact .inl (fixed (by decide) (by decide) (by decide) h10 hsel)

/-- An unknown opcode or a reserved bit that is not zero: no row matches (30 R46). -/
theorem selectRow_eq_none_of_reserved {h : Word}
    (hbits : h.toNat / 2 ^ 24 = 0 ∨ 0x0B ≤ h.toNat / 2 ^ 24 ∨ h.toNat / 2 ^ 22 % 4 ≠ 0 ∨ h.toNat / 2 ^ 16 % 16 ≠ 0) :
    selectRow h = none := by
  rw [Option.eq_none_iff_forall_ne_some]
  intro op hsel
  have hfields : ∃ k v a, h = headerOf op k v a := by
    rcases selectRow_eq_some hsel with ⟨-, -, hh⟩ | ⟨rfl, hh⟩ | ⟨rfl, hh⟩
    · exact ⟨_, _, _, hh⟩
    · exact ⟨_, _, _, hh⟩
    · exact ⟨_, _, _, hh⟩
  obtain ⟨k, v, a, rfl⟩ := hfields
  have hop := opcode_range op
  have hk := k.toNat_le
  have hv := v.toNat_le
  have ha := a.isLt
  rw [toNat_headerOf] at hbits
  omega

/-! ### Decoding (30 R44) -/

/-- A packet decodes to a command exactly when it passes the three checks of 30 R44. -/
theorem decode_eq_instr_iff {p : Port} {k : Packet} {i : Instr} :
    decode p k = .instr i ↔ ∃ op, selectRow k.header = some op ∧ k.operands.length = operandCount op (headerA k.header) ∧
      p = op.port ∧ i = instrOf op k.header k.operands := by
  unfold decode
  cases selectRow k.header with
  | none => simp
  | some op =>
    by_cases hlen : k.operands.length = operandCount op (headerA k.header)
    · by_cases hport : p = op.port <;> simp [hlen, hport, eq_comm]
    · simp [hlen]

theorem decode_of_noHeaderRow (p : Port) {k : Packet} (h : selectRow k.header = none) :
    decode p k = .illegal .noHeaderRow := by
  simp [decode, h]

theorem decode_of_wrongLength (p : Port) {k : Packet} {op : Mnemonic} (hsel : selectRow k.header = some op)
    (hlen : k.operands.length ≠ operandCount op (headerA k.header)) : decode p k = .illegal .wrongLength := by
  simp [decode, hsel, hlen]

theorem decode_of_wrongPort {p : Port} {k : Packet} {op : Mnemonic} (hsel : selectRow k.header = some op)
    (hlen : k.operands.length = operandCount op (headerA k.header)) (hport : p ≠ op.port) :
    decode p k = .illegal .wrongPort := by
  simp [decode, hsel, hlen, hport]

@[simp] theorem mnemonic_instrOf (op : Mnemonic) (h : Word) (ws : List Word) : (instrOf op h ws).mnemonic = op := by
  cases op <;> rfl

/-! ### Round trips -/

/-- Every command's packet selects the command's own row and has the row's word count. -/
theorem encode_selects_row (i : Instr) : Laws.EncodedRow.Statement i := by
  cases i with
  | buildTable n h => exact Laws.EncodedRow.buildTable n h
  | prepare p r => exact Laws.EncodedRow.prepare p r
  | setFrequency f => exact Laws.EncodedRow.setFrequency f
  | setAmplitude a => exact Laws.EncodedRow.setAmplitude a
  | setTempo npm => exact Laws.EncodedRow.setTempo npm
  | setSequence k v es => exact Laws.EncodedRow.setSequence k v es
  | fillBlock c b => exact Laws.EncodedRow.fillBlock c b
  | readTable i => exact Laws.EncodedRow.readTable i
  | readReg sel => exact Laws.EncodedRow.readReg sel
  | readSeq i => exact Laws.EncodedRow.readSeq i

/-- The fields of a command's packet are the command's operands. -/
theorem instrOf_encode (i : Instr) : instrOf i.mnemonic (encode i).header (encode i).operands = i := by
  cases i with
  | setSequence k v es =>
    simp [Instr.mnemonic, encode, instrOf, headerK_headerOf_setSequence, headerV_headerOf_setSequence]
  | fillBlock c b => simp [Instr.mnemonic, encode, instrOf, headerOf_eq, operandWord]
  | _ => rfl

/-- Settles O1: the packet passes the three checks of 30 R44, and its fields give the command back. -/
theorem decodeOfEncodeIsTheCommand : Obligations.DecodeOfEncodeIsTheCommand := by
  unfold Obligations.DecodeOfEncodeIsTheCommand
  intro i hwf
  obtain ⟨hsel, hlen⟩ := encode_selects_row i hwf
  exact decode_eq_instr_iff.2 ⟨i.mnemonic, hsel, hlen, rfl, (instrOf_encode i).symm⟩

/-- A packet with a row's header and word count is the encoding of the command it stands for. -/
theorem encode_instrOf {h : Word} {ws : List Word} {op : Mnemonic} (hsel : selectRow h = some op)
    (hlen : ws.length = operandCount op (headerA h)) : encode (instrOf op h ws) = ⟨h, ws⟩ := by
  rcases selectRow_eq_some hsel with ⟨hseq, hfill, hh⟩ | ⟨rfl, hh⟩ | ⟨rfl, hh⟩
  · rw [hh]
    cases op with
    | setSequence => exact absurd rfl hseq
    | fillBlock => exact absurd rfl hfill
    | buildTable | prepare =>
      obtain ⟨a, b, rfl⟩ := List.length_eq_two.1 hlen
      rfl
    | setFrequency | setAmplitude | setTempo | readTable | readReg | readSeq =>
      obtain ⟨a, rfl⟩ := List.length_eq_one_iff.1 hlen
      rfl
  · obtain ⟨b, rfl⟩ := List.length_eq_one_iff.1 hlen
    conv_rhs => rw [hh]
    rfl
  · have hcount : BitVec.ofNat 16 ws.length = headerA h := by simp [hlen, operandCount]
    conv_rhs => rw [hh]
    simp only [instrOf, encode, bit_kindOfBit, bit_variantOfBit, hcount]

theorem wellFormed_instrOf {h : Word} {ws : List Word} {op : Mnemonic}
    (hlen : ws.length = operandCount op (headerA h)) : (instrOf op h ws).wellFormed = true := by
  cases op with
  | setSequence =>
    have hlt : ws.length < 2 ^ 16 := by rw [hlen]; exact (headerA h).isLt
    exact decide_eq_true hlt
  | _ => rfl

/-- Settles O2, from what a matched header is. -/
theorem decodedPacketIsTheEncoding : Obligations.DecodedPacketIsTheEncoding := by
  unfold Obligations.DecodedPacketIsTheEncoding
  intro p k i hdecode
  obtain ⟨op, hsel, hlen, rfl, rfl⟩ := decode_eq_instr_iff.1 hdecode
  exact ⟨wellFormed_instrOf hlen, by rw [Instr.port, mnemonic_instrOf], (encode_instrOf hsel hlen).symm⟩

/-! ### Ports (30 R45) -/

theorem port_eq_audio_iff (i : Instr) : i.port = .audio ↔ ∃ c b, i = .fillBlock c b := by
  cases i <;> simp [Instr.port, Instr.mnemonic, Mnemonic.port]

/-- Settles O6: a packet decodes only on its command's port. -/
theorem onlyFillBlockComesOnTheAudioPort : Obligations.OnlyFillBlockComesOnTheAudioPort := by
  unfold Obligations.OnlyFillBlockComesOnTheAudioPort
  intro p k i hdecode
  obtain ⟨-, rfl, -⟩ := decodedPacketIsTheEncoding p k i hdecode
  exact port_eq_audio_iff i

/-- Settles O7 by evaluating the decoder on the five packets. -/
theorem tableWordsDecode : Obligations.TableWordsDecode := by
  unfold Obligations.TableWordsDecode
  decide +kernel

end Sys2Proof

namespace Sys2Proof.Machine

/-! ### One step (30 R44, R46) -/

/-- The step of a packet that decodes to no command: one ILLEGAL_COMMAND response, faulted or not (30 R44). -/
theorem step_of_illegal {s : State} {p : Port} {k : Packet} {rest : List Event} {why : Illegal}
    (hpending : s.pending = .command p k :: rest) (hdecode : decode p k = .illegal why) :
    step s = .next { s with pending := rest, responses := ⟨p, .illegalCommand, []⟩ :: s.responses } := by
  rw [step_cons hpending]
  simp only [runEvent, hdecode]
  rfl

/-- Settles O3: the checks of `decode` are those of 30 R44, in its order. -/
theorem stepDecodesInOrder : Obligations.StepDecodesInOrder := by
  unfold Obligations.StepDecodesInOrder
  intro s p k rest hpending
  refine ⟨fun hnone => step_of_illegal hpending (decode_of_noHeaderRow p hnone),
    fun op hsel => ⟨fun hlen => ?_, fun hlen hport => ?_, fun hlen hport => ?_⟩⟩
  · exact step_of_illegal hpending (decode_of_wrongLength p hsel hlen)
  · exact step_of_illegal hpending (decode_of_wrongPort hsel hlen hport)
  · exact stepRunsTheDecodedCommand s p k rest _ hpending (decode_eq_instr_iff.2 ⟨op, hsel, hlen, hport, rfl⟩)

/-- Settles O5: in each case no row matches the header. -/
theorem unknownHeadersAreIllegal : Obligations.UnknownHeadersAreIllegal := by
  unfold Obligations.UnknownHeadersAreIllegal
  intro s p k rest hpending hheader
  have hnone : selectRow k.header = none := hheader.elim id selectRow_eq_none_of_reserved
  exact step_of_illegal hpending (decode_of_noHeaderRow p hnone)

/-! ### Responses (30 R40, R48) -/

theorem length_silence (channels : BitVec 16) (frames : Word) :
    (silence channels frames).length = channels.toNat * frames.toNat := List.length_replicate

/-- A FAULTED response carries the buffer's silence when the buffer holds the shape, no words when it does not (60 R91). -/
theorem length_faultedBuffer (s : State) (channels : BitVec 16) (frames : Word) :
    (s.faultedBuffer channels frames).length =
      if s.shapeOk channels frames then channels.toNat * frames.toNat else 0 := by
  unfold State.faultedBuffer
  split
  · exact length_silence channels frames
  · rfl

/-- What 30 R40 and R48 ask of a command: one response more, on the command's port, with the data words of its code. -/
def SendsOneResponse (i : Instr) (s t : State) : Prop :=
  ∃ r : Response, t.responses = r :: s.responses ∧ r.port = i.port ∧ r.data.length = dataWordCount s i r.code

/-- A read-back answers an error with no data words, or OK with the word read. -/
theorem sendsOneResponse_of_readBack {i : Instr} {s t : State} (hport : i.port = .control)
    (hcount : ∀ c, dataWordCount s i c = if c = .ok then 1 else 0)
    (h : (∃ c, c ≠ ResponseCode.ok ∧ c ≠ .fatal ∧ c ≠ .faulted ∧ t = s.respond .control c []) ∨
      ∃ w, t = s.respond .control .ok [w]) : SendsOneResponse i s t := by
  rcases h with ⟨c, hc, -, -, rfl⟩ | ⟨w, rfl⟩
  · exact ⟨_, rfl, hport.symm, by rw [hcount, if_neg hc]; rfl⟩
  · exact ⟨_, rfl, hport.symm, by rw [hcount, if_pos rfl]; rfl⟩

/-- A FILL_BLOCK answers with a buffer of its shape, or with no words when the buffer cannot hold the shape. -/
theorem sendsOneResponse_of_fillBlock {channels : BitVec 16} {frames : Word} {s t : State}
    (h : execFillBlock channels frames s = .next t) : SendsOneResponse (.fillBlock channels frames) s t := by
  have hheld : ∀ c, s.shapeOk channels frames = true →
      dataWordCount s (.fillBlock channels frames) c = channels.toNat * frames.toNat := fun c hs => if_pos hs
  rcases execFillBlock_next h with ⟨-, rfl⟩ | ⟨-, hs, rfl⟩ | ⟨-, hs, -, rfl⟩ | ⟨cause, -, hs, -, -, rfl⟩ |
    ⟨-, hs, -, -, hrun⟩
  · exact ⟨_, rfl, rfl, length_faultedBuffer s channels frames⟩
  · exact ⟨_, rfl, rfl, by simp [dataWordCount, hs]⟩
  · exact ⟨_, rfl, rfl, by rw [hheld _ hs, length_silence]⟩
  · exact ⟨_, rfl, rfl, by rw [hheld _ hs, length_silence]⟩
  · obtain ⟨mono, hmono, ht⟩ := State.runBlock_frame hrun
    exact ⟨⟨.audio, .ok, planar channels.toNat mono⟩, by rw [ht], rfl, by rw [hheld _ hs, length_planar, hmono]⟩

/-- Every command sends one response (30 R40, R48). -/
theorem exec_sendsOneResponse {i : Instr} {s t : State} (h : exec i s = .next t) : SendsOneResponse i s t := by
  cases i with
  | buildTable size harmonics =>
    rcases execBuildTable_next h with ⟨c, -, -, rfl⟩ | ⟨m, d, rfl⟩ <;> exact ⟨_, rfl, rfl, rfl⟩
  | prepare samplesPerBlock sampleRate =>
    rcases execPrepare_next h with ⟨c, -, -, rfl⟩ | ⟨d, rfl⟩ <;> exact ⟨_, rfl, rfl, rfl⟩
  | setFrequency freq =>
    rcases execSetFrequency_next h with ⟨c, -, -, rfl⟩ | ⟨d, rfl⟩ <;> exact ⟨_, rfl, rfl, rfl⟩
  | setAmplitude amp =>
    rcases execSetAmplitude_next h with ⟨c, -, -, rfl⟩ | rfl <;> exact ⟨_, rfl, rfl, rfl⟩
  | setTempo npm =>
    rcases execSetTempo_next h with ⟨c, -, -, rfl⟩ | ⟨d, rfl⟩ <;> exact ⟨_, rfl, rfl, rfl⟩
  | setSequence kind variant entries =>
    rcases execSetSequence_next h with ⟨c, -, -, rfl⟩ | ⟨a, b, l, rfl⟩ <;> exact ⟨_, rfl, rfl, rfl⟩
  | fillBlock channels frames => exact sendsOneResponse_of_fillBlock h
  | readTable index => exact sendsOneResponse_of_readBack rfl (fun _ => rfl) (execReadTable_next h)
  | readReg selector => exact sendsOneResponse_of_readBack rfl (fun _ => rfl) (execReadReg_next h)
  | readSeq index => exact sendsOneResponse_of_readBack rfl (fun _ => rfl) (execReadSeq_next h)

/-- Settles O19, command by command; the status words are the codes of 60 R88. -/
theorem eachCommandSendsOneResponse : Obligations.EachCommandSendsOneResponse := by
  unfold Obligations.EachCommandSendsOneResponse
  exact ⟨fun i s t h => exec_sendsOneResponse h, fun p d => ⟨rfl, rfl, rfl, rfl, rfl, rfl⟩⟩

end Sys2Proof.Machine
end

section
/-!
PROOFS. The text of a listing (30 R49): how a line falls into its mnemonic and its operands, and what a run of digits is
worth. The assembler's laws: no proof about lines unfolds it again.
-/

namespace Sys2Proof.Machine

/-! ### Spaces at the ends -/

theorem trimSpaces_eq (cs : List Char) : trimSpaces cs = (cs.dropWhile (· = ' ')).rdropWhile (· = ' ') := rfl

@[simp] theorem trimSpaces_cons_space (cs : List Char) : trimSpaces (' ' :: cs) = trimSpaces cs := by
  simp [trimSpaces_eq]

theorem trimSpaces_of_not_mem {cs : List Char} (h : ' ' ∉ cs) : trimSpaces cs = cs := by
  have hdrop : cs.dropWhile (· = ' ') = cs := List.dropWhile_eq_self_iff.2 fun hpos hc =>
    h (of_decide_eq_true hc ▸ List.getElem_mem hpos)
  rw [trimSpaces_eq, hdrop]
  exact List.rdropWhile_eq_self_iff.2 fun hne hc => h (of_decide_eq_true hc ▸ List.getLast_mem hne)

/-- Dropping from the right stops at the latest at a part without the dropped. -/
theorem rdropWhile_append_of_neg {α : Type} {p : α → Bool} {xs : List α} (hxs : ∀ x ∈ xs, ¬p x) (ys : List α) :
    (xs ++ ys).rdropWhile p = xs ++ ys.rdropWhile p := by
  induction ys using List.reverseRecOn with
  | nil =>
    rw [List.append_nil, List.rdropWhile_nil, List.append_nil]
    exact List.rdropWhile_eq_self_iff.2 fun hne => hxs _ (List.getLast_mem hne)
  | append_singleton ys y ih =>
    rw [← List.append_assoc, List.rdropWhile_concat, List.rdropWhile_concat, ih]
    split <;> simp

/-- Which end is cleared first does not matter. -/
theorem dropWhile_rdropWhile {α : Type} (p : α → Bool) (xs : List α) :
    (xs.rdropWhile p).dropWhile p = (xs.dropWhile p).rdropWhile p := by
  induction xs using List.reverseRecOn with
  | nil => rfl
  | append_singleton xs x ih =>
    rw [List.dropWhile_append]
    by_cases hx : p x
    · rw [List.rdropWhile_concat_pos _ _ _ hx, ih]
      split
      · next hnil => simp [List.isEmpty_iff.1 hnil, hx]
      · rw [List.rdropWhile_concat_pos _ _ _ hx]
    · rw [List.rdropWhile_concat_neg _ _ _ hx, List.dropWhile_append]
      split
      · simp [hx, List.rdropWhile_singleton]
      · rw [List.rdropWhile_concat_neg _ _ _ hx]

theorem trimSpaces_rdropWhile (cs : List Char) : trimSpaces (cs.rdropWhile (· = ' ')) = trimSpaces cs := by
  rw [trimSpaces_eq, dropWhile_rdropWhile, List.rdropWhile_idempotent, trimSpaces_eq]

/-! ### The mnemonic of a line -/

/-- A line's first word ends at its first space; the rest keeps its operands. -/
theorem firstWord_append {word : List Char} (hne : word ≠ []) (hword : ' ' ∉ word) (rest : List Char) :
    firstWord (word ++ ' ' :: rest) = (word, (' ' :: rest).rdropWhile (· = ' ')) := by
  have hmem : ∀ c ∈ word, ¬decide (c = ' ') = true := fun c hc => by
    rw [decide_eq_true_eq]; rintro rfl; exact hword hc
  have hall : ∀ c ∈ word, decide (c ≠ ' ') = true := fun c hc => by simpa using hmem c hc
  have hdrop : (word ++ ' ' :: rest).dropWhile (· = ' ') = word ++ ' ' :: rest := by
    obtain ⟨c, cs, rfl⟩ := List.exists_cons_of_ne_nil hne
    exact List.dropWhile_cons_of_neg (hmem c List.mem_cons_self)
  have hend : (' ' :: rest).rdropWhile (· = ' ') = [] ∨ ∃ cs, (' ' :: rest).rdropWhile (· = ' ') = ' ' :: cs := by
    rcases List.prefix_cons_iff.1 (List.rdropWhile_prefix (· = ' ') (' ' :: rest)) with h | ⟨cs, h, -⟩
    · exact .inl h
    · exact .inr ⟨cs, h⟩
  rw [firstWord, trimSpaces_eq, hdrop, rdropWhile_append_of_neg hmem, List.takeWhile_append_of_pos hall,
    List.dropWhile_append_of_pos hall]
  rcases hend with h | ⟨cs, h⟩ <;> simp [h]

theorem operandTexts_eq_of_trimSpaces_eq {cs ds : List Char} (h : trimSpaces cs = trimSpaces ds) :
    operandTexts cs = operandTexts ds := by
  rw [operandTexts, operandTexts, h]

theorem lineForms_word : ∀ f ∈ lineForms, f.1.toList ≠ [] ∧ ' ' ∉ f.1.toList := by decide

theorem lineForms_nodup : (lineForms.map Prod.fst).Nodup := by decide

/-- A line that begins with the word of a form is read by that form (30 R49, R50): the words are distinct. -/
theorem assembleLine_of_form {line word : String} {form : List (List Char) → Option Instr} {rest : List Char}
    (hform : (word, form) ∈ lineForms) (hline : line.toList = word.toList ++ ' ' :: rest) :
    assembleLine line = form (operandTexts rest) := by
  obtain ⟨hne, hspace⟩ := lineForms_word _ hform
  have hfind : lineForms.find? (fun f => f.1.toList = word.toList) = some (word, form) := by
    obtain ⟨found, hfound⟩ : ∃ found, lineForms.find? (fun f => f.1.toList = word.toList) = some found :=
      Option.isSome_iff_exists.1 (List.find?_isSome.2 ⟨_, hform, decide_eq_true rfl⟩)
    have hword : found.1 = word := String.toList_injective (by simpa using List.find?_some hfound)
    rw [hfound, List.inj_on_of_nodup_map lineForms_nodup (List.mem_of_find?_eq_some hfound) hform hword]
  have hrest : operandTexts ((' ' :: rest).rdropWhile (· = ' ')) = operandTexts rest :=
    operandTexts_eq_of_trimSpaces_eq (by rw [trimSpaces_rdropWhile, trimSpaces_cons_space])
  rw [assembleLine, hline, firstWord_append hne hspace]
  simp only [hfind, hrest]

/-! ### The operands of a line -/

theorem splitChars_ne_nil (sep : Char) (cs : List Char) : splitChars sep cs ≠ [] := by
  cases cs with
  | nil => simp [splitChars]
  | cons c cs =>
    simp only [splitChars, List.foldr_cons]
    split
    · simp
    · split <;> simp

@[simp] theorem splitChars_cons_sep (sep : Char) (cs : List Char) :
    splitChars sep (sep :: cs) = [] :: splitChars sep cs := by
  simp [splitChars]

theorem splitChars_cons_of_ne {sep c : Char} {cs w : List Char} {ws : List (List Char)} (hc : c ≠ sep)
    (h : splitChars sep cs = w :: ws) : splitChars sep (c :: cs) = (c :: w) :: ws := by
  rw [splitChars] at h ⊢
  rw [List.foldr_cons, h, if_neg hc]

theorem splitChars_of_not_mem {sep : Char} {cs : List Char} (h : sep ∉ cs) : splitChars sep cs = [cs] := by
  induction cs with
  | nil => rfl
  | cons c cs ih =>
    exact splitChars_cons_of_ne (List.ne_of_not_mem_cons h).symm (ih (List.not_mem_of_not_mem_cons h))

theorem splitChars_append {sep : Char} {cs : List Char} (h : sep ∉ cs) (rest : List Char) :
    splitChars sep (cs ++ sep :: rest) = cs :: splitChars sep rest := by
  induction cs with
  | nil => exact splitChars_cons_sep sep rest
  | cons c cs ih =>
    exact splitChars_cons_of_ne (List.ne_of_not_mem_cons h).symm (ih (List.not_mem_of_not_mem_cons h))

/-- A space before an operand is not part of it. -/
theorem map_trimSpaces_splitChars_cons_space {sep : Char} (hsep : ' ' ≠ sep) (cs : List Char) :
    (splitChars sep (' ' :: cs)).map trimSpaces = (splitChars sep cs).map trimSpaces := by
  obtain ⟨w, ws, h⟩ := List.exists_cons_of_ne_nil (splitChars_ne_nil sep cs)
  rw [splitChars_cons_of_ne hsep h, h, List.map_cons, List.map_cons, trimSpaces_cons_space]

/-- A text that stands in a line as one operand. -/
def IsOperandText (t : List Char) : Prop := t ≠ [] ∧ ' ' ∉ t ∧ ',' ∉ t

/-- The pieces between the commas of an operand list are the operands. -/
theorem splitChars_operandsText {ts : List (List Char)} (hne : ts ≠ []) (h : ∀ t ∈ ts, IsOperandText t) :
    (splitChars ',' (operandsText ts)).map trimSpaces = ts := by
  induction ts with
  | nil => exact absurd rfl hne
  | cons t ts ih =>
    obtain ⟨-, hspace, hcomma⟩ := h t List.mem_cons_self
    cases ts with
    | nil => rw [operandsText, splitChars_of_not_mem hcomma, List.map_singleton, trimSpaces_of_not_mem hspace]
    | cons u us =>
      rw [operandsText, splitChars_append hcomma, List.map_cons, trimSpaces_of_not_mem hspace,
        map_trimSpaces_splitChars_cons_space (by decide),
        ih (List.cons_ne_nil _ _) fun t ht => h t (List.mem_cons_of_mem _ ht)]

/-- An operand list begins with its first operand. -/
theorem operandsText_head {t : List Char} (ts : List (List Char)) (h : IsOperandText t) :
    ∃ c cs, operandsText (t :: ts) = c :: cs ∧ c ≠ ' ' := by
  obtain ⟨hne, hspace, -⟩ := h
  obtain ⟨c, cs, rfl⟩ := List.exists_cons_of_ne_nil hne
  have hc : c ≠ ' ' := fun hc => hspace (hc ▸ List.mem_cons_self)
  cases ts with
  | nil => exact ⟨c, cs, rfl, hc⟩
  | cons u us => exact ⟨c, _, rfl, hc⟩

/-- An operand list ends with its last operand. -/
theorem operandsText_last {ts : List (List Char)} (hne : ts ≠ []) (h : ∀ t ∈ ts, IsOperandText t) :
    ∃ cs c, operandsText ts = cs ++ [c] ∧ c ≠ ' ' := by
  induction ts with
  | nil => exact absurd rfl hne
  | cons t ts ih =>
    cases ts with
    | nil =>
      obtain ⟨hne, hspace, -⟩ := h t List.mem_cons_self
      refine ⟨t.dropLast, t.getLast hne, (List.dropLast_append_getLast hne).symm, fun hc => hspace ?_⟩
      exact hc ▸ List.getLast_mem hne
    | cons u us =>
      obtain ⟨cs, c, hcs, hc⟩ := ih (List.cons_ne_nil _ _) fun t ht => h t (List.mem_cons_of_mem _ ht)
      exact ⟨t ++ ',' :: ' ' :: cs, c, by rw [operandsText, hcs]; simp, hc⟩

/-- The operands of a printed operand list are what was printed. -/
theorem operandTexts_operandsText {ts : List (List Char)} (h : ∀ t ∈ ts, IsOperandText t) :
    operandTexts (operandsText ts) = ts := by
  cases ts with
  | nil => rfl
  | cons t ts =>
    have hne : t :: ts ≠ [] := List.cons_ne_nil t ts
    obtain ⟨c, cs, hhead, hc⟩ := operandsText_head ts (h t List.mem_cons_self)
    obtain ⟨ds, d, hlast, hd⟩ := operandsText_last hne h
    have hdrop : (operandsText (t :: ts)).dropWhile (· = ' ') = operandsText (t :: ts) := by
      rw [hhead]; exact List.dropWhile_cons_of_neg (by simpa using hc)
    have htrim : trimSpaces (operandsText (t :: ts)) = operandsText (t :: ts) := by
      rw [trimSpaces_eq, hdrop, hlast]; exact List.rdropWhile_concat_neg _ _ _ (by simpa using hd)
    rw [operandTexts, htrim, if_neg (by rw [hhead]; exact List.cons_ne_nil c cs)]
    exact splitChars_operandsText hne h

/-- One operand alone. -/
theorem operandTexts_singleton {t : List Char} (h : IsOperandText t) : operandTexts t = [t] :=
  operandTexts_operandsText (ts := [t]) (by simpa using h)

theorem toList_lineText (word : String) (ops : List (List Char)) :
    (lineText word ops).toList = word.toList ++ ' ' :: operandsText ops := String.toList_ofList

/-- A printed line is read by the form of its word, from the operands printed. -/
theorem assembleLine_lineText {word : String} {form : List (List Char) → Option Instr} {ops : List (List Char)}
    (hform : (word, form) ∈ lineForms) (hops : ∀ t ∈ ops, IsOperandText t) :
    assembleLine (lineText word ops) = form ops := by
  rw [assembleLine_of_form hform (toList_lineText word ops), operandTexts_operandsText hops]

/-! ### Digits -/

/-- The value of a run of digits read after digits worth `a`. -/
def digitsFrom (base a : Nat) (cs : List Char) : Option Nat :=
  cs.foldl (fun acc c => acc.bind fun a => (digitValue base c).map fun d => a * base + d) (some a)

theorem digitsValue_of_ne_nil {base : Nat} {cs : List Char} (h : cs ≠ []) :
    digitsValue base cs = digitsFrom base 0 cs := if_neg h

@[simp] theorem digitsFrom_nil (base a : Nat) : digitsFrom base a [] = some a := rfl

theorem digitsFrom_cons {base a d : Nat} {c : Char} (h : digitValue base c = some d) (cs : List Char) :
    digitsFrom base a (c :: cs) = digitsFrom base (a * base + d) cs := by
  rw [digitsFrom, List.foldl_cons, h]; rfl

theorem digitsFrom_cons_of_none {base a : Nat} {c : Char} (h : digitValue base c = none) (cs : List Char) :
    digitsFrom base a (c :: cs) = none := by
  rw [digitsFrom, List.foldl_cons, h]
  exact List.foldl_fixed' (fun _ => rfl) cs

theorem digitsFrom_append (base a : Nat) (cs ds : List Char) :
    digitsFrom base a (cs ++ ds) = (digitsFrom base a cs).bind fun v => digitsFrom base v ds := by
  induction cs generalizing a with
  | nil => rfl
  | cons c cs ih =>
    cases hc : digitValue base c with
    | none => rw [List.cons_append, digitsFrom_cons_of_none hc, digitsFrom_cons_of_none hc, Option.bind_none]
    | some d => rw [List.cons_append, digitsFrom_cons hc, digitsFrom_cons hc, ih]

/-- What stands before counts as many times the power of the base as there are digits after it. -/
theorem digitsFrom_eq_map (base a : Nat) (cs : List Char) :
    digitsFrom base a cs = (digitsFrom base 0 cs).map fun v => a * base ^ cs.length + v := by
  induction cs generalizing a with
  | nil => simp
  | cons c cs ih =>
    cases hc : digitValue base c with
    | none => rw [digitsFrom_cons_of_none hc, digitsFrom_cons_of_none hc, Option.map_none]
    | some d =>
      rw [digitsFrom_cons hc, digitsFrom_cons hc, ih, ih (0 * base + d), Option.map_map]
      congr 1
      funext v
      simp only [Function.comp_apply, List.length_cons]
      ring

theorem digitValue_digitChar {base d : Nat} (hbase : base ≤ 16) (hd : d < base) :
    digitValue base d.digitChar = some d := by
  have hd16 : d < 16 := by omega
  interval_cases d <;> exact if_pos hd

/-- The digits of a number have its value. -/
theorem digitsFrom_toDigits {base : Nat} (hbase : 1 < base) (hbase16 : base ≤ 16) (n : Nat) :
    digitsFrom base 0 (Nat.toDigits base n) = some n := by
  induction n using Nat.strongRecOn with
  | ind n ih =>
    rcases Nat.lt_or_ge n base with hn | hn
    · rw [Nat.toDigits_of_lt_base hn, digitsFrom_cons (digitValue_digitChar hbase16 hn)]
      simp
    · have hlast := digitValue_digitChar hbase16 (Nat.mod_lt n (by omega : 0 < base))
      rw [Nat.toDigits_of_base_le hbase hn, digitsFrom_append, ih _ (Nat.div_lt_self (by omega) hbase),
        Option.bind_some, digitsFrom_cons hlast, digitsFrom_nil, Nat.div_add_mod']

/-- Zeros in front of a run of digits do not change its value. -/
theorem digitsFrom_leftpad {base : Nat} (hbase : 0 < base) (k : Nat) (cs : List Char) :
    digitsFrom base 0 (List.leftpad k '0' cs) = digitsFrom base 0 cs := by
  have hzero : digitValue base '0' = some 0 := if_pos hbase
  rw [List.leftpad]
  induction k - cs.length with
  | zero => rfl
  | succ j ih => rw [List.replicate_succ, List.cons_append, digitsFrom_cons hzero, Nat.zero_mul, ih]

/-- A run of digits that has a value holds digits only. -/
theorem not_mem_of_digitsFrom {base a v : Nat} {cs : List Char} {c : Char} (h : digitsFrom base a cs = some v)
    (hc : digitValue base c = none) : c ∉ cs := by
  intro hmem
  obtain ⟨xs, ys, rfl⟩ := List.append_of_mem hmem
  rw [digitsFrom_append] at h
  obtain ⟨w, -, hw⟩ := Option.bind_eq_some_iff.1 h
  rw [digitsFrom_cons_of_none hc] at hw
  cases hw

section Decimals
variable {c : Char} (n : Nat)

theorem digitsValue_decimal : digitsValue 10 (Nat.toDigits 10 n) = some n := by
  rw [digitsValue_of_ne_nil Nat.toDigits_ne_nil, digitsFrom_toDigits (by decide) (by decide)]

theorem not_mem_decimal (hc : digitValue 10 c = none) : c ∉ Nat.toDigits 10 n :=
  not_mem_of_digitsFrom (digitsFrom_toDigits (by decide) (by decide) n) hc

theorem not_mem_hexadecimal (hc : digitValue 16 c = none) : c ∉ Nat.toDigits 16 n :=
  not_mem_of_digitsFrom (digitsFrom_toDigits (by decide) (by decide) n) hc

theorem isOperandText_decimal : IsOperandText (Nat.toDigits 10 n) :=
  ⟨Nat.toDigits_ne_nil, not_mem_decimal n (by decide), not_mem_decimal n (by decide)⟩

end Decimals

end Sys2Proof.Machine
end

section
/-!
PROOFS. The assembler of 30 R49 and R50: what its literals are worth, which command a printed line gives, and which commands
any line can give.
-/

namespace Sys2Proof.Machine

/-! ### Whole-number literals -/

theorem natLiteral_decimal (n : Nat) : natLiteral (Nat.toDigits 10 n) = some n := by
  unfold natLiteral
  split
  · next hs hcs => exact absurd (by simp [hcs]) (not_mem_decimal (c := 'x') n (by decide))
  · exact digitsValue_decimal n

theorem natLiteral_hexadecimal (n : Nat) : natLiteral ('0' :: 'x' :: Nat.toDigits 16 n) = some n := by
  rw [natLiteral, digitsValue_of_ne_nil Nat.toDigits_ne_nil, digitsFrom_toDigits (by decide) (by decide)]

theorem u32Literal_of_natLiteral {cs : List Char} {w : Word} (h : natLiteral cs = some w.toNat) :
    u32Literal cs = some w := by
  rw [u32Literal, h, Option.bind_some, if_pos w.isLt, BitVec.ofNat_toNat, BitVec.setWidth_eq]

theorem u32Literal_u32Text (w : Word) : u32Literal (u32Text w) = some w :=
  u32Literal_of_natLiteral (natLiteral_decimal w.toNat)

theorem channelLiteral_decimal (c : BitVec 16) : channelLiteral (Nat.toDigits 10 c.toNat) = some c := by
  rw [channelLiteral, natLiteral_decimal, Option.bind_some, if_pos c.isLt, BitVec.ofNat_toNat, BitVec.setWidth_eq]

theorem regNames_not_digits : ∀ name ∈ regNames, (name.toList.any fun c => digitValue 10 c = none) = true := by decide

/-- No register name of 44 R85 is a number, so a number is read as a selector. -/
theorem selectorLiteral_u32Text {sel : Word} (h : sel.toNat ≤ 13) : selectorLiteral (u32Text sel) = some sel := by
  have hfind : (regNames.map String.toList).findIdx? (· = u32Text sel) = none := by
    refine List.findIdx?_eq_none_iff.2 (List.forall_mem_map.2 fun name hname => decide_eq_false fun heq => ?_)
    obtain ⟨c, hmem, hc⟩ := List.any_eq_true.1 (regNames_not_digits name hname)
    rw [heq] at hmem
    exact not_mem_decimal sel.toNat (of_decide_eq_true hc) hmem
  rw [selectorLiteral, hfind]
  simp only [u32Literal_u32Text, Option.bind_some, if_pos h]

/-- A selector read from a text is one of 44 R85. -/
theorem selectorLiteral_le {cs : List Char} {sel : Word} (h : selectorLiteral cs = some sel) : sel.toNat ≤ 13 := by
  unfold selectorLiteral at h
  split at h
  · next j hj =>
    obtain ⟨hlt, -⟩ := List.findIdx?_eq_some_iff_getElem.1 hj
    have hlen : j < 14 := hlt
    cases h
    rw [BitVec.toNat_ofNat]
    omega
  · obtain ⟨w, -, hw⟩ := Option.bind_eq_some_iff.1 h
    split at hw
    · next hle => cases hw; exact hle
    · cases hw

/-! ### Raw bit patterns -/

theorem f32Text_eq (w : F32) : f32Text w = "f32:0x".toList ++ List.leftpad 8 '0' (Nat.toDigits 16 w.toNat) := rfl

theorem f32Literal_raw {hs : List Char} (h : hs.length = 8) :
    f32Literal ("f32:0x".toList ++ hs) = (digitsValue 16 hs).map (BitVec.ofNat 32) := if_pos h

theorem f32Literal_f32Text (w : F32) : f32Literal (f32Text w) = some w := by
  have hlen : (List.leftpad 8 '0' (Nat.toDigits 16 w.toNat)).length = 8 := by
    have hle := Nat.toDigits_length 16 w.toNat 8 (by decide) w.isLt
    rw [List.length_leftpad]
    omega
  have hne : List.leftpad 8 '0' (Nat.toDigits 16 w.toNat) ≠ [] := List.ne_nil_of_length_pos (by omega)
  rw [f32Text_eq, f32Literal_raw hlen, digitsValue_of_ne_nil hne, digitsFrom_leftpad (by decide),
    digitsFrom_toDigits (by decide) (by decide), Option.map_some, BitVec.ofNat_toNat, BitVec.setWidth_eq]

theorem isOperandText_f32Text (w : F32) : IsOperandText (f32Text w) := by
  have hspace := not_mem_hexadecimal (c := ' ') w.toNat (by decide)
  have hcomma := not_mem_hexadecimal (c := ',') w.toNat (by decide)
  refine ⟨by simp [f32Text_eq], ?_, ?_⟩ <;> simp [f32Text_eq, List.leftpad, hspace, hcomma]

theorem isOperandText_u32Text (w : Word) : IsOperandText (u32Text w) := isOperandText_decimal w.toNat

/-! ### Printed lines (30 R49) -/

theorem allLiterals_map {read : List Char → Option Word} {text : Word → List Char} (h : ∀ w, read (text w) = some w)
    (ws : List Word) : allLiterals read (ws.map text) = some ws := by
  induction ws with
  | nil => rfl
  | cons w ws ih => simp only [List.map_cons, allLiterals, h, ih]

theorem isOperandText_entryText (k : EntryKind) (w : Word) : IsOperandText (entryText k w) := by
  cases k with
  | hz => exact isOperandText_f32Text w
  | midi => exact isOperandText_u32Text w

theorem sequenceLine_entryText {k : EntryKind} {v : Variant} {es : List Word} (h : es.length < 2 ^ 16) :
    sequenceLine k v (es.map (entryText k)) = some (.setSequence k v es) := by
  cases k with
  | hz => rw [sequenceLine, allLiterals_map (text := entryText .hz) f32Literal_f32Text, Option.bind_some, if_pos h]
  | midi => rw [sequenceLine, allLiterals_map (text := entryText .midi) u32Literal_u32Text, Option.bind_some, if_pos h]

theorem sequenceWord_mem_lineForms (k : EntryKind) (v : Variant) : (sequenceWord k v, sequenceLine k v) ∈ lineForms := by
  cases k <;> cases v <;> simp [lineForms, sequenceWord]

/-- A line with one operand gives the command of the value its form reads. -/
theorem assembleLine_oneOperand {line word : String} {read : List Char → Option Word} {mk : Word → Instr} {t : List Char}
    {w : Word} (hform : (word, oneOperand read mk) ∈ lineForms) (hline : line.toList = word.toList ++ ' ' :: t)
    (htext : IsOperandText t) (hread : read t = some w) : assembleLine line = some (mk w) := by
  rw [assembleLine_of_form hform hline, operandTexts_singleton htext, oneOperand, hread, Option.map_some]

/-- A printed line with two operands gives the command of the values its form reads. -/
theorem assembleLine_twoOperands {word : String} {read read' : List Char → Option Word} {mk : Word → Word → Instr}
    {t t' : List Char} {w w' : Word} (hform : (word, twoOperands read read' mk) ∈ lineForms)
    (htext : IsOperandText t) (htext' : IsOperandText t') (hread : read t = some w) (hread' : read' t' = some w') :
    assembleLine (lineText word [t, t']) = some (mk w w') := by
  rw [assembleLine_lineText hform (by simp [htext, htext']), twoOperands, hread, Option.bind_some, hread', Option.map_some]

/-- The printed line of a command assembles to it (30 R49). -/
theorem assembleLine_lineOf {i : Instr} (hwf : i.wellFormed = true) (hsel : ∀ sel, i = .readReg sel → sel.toNat ≤ 13) :
    assembleLine (lineOf i) = some i := by
  cases i with
  | buildTable n h =>
    exact assembleLine_twoOperands (by simp [lineForms]) (isOperandText_u32Text n) (isOperandText_u32Text h)
      (u32Literal_u32Text n) (u32Literal_u32Text h)
  | prepare p r =>
    exact assembleLine_twoOperands (by simp [lineForms]) (isOperandText_u32Text p) (isOperandText_f32Text r)
      (u32Literal_u32Text p) (f32Literal_f32Text r)
  | setFrequency f =>
    exact assembleLine_oneOperand (by simp [lineForms]) (toList_lineText _ _) (isOperandText_f32Text f)
      (f32Literal_f32Text f)
  | setAmplitude a =>
    exact assembleLine_oneOperand (by simp [lineForms]) (toList_lineText _ _) (isOperandText_f32Text a)
      (f32Literal_f32Text a)
  | setTempo npm =>
    exact assembleLine_oneOperand (by simp [lineForms]) (toList_lineText _ _) (isOperandText_f32Text npm)
      (f32Literal_f32Text npm)
  | setSequence k v es =>
    rw [lineOf, assembleLine_lineText (sequenceWord_mem_lineForms k v) (by simp [isOperandText_entryText])]
    exact sequenceLine_entryText (of_decide_eq_true hwf)
  | fillBlock c b =>
    rw [lineOf, assembleLine_lineText (form := fillLine) (by simp [lineForms])
      (by simp [isOperandText_u32Text, isOperandText_decimal])]
    simp [fillLine, channelLiteral_decimal, u32Literal_u32Text]
  | readTable j =>
    exact assembleLine_oneOperand (by simp [lineForms]) (toList_lineText _ _) (isOperandText_u32Text j)
      (u32Literal_u32Text j)
  | readReg sel =>
    exact assembleLine_oneOperand (by simp [lineForms]) (toList_lineText _ _) (isOperandText_u32Text sel)
      (selectorLiteral_u32Text (hsel sel rfl))
  | readSeq j =>
    exact assembleLine_oneOperand (by simp [lineForms]) (toList_lineText _ _) (isOperandText_u32Text j)
      (u32Literal_u32Text j)

/-- The printed BUILD_TABLE: its mnemonic and its operands in decimal. -/
theorem lineOf_buildTable (n h : Word) :
    lineOf (.buildTable n h) = "BUILD_TABLE " ++ toString n.toNat ++ ", " ++ toString h.toNat := by
  apply String.toList_injective
  simp [lineOf, toList_lineText, operandsText, u32Text]

theorem assembleLine_readTable_hexadecimal (w : Word) :
    assembleLine ("READ_TABLE 0x" ++ String.ofList (Nat.toDigits 16 w.toNat)) = some (.readTable w) := by
  have htext : IsOperandText ('0' :: 'x' :: Nat.toDigits 16 w.toNat) := by
    have hspace := not_mem_hexadecimal (c := ' ') w.toNat (by decide)
    have hcomma := not_mem_hexadecimal (c := ',') w.toNat (by decide)
    exact ⟨List.cons_ne_nil _ _, by simp [hspace], by simp [hcomma]⟩
  exact assembleLine_oneOperand (word := "READ_TABLE") (by simp [lineForms]) (by simp) htext
    (u32Literal_of_natLiteral (natLiteral_hexadecimal w.toNat))

/-! ### Pseudo-commands (30 R50) -/

/-- Two words with one form: a spelling only. -/
theorem assembleLine_congr_word {word word' : String} {form : List (List Char) → Option Instr} {line line' : String}
    {rest : List Char} (h : (word, form) ∈ lineForms) (h' : (word', form) ∈ lineForms)
    (hline : line.toList = word.toList ++ ' ' :: rest) (hline' : line'.toList = word'.toList ++ ' ' :: rest) :
    assembleLine line = assembleLine line' := by
  rw [assembleLine_of_form h hline, assembleLine_of_form h' hline']

/-! ### What a line can give -/

/-- A command that a line may give: some packet encodes it, and a READ_REG names a register of 44 R85. -/
def Assembles (i : Instr) : Prop := i.wellFormed = true ∧ ∀ sel, i = .readReg sel → sel.toNat ≤ 13

theorem oneOperand_assembles {read : List Char → Option Word} {mk : Word → Instr} {ops : List (List Char)} {i : Instr}
    (hmk : ∀ t w, read t = some w → Assembles (mk w)) (h : oneOperand read mk ops = some i) : Assembles i := by
  unfold oneOperand at h
  split at h
  · obtain ⟨w, hw, rfl⟩ := Option.map_eq_some_iff.1 h
    exact hmk _ w hw
  · cases h

theorem twoOperands_assembles {read read' : List Char → Option Word} {mk : Word → Word → Instr} {ops : List (List Char)}
    {i : Instr} (hmk : ∀ x y, Assembles (mk x y)) (h : twoOperands read read' mk ops = some i) : Assembles i := by
  unfold twoOperands at h
  split at h
  · obtain ⟨x, -, hx⟩ := Option.bind_eq_some_iff.1 h
    obtain ⟨y, -, rfl⟩ := Option.map_eq_some_iff.1 hx
    exact hmk x y
  · cases h

theorem sequenceLine_assembles {k : EntryKind} {v : Variant} {ops : List (List Char)} {i : Instr}
    (h : sequenceLine k v ops = some i) : Assembles i := by
  obtain ⟨ws, -, hws⟩ := Option.bind_eq_some_iff.1 h
  split at hws
  · next hlen => cases hws; exact ⟨decide_eq_true hlen, by simp⟩
  · cases hws

theorem fillLine_assembles {ops : List (List Char)} {i : Instr} (h : fillLine ops = some i) : Assembles i := by
  unfold fillLine at h
  split at h
  · obtain ⟨x, -, hx⟩ := Option.bind_eq_some_iff.1 h
    obtain ⟨y, -, rfl⟩ := Option.map_eq_some_iff.1 hx
    exact ⟨rfl, by simp⟩
  · cases h

/-- Only a READ_REG line needs a look at its operand. -/
theorem lineForms_assembles : ∀ f ∈ lineForms, ∀ ops i, f.2 ops = some i → Assembles i := by
  have readReg : ∀ t sel, selectorLiteral t = some sel → Assembles (.readReg sel) := by
    intro t sel hsel
    refine ⟨rfl, ?_⟩
    rintro _ ⟨⟩
    exact selectorLiteral_le hsel
  have silence : ∀ (ops : List (List Char)) i, (if ops = [] then some (Instr.setAmplitude 0#32) else none) = some i →
      Assembles i := by
    intro ops i h
    split at h
    · cases h; exact ⟨rfl, by simp⟩
    · cases h
  simp only [lineForms, List.forall_mem_cons, List.not_mem_nil, false_implies, implies_true, and_true]
  exact ⟨
    fun _ _ => twoOperands_assembles fun _ _ => ⟨rfl, by simp⟩,
    fun _ _ => twoOperands_assembles fun _ _ => ⟨rfl, by simp⟩,
    fun _ _ => oneOperand_assembles fun _ _ _ => ⟨rfl, by simp⟩,
    fun _ _ => oneOperand_assembles fun _ _ _ => ⟨rfl, by simp⟩,
    fun _ _ => oneOperand_assembles fun _ _ _ => ⟨rfl, by simp⟩,
    fun _ _ => sequenceLine_assembles,
    fun _ _ => sequenceLine_assembles,
    fun _ _ => sequenceLine_assembles,
    fun _ _ => sequenceLine_assembles,
    fun _ _ => fillLine_assembles,
    fun _ _ => oneOperand_assembles fun _ _ _ => ⟨rfl, by simp⟩,
    fun _ _ => oneOperand_assembles readReg,
    fun _ _ => oneOperand_assembles fun _ _ _ => ⟨rfl, by simp⟩,
    silence,
    fun _ _ => sequenceLine_assembles,
    fun _ _ => sequenceLine_assembles⟩

theorem assembleLine_assembles {line : String} {i : Instr} (h : assembleLine line = some i) : Assembles i := by
  unfold assembleLine at h
  simp only at h
  split at h
  · next form hform => exact lineForms_assembles form (List.mem_of_find?_eq_some hform) _ i h
  · cases h

/-- Settles O57, clause by clause; the written-out lines and the register names are evaluated. -/
theorem assembledLinesAreWellFormed : Obligations.AssembledLinesAreWellFormed := by
  unfold Obligations.AssembledLinesAreWellFormed
  refine ⟨fun i => assembleLine_lineOf, fun n h => ?_, by decide +kernel, by decide +kernel,
    assembleLine_readTable_hexadecimal, by decide +kernel, fun ops => ⟨?_, ?_⟩, fun line i => assembleLine_assembles⟩
  · rw [lineOf_buildTable, BitVec.toNat_ofNat, BitVec.toNat_ofNat]
  · exact assembleLine_congr_word (word := "SET_SEQUENCE") (word' := "SET_SEQUENCE.seq.hz")
      (form := sequenceLine .hz .sequence) (rest := ops.toList) (by simp [lineForms]) (by simp [lineForms]) (by simp) (by simp)
  · exact assembleLine_congr_word (word := "SET_SEQUENCE_MIDI") (word' := "SET_SEQUENCE.seq.midi")
      (form := sequenceLine .midi .sequence) (rest := ops.toList) (by simp [lineForms]) (by simp [lineForms]) (by simp)
      (by simp)

end Sys2Proof.Machine
end

section
/-!
PROOFS. Decimal literals of 30 R49: the text is worth a fraction, which is rounded once to the nearest F32, ties to even.
-/

namespace Sys2Proof.Machine

/-! ### The text of a decimal literal -/

/-- The literal of `n`, and when `k` is not 0 a point and the `k` digits of `d`. -/
def decimalText (n d k : Nat) : List Char :=
  Nat.toDigits 10 n ++ if k = 0 then [] else '.' :: List.leftpad k '0' (Nat.toDigits 10 d)

section DecimalText
variable {c : Char} (n d k : Nat)

/-- A decimal literal holds digits and points only. -/
theorem not_mem_decimalText (hc : digitValue 10 c = none) (hpoint : c ≠ '.') : c ∉ decimalText n d k := by
  have hzero : c ≠ '0' := by rintro rfl; exact absurd hc (by decide)
  unfold decimalText
  split <;> simp [List.leftpad, not_mem_decimal n hc, not_mem_decimal d hc, hpoint, hzero]

theorem decimalText_ne_nil : decimalText n d k ≠ [] :=
  List.append_ne_nil_of_left_ne_nil Nat.toDigits_ne_nil _

theorem isOperandText_decimalText : IsOperandText (decimalText n d k) :=
  ⟨decimalText_ne_nil n d k, not_mem_decimalText n d k (by decide) (by decide),
    not_mem_decimalText n d k (by decide) (by decide)⟩

theorem isOperandText_minus_decimalText : IsOperandText ('-' :: decimalText n d k) := by
  obtain ⟨-, hspace, hcomma⟩ := isOperandText_decimalText n d k
  exact ⟨List.cons_ne_nil _ _, by simp [hspace], by simp [hcomma]⟩

/-! ### What the text is worth -/

variable {n d k}

/-- The digits behind the point, all `k` of them. -/
theorem length_fraction (hd : d < 10 ^ k) (hk : 0 < k) :
    (List.leftpad k '0' (Nat.toDigits 10 d)).length = k := by
  rw [List.length_leftpad, max_eq_left (Nat.toDigits_length 10 d k hk hd)]

/-- A literal with `k` digits behind the point is a fraction over `10 ^ k`. -/
theorem decimalFraction_decimalText (hd : d < 10 ^ k) :
    decimalFraction (decimalText n d k) = some (n * 10 ^ k + d, 10 ^ k) := by
  have hpoint : '.' ∉ Nat.toDigits 10 n := not_mem_decimal n (by decide)
  have hn : digitsFrom 10 0 (Nat.toDigits 10 n) = some n := digitsFrom_toDigits (by decide) (by decide) n
  rcases Nat.eq_zero_or_pos k with rfl | hk
  · obtain rfl : d = 0 := by simpa using hd
    simp [decimalFraction, decimalText, splitChars_of_not_mem hpoint, digitsValue_decimal]
  · have hlen := length_fraction hd hk
    have hd' : digitsFrom 10 0 (List.leftpad k '0' (Nat.toDigits 10 d)) = some d := by
      rw [digitsFrom_leftpad (by decide), digitsFrom_toDigits (by decide) (by decide)]
    have hpoint' : '.' ∉ List.leftpad k '0' (Nat.toDigits 10 d) := not_mem_of_digitsFrom hd' (by decide)
    have hfrac : List.leftpad k '0' (Nat.toDigits 10 d) ≠ [] := List.ne_nil_of_length_pos (by omega)
    rw [decimalText, if_neg hk.ne', decimalFraction, splitChars_append hpoint, splitChars_of_not_mem hpoint']
    generalize List.leftpad k '0' (Nat.toDigits 10 d) = frac at *
    have hvalue : digitsValue 10 (Nat.toDigits 10 n ++ frac) = some (n * 10 ^ k + d) := by
      rw [digitsValue_of_ne_nil (List.append_ne_nil_of_right_ne_nil _ hfrac), digitsFrom_append, hn, Option.bind_some,
        digitsFrom_eq_map, hd', Option.map_some, hlen]
    simp [hvalue, hlen, hfrac]

/-- Without an `f` a literal is no raw bit pattern. -/
theorem f32Literal_of_not_mem {cs : List Char} (h : 'f' ∉ cs) : f32Literal cs = decimalLiteral cs := by
  unfold f32Literal
  split
  · exact absurd List.mem_cons_self h
  · rfl

theorem decimalLiteral_of_not_mem {cs : List Char} (h : '-' ∉ cs) :
    decimalLiteral cs = (decimalFraction cs).map fun nd => fpack false (roundMag (nd.1 * oneUnits) nd.2) := by
  unfold decimalLiteral
  split
  · exact absurd List.mem_cons_self h
  · rfl

/-- The F32 of a decimal literal: its fraction in units, rounded once. -/
theorem f32Literal_decimalText (hd : d < 10 ^ k) :
    f32Literal (decimalText n d k) = some (fpack false (roundMag ((n * 10 ^ k + d) * oneUnits) (10 ^ k))) := by
  rw [f32Literal_of_not_mem (not_mem_decimalText n d k (by decide) (by decide)),
    decimalLiteral_of_not_mem (not_mem_decimalText n d k (by decide) (by decide)), decimalFraction_decimalText hd,
    Option.map_some]

theorem f32Literal_minus_decimalText (hd : d < 10 ^ k) :
    f32Literal ('-' :: decimalText n d k) = some (fpack true (roundMag ((n * 10 ^ k + d) * oneUnits) (10 ^ k))) := by
  have hf : 'f' ∉ '-' :: decimalText n d k :=
    List.not_mem_cons_of_ne_of_not_mem (by decide) (not_mem_decimalText n d k (by decide) (by decide))
  rw [f32Literal_of_not_mem hf, decimalLiteral, decimalFraction_decimalText hd, Option.map_some]

end DecimalText

/-! ### The value and its rounding -/

/-- The fraction of a decimal literal in units is the literal's value. -/
theorem fractionValue_decimal (n d k : Nat) :
    fractionValue false ((n * 10 ^ k + d) * oneUnits) (10 ^ k) = (n : ℚ) + (d : ℚ) / 10 ^ k := by
  have hsign : signFactor false = 1 := rfl
  rw [fractionValue, hsign]
  push_cast
  rw [natCast_oneUnits]
  field_simp

/-- The opposite of a packed magnitude is the same magnitude with the sign bit set. -/
theorem fpack_true_eq_xor {m : Nat} (hm : m < 2 ^ 31) : fpack true m = fpack false m ^^^ 0x80000000#32 := by
  change fpack true m = fneg (fpack false m)
  apply fext
  · rw [fsign_fneg, fsign_fpack hm, fsign_fpack hm, Bool.not_false]
  · rw [fmag_fneg, fmag_fpack hm, fmag_fpack hm]

/-- Settles O58: a literal's text is a fraction over a power of ten, packed as one rounding of it. -/
theorem decimalLiteralsAreRounded : Obligations.DecimalLiteralsAreRounded := by
  unfold Obligations.DecimalLiteralsAreRounded
  intro n d k hd hlimit text htext
  have hchars : text.toList = decimalText n d k := by
    rcases htext with ⟨rfl, rfl⟩ | ⟨hk, rfl⟩
    · simp [decimalText]
    · simp [decimalText, hk.ne']
  have hlt := roundMag_lt ((n * 10 ^ k + d) * oneUnits) (10 ^ k)
  have hround := roundedOnce_fpack false ((n * 10 ^ k + d) * oneUnits) (den := 10 ^ k) (by positivity)
  rw [fractionValue_decimal] at hround
  obtain ⟨hfinite, hnearest⟩ := hround.1 (by rwa [abs_of_nonneg (by positivity)])
  refine ⟨_, ?_, hfinite, by rw [getLsbD_31_eq_fsign, fsign_fpack hlt], hnearest, ?_⟩
  · exact assembleLine_oneOperand (word := "SET_AMPLITUDE") (by simp [lineForms]) (by simp [hchars])
      (isOperandText_decimalText n d k) (f32Literal_decimalText hd)
  · rw [← fpack_true_eq_xor hlt]
    exact assembleLine_oneOperand (word := "SET_AMPLITUDE") (by simp [lineForms]) (by simp [hchars])
      (isOperandText_minus_decimalText n d k) (f32Literal_minus_decimalText hd)

end Sys2Proof.Machine
end

section
/-!
PROOFS. The oscillator of 40_oscillator.md: its two register loads (R51, R52) with the increment they derive (R53), one
sample and the phase after it (R54, R55), and the phase held between blocks (R56).
-/

namespace Sys2Proof.Machine

/-! ### The phase between blocks (40 R56) -/

/-- Reset and FILL_BLOCK apart, no event moves the phase. -/
theorem runEvent_oscIndex {e : Event} {s t : State} (h : runEvent e s = .next t) (hreset : e ≠ .reset)
    (hfill : ∀ p k c b, e = .command p k → decode p k ≠ .instr (.fillBlock c b)) : t.oscIndex = s.oscIndex := by
  cases e with
  | command p k =>
    cases hd : decode p k with
    | instr i =>
      rw [runEvent_of_instr hd] at h
      have hi : ∀ c b, i ≠ .fillBlock c b := by
        rintro c b rfl
        exact hfill p k c b rfl hd
      exact (exec_playback h hi).1
    | illegal why => rw [runEvent_of_illegal hd] at h; cases h; rfl
  | supplyDraw raw => cases h; exact State.supply_oscIndex s raw
  | takeNote => cases h; rfl
  | reset => exact absurd rfl hreset

/-- Settles O18: FILL_BLOCK decodes on the audio port only, and of the commands it alone writes the phase. -/
theorem phaseMovesOnlyInFillBlock : Obligations.PhaseMovesOnlyInFillBlock := by
  unfold Obligations.PhaseMovesOnlyInFillBlock
  intro s t e rest hpending hstep hreset hfill
  rw [step_cons hpending] at hstep
  refine runEvent_oscIndex (s := { s with pending := rest }) hstep hreset fun p k c b he hdecode => ?_
  obtain rfl : p = .audio := (onlyFillBlockComesOnTheAudioPort p k _ hdecode).2 ⟨c, b, rfl⟩
  exact hfill k c b he hdecode

/-! ### One sample (40 R54, R55) -/

theorem inDomain_iff_realValue {x : F32} : inDomain x = true ↔ isFinite x = true ∧ 0 ≤ realValue x := by
  rw [inDomain_iff, realValue_nonneg_iff]

/-- Settles O26: a sound state with a table is playable, so its next sample is defined and the phase stays in the table. -/
theorem oscStepInterpolatesThenAdvances : Obligations.OscStepInterpolatesThenAdvances := by
  unfold Obligations.OscStepInterpolatesThenAdvances
  intro s hinv hvalid
  have hplay := hinv.playable hvalid
  obtain ⟨v0, v1, hv0, hv1, hstep, hnext⟩ := hplay.oscStep
  obtain ⟨hfinite, hnonneg, hlt⟩ := hnext.phase_range
  refine ⟨v0, v1, _, hplay.floor_lt, hv0, hv1, hstep, hfinite, hnonneg, hlt, fun hf hn => ?_, fun hfreq => ?_⟩
  · exact phaseAfter_eq (inDomain_iff_realValue.2 ⟨hf, hn⟩)
  · exact inDomain_iff_realValue.1 (hplay.sum hfreq.bounded)

/-! ### SET_AMPLITUDE (40 R51) -/

section Amplitude
variable {a : F32} {s : State}

theorem exec_setAmplitude_faulted (hs : s.faulted = true) :
    exec (.setAmplitude a) s = .next (s.respond .control .faulted []) := State.gated_faulted hs _

theorem exec_setAmplitude_rejected (hs : s.faulted = false) (ha : isFinite a = false) :
    exec (.setAmplitude a) s = .next (s.respond .control .invalidArgument []) := by
  simp [exec, execSetAmplitude, State.gated_sound hs, State.answer, ha]

theorem exec_setAmplitude_accepted (hs : s.faulted = false) (ha : isFinite a = true) :
    exec (.setAmplitude a) s = .next (State.respond { s with oscAmp := a } .control .ok []) := by
  simp [exec, execSetAmplitude, State.gated_sound hs, State.answer, ha]

end Amplitude

/-- Settles O24: the values that SET_AMPLITUDE rejects are those whose exponent field is all ones. -/
theorem setAmplitudeStoresFiniteValues : Obligations.SetAmplitudeStoresFiniteValues := by
  unfold Obligations.SetAmplitudeStoresFiniteValues
  refine fun a s => ⟨exec_setAmplitude_faulted, fun hs ha => ?_, fun hs ha => ?_⟩
  · have hinf : isFinite a = false := by
      rw [← Bool.not_eq_true, isFinite_iff_exponent]
      exact not_not_intro ha
    exact exec_setAmplitude_rejected hs hinf
  · exact exec_setAmplitude_accepted hs (isFinite_iff_exponent.2 ha)

/-! ### SET_FREQUENCY (40 R52, R53) -/

/-- The accepted frequencies as bit patterns: +0.0 up to 2^64 by rising magnitude, and -0.0 (40 R52). -/
theorem freqAccepted_iff_toNat {f : F32} :
    freqAccepted f = true ↔ f.toNat ≤ 0x5F800000 ∨ f.toNat = 0x80000000 := by
  have hmag := fmag_lt f
  rw [freqAccepted_iff, AtMost, freqMaxMag, toNat_eq_sign_mag f]
  cases fsign f with
  | true => simp only [if_true, forall_const]; omega
  | false => simp only [Bool.false_eq_true, if_false, false_imp_iff, and_true]; omega

/-- Recomputing the increment is one write to `osc_delta` (40 R53). -/
theorem State.recomputeDelta_eq (s : State) :
    s.recomputeDelta =
      { s with oscDelta := if s.tblValid = true ∧ s.prepared = true then s.derivedDelta else s.oscDelta } := by
  simp only [State.recomputeDelta, Bool.and_eq_true]
  split <;> rfl

section Frequency
variable {f : F32} {s : State}

theorem exec_setFrequency_faulted (hs : s.faulted = true) :
    exec (.setFrequency f) s = .next (s.respond .control .faulted []) := State.gated_faulted hs _

theorem exec_setFrequency_rejected (hs : s.faulted = false) (hf : freqAccepted f = false) :
    exec (.setFrequency f) s = .next (s.respond .control .invalidArgument []) := by
  simp [exec, execSetFrequency, State.gated_sound hs, State.answer, hf]

theorem exec_setFrequency_accepted (hs : s.faulted = false) (hf : freqAccepted f = true) :
    exec (.setFrequency f) s =
      .next (State.respond (State.recomputeDelta { s with oscFreq := f }) .control .ok []) := by
  simp [exec, execSetFrequency, State.gated_sound hs, State.answer, hf]

end Frequency

/-- Settles O25: the accepted bit patterns are those of the frequency check, and the increment is derived from the new one. -/
theorem setFrequencyStoresAndDerives : Obligations.SetFrequencyStoresAndDerives := by
  unfold Obligations.SetFrequencyStoresAndDerives
  refine fun f s => ⟨exec_setFrequency_faulted, fun hs hf => ?_, fun hs hf => ?_⟩
  · rw [← freqAccepted_iff_toNat, Bool.not_eq_true] at hf
    exact exec_setFrequency_rejected hs hf
  · rw [exec_setFrequency_accepted hs (freqAccepted_iff_toNat.2 hf), State.recomputeDelta_eq]
    rfl

end Sys2Proof.Machine
end

section
/-!
PROOFS. The table builder of 41_table_builder.md: the raw sums (R59), the words of a table that is not degenerate (R58, R60),
the checks of BUILD_TABLE in their order (R58, R63) and what an accepted one leaves behind (R61).
-/

namespace Sys2Proof.Machine

/-! ### The raw sums (41 R59) -/

/-- +0.0 over a positive whole number is +0.0. -/
theorem fdiv_zero_toF32 {h : Nat} (hpos : 1 ≤ h) (hle : h ≤ 2 ^ 24) : fdiv 0#32 (toF32 h) = 0#32 := by
  have hmag : fmag (toF32 h) ≠ 0 := by
    rw [← Nat.pos_iff_ne_zero, ← units_pos, units_toF32_nat hle]
    exact Nat.mul_pos hpos oneUnits_pos
  rw [fdiv_finite (by decide) (isFinite_toF32_nat hle) hmag, fsign_toF32_nat hle,
    show fmag 0#32 = 0 by decide, units_zero, Nat.zero_mul, roundMag_zero]
  decide

/-- Where every angle is a whole number of turns, every term and every sum is +0.0. -/
theorem partialSum_eq_zero {m i h : Nat} (hturns : ∀ k, k * i % m = 0) (hle : h ≤ 2 ^ 24) :
    partialSum sinTurn m i h = 0#32 := by
  induction h with
  | zero => rfl
  | succ h ih =>
    rw [partialSum, ih (by omega), hturns, sinTurn_zero, fdiv_zero_toF32 (by omega) hle]
    decide

/-- Settles O30: both ends of the cycle are whole turns for every harmonic; the other facts are the bound on the sums. -/
theorem rawSumsOfTheSawtooth : Obligations.RawSumsOfTheSawtooth := by
  unfold Obligations.RawSumsOfTheSawtooth
  intro size i h _ _ _ hh
  obtain ⟨hfinite, -, hnotNegZero⟩ := partialSum_bound (size - 1) i hh
  have hstart : ∀ k, k * 0 % (size - 1) = 0 := by simp
  have hend : ∀ k, k * (size - 1) % (size - 1) = 0 := fun k => Nat.mul_mod_left k _
  exact ⟨rfl, rfl, partialSum_eq_zero hstart hh, partialSum_eq_zero hend hh, hfinite, hnotNegZero⟩

/-! ### The words of a table (41 R58, R60, R63) -/

/-- The normalized raw sums, without the guard word (41 R58). -/
def normalizedSums (sin : Nat → Nat → F32) (n harm : Nat) : List F32 :=
  (rawTable sin n harm).map (normalizeSample (fminList (rawTable sin n harm))
    (fsub (fmaxList (rawTable sin n harm)) (fminList (rawTable sin n harm))))

section Words
variable {sin : Nat → Nat → F32} {n harm i : Nat} {ws : List F32}

@[simp] theorem length_normalizedSums : (normalizedSums sin n harm).length = n := by
  rw [normalizedSums, List.length_map, length_rawTable]

theorem getElem?_normalizedSums (hi : i < n) :
    (normalizedSums sin n harm)[i]? = some (normalizeSample (fminList (rawTable sin n harm))
      (fsub (fmaxList (rawTable sin n harm)) (fminList (rawTable sin n harm))) (partialSum sin (n - 1) i harm)) := by
  have hraw : (rawTable sin n harm)[i]? = some (partialSum sin (n - 1) i harm) := by simp [rawTable, hi]
  rw [normalizedSums, List.getElem?_map, hraw, Option.map_some]

/-- A table that is not degenerate holds the normalized sums and the guard. -/
theorem tableWords_eq :
    tableWords sin n harm =
      if feq (fmaxList (rawTable sin n harm)) (fminList (rawTable sin n harm)) = true then none
      else some (normalizedSums sin n harm ++ (normalizedSums sin n harm).take 1) := by
  rw [tableWords, normalizeTable]
  split <;> rfl

theorem eq_of_tableWords (h : tableWords sin n harm = some ws) :
    ws = normalizedSums sin n harm ++ (normalizedSums sin n harm).take 1 := by
  rw [tableWords_eq] at h
  exact (Option.some_inj.1 (Option.ite_none_left_eq_some.1 h).2).symm

theorem length_tableWords (h : tableWords sin n harm = some ws) (hn : 1 ≤ n) : ws.length = n + 1 := by
  simp [eq_of_tableWords h, hn]

/-- Word `i` of a table is the normalized raw sum number `i`. -/
theorem getElem?_tableWords (h : tableWords sin n harm = some ws) (hi : i < n) :
    ws[i]? = (normalizedSums sin n harm)[i]? := by
  rw [eq_of_tableWords h, List.getElem?_append_left (by rwa [length_normalizedSums])]

/-- The guard word is a copy of word 0. -/
theorem getElem?_tableWords_guard (h : tableWords sin n harm = some ws) (hn : 1 ≤ n) : ws[n]? = ws[0]? := by
  rw [getElem?_tableWords (i := 0) h (by omega), eq_of_tableWords h,
    List.getElem?_append_right length_normalizedSums.le]
  simp

end Words

/-! ### The state with a table installed (41 R58) -/

section Install
variable {s : State} {n harm : Word} {ws : List F32} {i : Nat}

/-- Installing a table writes the memory, the three table registers and the increment (40 R53), and nothing else. -/
theorem State.installTable_eq (s : State) (n harm : Word) (ws : List F32) :
    s.installTable n harm ws =
      { s with
        tbl := memWriteAll s.tbl 0 ws, tblSize := n, tblHarm := harm, tblValid := true,
        oscDelta := if s.prepared = true then fdiv (fmul s.oscFreq (toF32 n.toNat)) s.sr else s.oscDelta } := by
  rw [State.installTable, State.recomputeDelta_eq]
  simp [State.derivedDelta]

@[simp] theorem State.installTable_tbl : (s.installTable n harm ws).tbl = memWriteAll s.tbl 0 ws := by
  rw [State.installTable_eq]

theorem State.memRead_installTable (hi : i < ws.length) : memRead (s.installTable n harm ws).tbl i = ws[i]? := by
  rw [State.installTable_tbl, memRead_memWriteAll_zero _ _ hi, List.getElem?_eq_getElem hi]

theorem State.memRead_installTable_above (hi : ws.length ≤ i) :
    memRead (s.installTable n harm ws).tbl i = memRead s.tbl i := by
  rw [State.installTable_tbl, memRead_memWriteAll, if_neg (by omega)]

end Install

/-! ### BUILD_TABLE (41 R58) -/

/-- The checks of BUILD_TABLE that come before the table is computed all pass (41 R58). -/
structure State.CanBuild (s : State) (n harm : Word) : Prop where
  notFaulted : s.faulted = false
  size : 4 ≤ n.toNat ∧ n.toNat ≤ s.params.tableSizeMax
  harmonics : 1 ≤ harm.toNat ∧ harm.toNat ≤ s.params.harmonicsMax
  unbuilt : s.tblValid = false

section Build
variable {s t : State} {n harm : Word} {ws : List F32}

/-- The checks of BUILD_TABLE in their order, as bounds on numbers (41 R58). -/
theorem exec_buildTable_eq (n harm : Word) (s : State) :
    exec (.buildTable n harm) s = s.gated (
      if n.toNat < 4 ∨ s.params.tableSizeMax < n.toNat then s.answer .invalidArgument
      else if harm.toNat < 1 ∨ s.params.harmonicsMax < harm.toNat then s.answer .invalidArgument
      else if s.tblValid = true then s.answer .invalidState
      else (tableWords sinTurn n.toNat harm.toNat).elim (s.answer .invalidArgument)
        fun ws => (s.installTable n harm ws).answer .ok) := by
  simp only [exec, execBuildTable, Bool.or_eq_true, decide_eq_true_eq]
  unfold u32Operand
  cases tableWords sinTurn n.toNat harm.toNat <;> rfl

theorem exec_buildTable_faulted (hs : s.faulted = true) :
    exec (.buildTable n harm) s = .next (s.respond .control .faulted []) := State.gated_faulted hs _

theorem exec_buildTable_badSize (hs : s.faulted = false) (hn : n.toNat < 4 ∨ s.params.tableSizeMax < n.toNat) :
    exec (.buildTable n harm) s = .next (s.respond .control .invalidArgument []) := by
  rw [exec_buildTable_eq, State.gated_sound hs, if_pos hn, State.answer]

theorem exec_buildTable_badHarmonics (hs : s.faulted = false) (hn : 4 ≤ n.toNat ∧ n.toNat ≤ s.params.tableSizeMax)
    (hh : harm.toNat < 1 ∨ s.params.harmonicsMax < harm.toNat) :
    exec (.buildTable n harm) s = .next (s.respond .control .invalidArgument []) := by
  rw [exec_buildTable_eq, State.gated_sound hs, if_neg (by omega), if_pos hh, State.answer]

theorem exec_buildTable_built (hs : s.faulted = false) (hn : 4 ≤ n.toNat ∧ n.toNat ≤ s.params.tableSizeMax)
    (hh : 1 ≤ harm.toNat ∧ harm.toNat ≤ s.params.harmonicsMax) (hv : s.tblValid = true) :
    exec (.buildTable n harm) s = .next (s.respond .control .invalidState []) := by
  rw [exec_buildTable_eq, State.gated_sound hs, if_neg (by omega), if_neg (by omega), if_pos hv, State.answer]

/-- Once the checks have passed, only a degenerate table is rejected. -/
theorem State.CanBuild.exec_buildTable (hs : s.CanBuild n harm) :
    exec (.buildTable n harm) s = (tableWords sinTurn n.toNat harm.toNat).elim (s.answer .invalidArgument)
      fun ws => (s.installTable n harm ws).answer .ok := by
  obtain ⟨hfaulted, hsize, hharm, hunbuilt⟩ := hs
  rw [exec_buildTable_eq, State.gated_sound hfaulted, if_neg (by omega), if_neg (by omega), if_neg (by simp [hunbuilt])]

theorem exec_buildTable_degenerate (hs : s.CanBuild n harm) (hws : tableWords sinTurn n.toNat harm.toNat = none) :
    exec (.buildTable n harm) s = .next (s.respond .control .invalidArgument []) := by
  rw [hs.exec_buildTable, hws, Option.elim_none, State.answer]

theorem exec_buildTable_accepted (hs : s.CanBuild n harm) (hws : tableWords sinTurn n.toNat harm.toNat = some ws) :
    exec (.buildTable n harm) s = .next ((s.installTable n harm ws).respond .control .ok []) := by
  rw [hs.exec_buildTable, hws, Option.elim_some, State.answer]

/-- The code that an answer sends is the code that joins the history. -/
theorem State.code_of_answer {c c' : ResponseCode} (h : s.answer c = .next t)
    (hr : t.responses = ⟨.control, c', []⟩ :: s.responses) : c = c' := by
  rw [State.answer_next h, State.respond_responses] at hr
  simpa using hr

/-- A BUILD_TABLE answered OK has passed every check and installed the table. -/
theorem exec_buildTable_ok (h : exec (.buildTable n harm) s = .next t)
    (hok : t.responses = ⟨.control, .ok, []⟩ :: s.responses) :
    s.CanBuild n harm ∧ ∃ ws, tableWords sinTurn n.toNat harm.toNat = some ws ∧
      t = (s.installTable n harm ws).respond .control .ok [] := by
  rw [exec_buildTable_eq, State.gated] at h
  split at h
  · exact nomatch State.code_of_answer h hok
  next hfaulted =>
  split at h
  · exact nomatch State.code_of_answer h hok
  next hsize =>
  split at h
  · exact nomatch State.code_of_answer h hok
  next hharm =>
  split at h
  · exact nomatch State.code_of_answer h hok
  next hunbuilt =>
  refine ⟨⟨by simpa using hfaulted, by omega, by omega, by simpa using hunbuilt⟩, ?_⟩
  cases hws : tableWords sinTurn n.toNat harm.toNat with
  | none => rw [hws] at h; exact nomatch State.code_of_answer h hok
  | some ws => rw [hws] at h; exact ⟨ws, rfl, State.answer_next h⟩

end Build

/-- Settles O29: one equation per check, and the words of the table installed. -/
theorem buildTableRule : Obligations.BuildTableRule := by
  unfold Obligations.BuildTableRule
  refine fun n h s => ⟨exec_buildTable_faulted, exec_buildTable_badSize,
    fun hs hn hn' => exec_buildTable_badHarmonics hs ⟨hn, hn'⟩,
    fun hs hn hn' hh hh' => exec_buildTable_built hs ⟨hn, hn'⟩ ⟨hh, hh'⟩, ?_⟩
  rintro hs hn hn' hh hh' hv raw mn mx rfl rfl rfl
  have hcan : s.CanBuild n h := ⟨hs, ⟨hn, hn'⟩, ⟨hh, hh'⟩, hv⟩
  refine ⟨fun heq => exec_buildTable_degenerate hcan (tableWords_eq.trans (if_pos heq)), fun hne => ?_⟩
  obtain ⟨ws, hws⟩ : ∃ ws, tableWords sinTurn n.toNat h.toNat = some ws :=
    ⟨_, tableWords_eq.trans (if_neg (Bool.eq_false_iff.1 hne))⟩
  have hlen := length_tableWords hws (by omega)
  refine ⟨_, exec_buildTable_accepted hcan hws, ?_, fun i hi => ?_, ?_, fun i hi => ?_⟩
  · rw [State.installTable_eq]; rfl
  · calc memRead (s.installTable n h ws).tbl i = ws[i]? := State.memRead_installTable (by omega)
      _ = (normalizedSums sinTurn n.toNat h.toNat)[i]? := getElem?_tableWords hws hi
      _ = _ := getElem?_normalizedSums hi
  · calc memRead (s.installTable n h ws).tbl n.toNat = ws[n.toNat]? := State.memRead_installTable (by omega)
      _ = ws[0]? := getElem?_tableWords_guard hws (by omega)
      _ = memRead (s.installTable n h ws).tbl 0 := (State.memRead_installTable (by omega)).symm
  · exact State.memRead_installTable_above (by omega)

/-- Settles O31: words 0 to N of memory are the words of the table, which N and H determine, and `tableWords_spec` gives
their range, extremes and guard. -/
theorem builtTableIsNormalized : Obligations.BuiltTableIsNormalized := by
  unfold Obligations.BuiltTableIsNormalized
  intro n h s t hlegal hexec hok
  obtain ⟨hcan, ws, hws, rfl⟩ := exec_buildTable_ok hexec hok
  obtain ⟨hlen, hrange, hguard, ⟨top, htop, hone⟩, ⟨bottom, hbottom, hnegOne⟩⟩ := tableWords_spec hcan.size.1
    (hcan.size.2.trans hlegal.tableSize.2) (hcan.harmonics.2.trans hlegal.harmonics.2) hws
  have hread (u : State) {i : Nat} (hi : i ≤ n.toNat) : memRead (u.installTable n h ws).tbl i = ws[i]? :=
    State.memRead_installTable (by omega)
  simp only [State.respond_tbl]
  refine ⟨?_, ⟨top, htop, ?_⟩, ⟨bottom, hbottom, ?_⟩, fun i hi => ?_, fun s' t' hexec' hok' i hi => ?_⟩
  · rw [hread s le_rfl, hread s (Nat.zero_le _), hguard]
  · rw [hread s htop.le, hone]; rfl
  · rw [hread s hbottom.le, hnegOne]; rfl
  · have hlt : i < ws.length := by omega
    have hunit := hrange _ (List.getElem_mem hlt)
    exact ⟨ws[i], by rw [hread s hi, List.getElem?_eq_getElem hlt], isFinite_of_inUnitRange hunit,
      realValue_of_inUnitRange hunit⟩
  · obtain ⟨-, ws', hws', rfl⟩ := exec_buildTable_ok hexec' hok'
    obtain rfl : ws' = ws := Option.some_inj.1 (hws'.symm.trans hws)
    rw [State.respond_tbl, hread s' hi, hread s hi]

end Sys2Proof.Machine
end

section
/-!
PROOFS. The frequency sources of 42_frequency_source.md: the checks of SET_SEQUENCE and what an accepted list leaves behind
(R67, R68), the frequencies of the MIDI notes (R69), the two advances (R70 to R72), the random draws (R73) and the cycle of
a Sequence source (R74).
-/

namespace Sys2Proof.Machine

/-! ### The entries of a list (42 R67) -/

/-- An entry that SET_SEQUENCE accepts, as a bound on the word (42 R67). -/
def GoodEntry (k : EntryKind) (w : Word) : Prop :=
  match k with
  | .hz => w.toNat ≤ 0x5F800000 ∨ w.toNat = 0x80000000
  | .midi => w.toNat ≤ 127

/-- The frequency in Hz that an accepted entry stands for (42 R67). -/
def entryHz (k : EntryKind) (w : Word) : F32 :=
  match k with
  | .hz => w
  | .midi => midiToHz w.toNat

section Entries
variable {k : EntryKind} {w : Word} {es : List Word}

theorem loadEntry_of_good (h : GoodEntry k w) : loadEntry k w = some (entryHz k w) := by
  cases k with
  | hz => exact if_pos (freqAccepted_iff_toNat.2 h)
  | midi => exact if_pos h

theorem loadEntry_of_not_good (h : ¬GoodEntry k w) : loadEntry k w = none := by
  cases k with
  | hz => exact if_neg (mt freqAccepted_iff_toNat.1 h)
  | midi => exact if_neg h

theorem loadEntries_of_good (h : ∀ w ∈ es, GoodEntry k w) : loadEntries k es = some (es.map (entryHz k)) := by
  rw [loadEntries_some, List.map_map]
  exact List.map_congr_left fun w hw => loadEntry_of_good (h w hw)

theorem loadEntries_of_not_good (h : ∃ w ∈ es, ¬GoodEntry k w) : loadEntries k es = none := by
  obtain ⟨w, hw, hbad⟩ := h
  exact loadEntries_none.2 ⟨w, hw, loadEntry_of_not_good hbad⟩

end Entries

/-! ### SET_SEQUENCE (42 R67, R68) -/

section Load
variable {k : EntryKind} {v : Variant} {es : List Word} {hz : List F32} {s t : State}

/-- The checks of SET_SEQUENCE in their order (42 R67). -/
theorem exec_setSequence_eq (k : EntryKind) (v : Variant) (es : List Word) (s : State) :
    exec (.setSequence k v es) s = s.gated (
      if es = [] then s.answer .invalidState
      else if s.params.seqMax < es.length then s.answer .invalidArgument
      else (loadEntries k es).elim (s.answer .invalidArgument)
        fun hz => (s.installSequence v hz).answer .ok) := by
  simp only [exec, execSetSequence, List.length_eq_zero_iff, gt_iff_lt]
  cases loadEntries k es <;> rfl

theorem exec_setSequence_faulted (hs : s.faulted = true) :
    exec (.setSequence k v es) s = .next (s.respond .control .faulted []) := State.gated_faulted hs _

theorem exec_setSequence_empty (hs : s.faulted = false) (hes : es = []) :
    exec (.setSequence k v es) s = .next (s.respond .control .invalidState []) := by
  rw [exec_setSequence_eq, State.gated_sound hs, if_pos hes, State.answer]

theorem exec_setSequence_tooLong (hs : s.faulted = false) (hes : es ≠ []) (hlen : s.params.seqMax < es.length) :
    exec (.setSequence k v es) s = .next (s.respond .control .invalidArgument []) := by
  rw [exec_setSequence_eq, State.gated_sound hs, if_neg hes, if_pos hlen, State.answer]

/-- A bad entry is INVALID_ARGUMENT, whether or not the list is also too long. -/
theorem exec_setSequence_badEntry (hs : s.faulted = false) (hes : es ≠ []) (hload : loadEntries k es = none) :
    exec (.setSequence k v es) s = .next (s.respond .control .invalidArgument []) := by
  rw [exec_setSequence_eq, State.gated_sound hs, if_neg hes, hload, Option.elim_none, ite_self, State.answer]

theorem exec_setSequence_accepted (hs : s.faulted = false) (hes : es ≠ []) (hlen : es.length ≤ s.params.seqMax)
    (hload : loadEntries k es = some hz) :
    exec (.setSequence k v es) s = .next ((s.installSequence v hz).respond .control .ok []) := by
  rw [exec_setSequence_eq, State.gated_sound hs, if_neg hes, if_neg (by omega), hload, Option.elim_some, State.answer]

/-- A SET_SEQUENCE answered OK has passed every check and installed the list. -/
theorem exec_setSequence_ok (h : exec (.setSequence k v es) s = .next t)
    (hok : t.responses = ⟨.control, .ok, []⟩ :: s.responses) :
    es ≠ [] ∧ es.length ≤ s.params.seqMax ∧ ∃ hz, hz.length = es.length ∧
      t = (s.installSequence v hz).respond .control .ok [] := by
  rw [exec_setSequence_eq, State.gated] at h
  split at h
  · exact nomatch State.code_of_answer h hok
  split at h
  · exact nomatch State.code_of_answer h hok
  next hes =>
  split at h
  · exact nomatch State.code_of_answer h hok
  next hlen =>
  refine ⟨hes, by omega, ?_⟩
  cases hload : loadEntries k es with
  | none => rw [hload] at h; exact nomatch State.code_of_answer h hok
  | some hz => rw [hload] at h; exact ⟨hz, loadEntries_length hload, State.answer_next h⟩

theorem State.memRead_installSequence_above {j : Nat} (hj : hz.length ≤ j) :
    memRead ((s.installSequence v hz).bank (!s.genBank)) j = memRead (s.bank (!s.genBank)) j := by
  rw [State.installSequence_active, memRead_memWriteAll, if_neg (by omega)]

/-- Each word of the list reads back, from the bank that was inactive, as the frequency it stands for. -/
theorem State.memRead_installSequence_entry {j : Nat} {w : Word} (hw : es[j]? = some w) :
    memRead ((s.installSequence v (es.map (entryHz k))).bank (!s.genBank)) j = some (entryHz k w) := by
  obtain ⟨hj, rfl⟩ := List.getElem?_eq_some_iff.1 hw
  rw [State.installSequence_active, memRead_memWriteAll_zero _ _ (by rwa [List.length_map]), List.getElem_map]

end Load

/-- Settles O32: one equation per check, and the banks after the flip. -/
theorem setSequenceRule : Obligations.SetSequenceRule := by
  unfold Obligations.SetSequenceRule
  intro k v es s
  refine ⟨exec_setSequence_faulted, exec_setSequence_empty, fun hs hes hbad => ?_, fun hs hes hlen hgood => ?_⟩
  · rcases hbad with hlong | hentry
    · exact exec_setSequence_tooLong hs hes hlong
    · exact exec_setSequence_badEntry hs hes (loadEntries_of_not_good hentry)
  · refine ⟨_, exec_setSequence_accepted hs hes hlen (loadEntries_of_good hgood), ?_,
      fun j w hw => State.memRead_installSequence_entry (v := v) hw,
      fun j hj => State.memRead_installSequence_above (v := v) (by rwa [List.length_map]), fun j => ?_⟩
    · rw [State.installSequence_frame, List.length_map]
      rfl
    · exact congrArg (memRead · j) (State.installSequence_other s v _)

/-! ### MIDI notes (42 R69) -/

/-- A whole number of octaves from note 69 the exponent of EXP2 is that whole number, exactly. -/
theorem midiExponent_octave : ∀ i : Fin 10,
    isFinite (fdiv (toF32 ((9 + 12 * i.val : Nat) - Config.midiRefNote : Int)) Config.f32Twelve) = true ∧
    fval (fdiv (toF32 ((9 + 12 * i.val : Nat) - Config.midiRefNote : Int)) Config.f32Twelve) =
      ((i.val : Int) - 5) * oneUnits := by decide +kernel

/-- 440.0 times a power of two is exact: the exponent field moves and the fraction stays. -/
theorem fmul_midiRefHz_pow2 : ∀ i : Fin 10,
    fmul Config.midiRefHz (pow2 ((i.val : Int) - 5)) = BitVec.ofNat 32 (0x415C0000 + i.val * 2 ^ 23) := by decide +kernel

/-- Octave `i`, counted from note 9, whatever EXP2 is at the other exponents. -/
theorem midiToHz_octave (i : Fin 10) : midiToHz (9 + 12 * i.val) = BitVec.ofNat 32 (0x415C0000 + i.val * 2 ^ 23) := by
  obtain ⟨hfinite, hwhole⟩ := midiExponent_octave i
  have hi := i.isLt
  rw [midiToHz, exp2_of_whole hfinite hwhole (by omega) (by omega), fmul_midiRefHz_pow2]

/-- Settles O33: the formula is the definition, and the ten notes are the octaves from note 9. -/
theorem midiOctavesAreExact : Obligations.MidiOctavesAreExact := by
  unfold Obligations.MidiOctavesAreExact
  exact ⟨fun _ _ => rfl, midiToHz_octave 0, midiToHz_octave 1, midiToHz_octave 2, midiToHz_octave 3, midiToHz_octave 4,
    midiToHz_octave 5, midiToHz_octave 6, midiToHz_octave 7, midiToHz_octave 8, midiToHz_octave 9⟩

theorem realValue_le_natCast_iff {x : F32} {n : Nat} : realValue x ≤ n ↔ fval x ≤ n * oneUnits := by
  unfold realValue
  rw [div_le_iff₀ (by positivity), ← natCast_oneUnits]
  exact_mod_cast Iff.rfl

/-- Settles O34: a note's frequency is positive, and 440 times a power of at most 2^55 stays below 2^64. -/
theorem midiFrequenciesAreInRange : Obligations.MidiFrequenciesAreInRange := by
  unfold Obligations.MidiFrequenciesAreInRange
  intro n hn
  obtain ⟨hnan, -, hpos⟩ := midiToHz_pos hn
  refine ⟨(flt_iff (by decide) hnan).2 (by rwa [fval_zero]), fun hpower => ?_⟩
  have hatMost := midiToHz_accepted hn (realValue_le_natCast_iff (n := 2 ^ 55).1 (by exact_mod_cast hpower))
  have hunits : units 0x5F5C0000 < 2 ^ 64 * oneUnits := by decide +kernel
  have hbelow : fval (midiToHz n) < ((2 ^ 64 : Nat) : Int) * oneUnits :=
    hatMost.fval_le.trans_lt (by exact_mod_cast hunits)
  exact ⟨hatMost.isFinite (by decide), realValue_pos_iff.2 hpos, by exact_mod_cast realValue_lt_natCast_iff.2 hbelow⟩

/-! ### The advances (42 R70 to R72) -/

section Advance
variable {s t : State} {idx : Nat} {f : F32}

theorem State.nextIndex_of_sequence (hv : s.genVariant = .sequence) : s.nextIndex = (s.genCursor.toNat, s) := by
  rw [State.nextIndex, hv]

/-- A draw below 0.5 is a step: the index is the cursor, and that draw is the only one. -/
theorem State.nextIndex_of_step (hv : s.genVariant = .random)
    (hr : flt (drawROf s.rawDraw) Config.randomThreshold = true) :
    s.nextIndex = (s.genCursor.toNat, s.afterDraw) := by
  rw [State.nextIndex, hv]
  exact if_pos hr

/-- Any other draw is a jump: a second draw is the index. -/
theorem State.nextIndex_of_jump (hv : s.genVariant = .random)
    (hr : flt (drawROf s.rawDraw) Config.randomThreshold = false) :
    s.nextIndex = (drawJOf s.afterDraw.rawDraw s.genLen.toNat, s.afterDraw.afterDraw) := by
  rw [State.nextIndex, hv]
  exact if_neg (Bool.eq_false_iff.1 hr)

theorem State.afterDraw_eq (s : State) : s.afterDraw = { s with draws := s.draws.drop 1, drawPos := s.drawPos + 1 } := by
  rw [State.afterDraw, List.drop_one]

theorem State.afterDraw_afterDraw (s : State) :
    s.afterDraw.afterDraw = { s with draws := s.draws.drop 2, drawPos := s.drawPos + 2 } := by
  rw [State.afterDraw_eq s.afterDraw, State.afterDraw_draws, List.drop_tail]
  rfl

/-- An advance whose chosen index has an entry gives them both and moves the cursor past the index (42 R70). -/
theorem State.nextFrequency_of_nextIndex {u : State} (hnext : s.nextIndex = (idx, u))
    (hc : s.genCursor.toNat < s.genLen.toNat) (hf : memRead (s.bank s.genBank) idx = some f) :
    idx < s.genLen.toNat ∧ s.nextFrequency = .ok (idx, f, u.cursorAfter idx) := by
  have hlt := State.nextIndex_lt hc
  rw [hnext] at hlt
  exact ⟨hlt, State.nextFrequency_ok.2 ⟨by rw [hnext], State.seqRead_ok.2 ⟨hlt, hf⟩, by rw [hnext]⟩⟩

end Advance

/-- Settles O35: the index is the cursor, read before it moves. -/
theorem sequenceAdvanceRule : Obligations.SequenceAdvanceRule := by
  unfold Obligations.SequenceAdvanceRule
  intro s f hv hc hf
  obtain ⟨hlt, hnext⟩ := State.nextFrequency_of_nextIndex (State.nextIndex_of_sequence hv) hc hf
  exact ⟨_, hnext, rfl, State.toNat_cursorAfter _ (by omega)⟩

/-- Settles O36: the draw chooses between a step and a jump, which consume one draw and two. -/
theorem randomAdvanceRule : Obligations.RandomAdvanceRule := by
  unfold Obligations.RandomAdvanceRule
  intro s f idx used hv hc hdraw hf
  have hindex : s.nextIndex = (idx, { s with draws := s.draws.drop used, drawPos := s.drawPos + used }) := by
    rcases hdraw with ⟨hr, rfl, rfl⟩ | ⟨hr, rfl, rfl⟩
    · rw [State.nextIndex_of_step hv hr, State.afterDraw_eq]
    · rw [State.nextIndex_of_jump hv hr, State.afterDraw_afterDraw]
  obtain ⟨hlt, hnext⟩ := State.nextFrequency_of_nextIndex hindex hc hf
  exact ⟨hlt, _, hnext, rfl, State.toNat_cursorAfter _ (Nat.zero_lt_of_lt hlt)⟩

/-! ### The draws (42 R73, log 6) -/

/-- The F32 values in [0, 1) as bit patterns: those below that of 1.0, and that of -0.0. -/
theorem inUnitInterval_iff_toNat {r : F32} :
    isFinite r = true ∧ 0 ≤ realValue r ∧ realValue r < 1 ↔ r.toNat < oneMag ∨ r.toNat = 0x80000000 := by
  have hone : ((1 : Nat) : Int) * oneUnits = units oneMag := by rw [units_oneMag, Nat.cast_one, Int.one_mul]
  have hatMost : isFinite r = true ∧ 0 ≤ realValue r ∧ realValue r < 1 ↔ AtMost (oneMag - 1) r := by
    rw [realValue_nonneg_iff, ← Nat.cast_one, realValue_lt_natCast_iff, hone]
    constructor
    · rintro ⟨-, hnonneg, hlt⟩
      have hexact := atMost_of_nonneg hnonneg
      rw [hexact.fval_eq] at hlt
      exact hexact.mono (Nat.le_sub_one_of_lt (units_lt_units.1 (by exact_mod_cast hlt)))
    · intro h
      exact ⟨h.isFinite (by decide), h.nonneg, h.fval_le.trans_lt (by exact_mod_cast units_lt_units.2 (by decide))⟩
  have hmag := fmag_lt r
  rw [hatMost, AtMost, oneMag, toNat_eq_sign_mag r]
  cases fsign r with
  | true => simp only [if_true, forall_const]; omega
  | false => simp only [Bool.false_eq_true, if_false, false_imp_iff, and_true]; omega

/-- A raw answer counts through the patterns below that of 1.0 and then gives -0.0. -/
theorem toNat_drawROf (n : Nat) :
    (drawROf n).toNat = if n % (oneMag + 1) = oneMag then 0x80000000 else n % (oneMag + 1) := by
  have hlt : n % (oneMag + 1) < oneMag + 1 := Nat.mod_lt _ (Nat.succ_pos _)
  have hone : Config.f32One.toNat = oneMag := rfl
  rw [drawROf, hone]
  split
  · rfl
  · exact Nat.mod_eq_of_lt (hlt.trans (by decide))

theorem drawROf_inUnitInterval (n : Nat) :
    isFinite (drawROf n) = true ∧ 0 ≤ realValue (drawROf n) ∧ realValue (drawROf n) < 1 := by
  have hlt : n % (oneMag + 1) < oneMag + 1 := Nat.mod_lt _ (Nat.succ_pos _)
  rw [inUnitInterval_iff_toNat, toNat_drawROf]
  split
  · exact .inr rfl
  · exact .inl (by omega)

theorem exists_drawROf_eq {r : F32} (h : r.toNat < oneMag ∨ r.toNat = 0x80000000) : ∃ n, drawROf n = r := by
  rcases h with hlt | hneg
  · refine ⟨r.toNat, BitVec.eq_of_toNat_eq ?_⟩
    rw [toNat_drawROf, Nat.mod_eq_of_lt (by omega), if_neg (by omega)]
  · refine ⟨oneMag, BitVec.eq_of_toNat_eq ?_⟩
    rw [toNat_drawROf, Nat.mod_eq_of_lt (Nat.lt_succ_self _), if_pos rfl, hneg]

/-- Settles O37: the draws of R are the patterns of [0, 1), and those of J the remainders. -/
theorem drawsAreExactlyTheLegalOnes : Obligations.DrawsAreExactlyTheLegalOnes := by
  unfold Obligations.DrawsAreExactlyTheLegalOnes
  exact ⟨drawROf_inUnitInterval, fun r hfinite hlow hhigh =>
    exists_drawROf_eq (inUnitInterval_iff_toNat.1 ⟨hfinite, hlow, hhigh⟩),
    fun _ _ hlen => drawJOf_lt hlen, fun j _ hj => ⟨j, Nat.mod_eq_of_lt hj⟩⟩

/-! ### The cycle of a Sequence source (42 R74) -/

section Cycle
variable {s t : State}

/-- An advance of a Sequence source leaves it installed, with the cursor one further. -/
theorem State.SourceInstalled.sequenceAdvance (h : s.SourceInstalled) (hv : s.genVariant = .sequence) :
    ∃ f t, s.nextFrequency = .ok (s.genCursor.toNat, f, t) ∧ t.SourceInstalled ∧ t.genVariant = .sequence ∧
      t.genLen = s.genLen ∧ t.genCursor.toNat = (s.genCursor.toNat + 1) % s.genLen.toNat := by
  obtain ⟨f, hf⟩ := h.readable _ h.cursor
  obtain ⟨-, hnext⟩ := State.nextFrequency_of_nextIndex (State.nextIndex_of_sequence hv) h.cursor hf
  have hcursor := State.toNat_cursorAfter (s := s) s.genCursor.toNat h.len.1
  refine ⟨f, _, hnext, ⟨h.len, ?_, h.readable⟩, hv, rfl, hcursor⟩
  rw [hcursor]
  exact Nat.mod_lt _ h.len.1

theorem State.advances_succ {k idx : Nat} {f : F32} {u : State} {rest : List Nat}
    (hnext : s.nextFrequency = .ok (idx, f, t)) (hrest : State.advances k t = .ok (rest, u)) :
    State.advances (k + 1) s = .ok (idx :: rest, u) :=
  except_bind_ok.2 ⟨_, hnext, except_bind_ok.2 ⟨_, hrest, rfl⟩⟩

/-- The `k` advances of a Sequence source, by induction on `k` with the cursor free. -/
theorem State.SourceInstalled.advances (h : s.SourceInstalled) (hv : s.genVariant = .sequence) (k : Nat) :
    ∃ t, State.advances k s = .ok ((List.range k).map fun j => (s.genCursor.toNat + j) % s.genLen.toNat, t) ∧
      t.genCursor.toNat = (s.genCursor.toNat + k) % s.genLen.toNat := by
  induction k generalizing s with
  | zero => exact ⟨s, rfl, (Nat.mod_eq_of_lt h.cursor).symm⟩
  | succ k ih =>
    obtain ⟨f, u, hnext, hu, huv, hlen, hcursor⟩ := h.sequenceAdvance hv
    obtain ⟨t, hrest, ht⟩ := ih hu huv
    have hshift (j : Nat) :
        (u.genCursor.toNat + j) % u.genLen.toNat = (s.genCursor.toNat + (j + 1)) % s.genLen.toNat := by
      rw [hcursor, hlen, Nat.mod_add_mod, Nat.add_right_comm, Nat.add_assoc]
    refine ⟨t, ?_, ht.trans (hshift k)⟩
    rw [State.advances_succ hnext hrest, List.range_succ_eq_map, List.map_cons, List.map_map, Nat.add_zero,
      Nat.mod_eq_of_lt h.cursor]
    simp only [hshift]
    rfl

end Cycle

/-- Of any `len` indices in a row, taken cyclically, exactly one is `idx`. -/
theorem existsUnique_add_mod_eq {c len idx : Nat} (hc : c < len) (hidx : idx < len) :
    ∃! j, j < len ∧ (c + j) % len = idx := by
  have hmod {j : Nat} (hj : j < len) : (c + j) % len = if len ≤ c + j then c + j - len else c + j := by
    rw [Nat.add_mod_eq_ite, Nat.mod_eq_of_lt hc, Nat.mod_eq_of_lt hj]
  refine ⟨if c ≤ idx then idx - c else idx + len - c, ⟨?_, ?_⟩, ?_⟩
  · split <;> omega
  · rw [hmod (by split <;> omega)]
    split <;> split <;> omega
  · rintro j ⟨hj, heq⟩
    rw [hmod hj] at heq
    split at heq <;> split <;> omega

/-- Twice around the indices below `n`. -/
theorem map_mod_range_add_self (n : Nat) :
    ((List.range (n + n)).map fun j => (0 + j) % n) = List.range n ++ List.range n := by
  have hround : ∀ j ∈ List.range n, j % n = j := fun j hj => Nat.mod_eq_of_lt (List.mem_range.1 hj)
  simp only [List.range_add, List.map_append, List.map_map, Function.comp_def, Nat.zero_add, Nat.add_mod_left]
  rw [List.map_congr_left hround, List.map_id']

/-- An accepted list is an installed source, with the cursor at entry 0. -/
theorem State.sourceInstalled_installSequence {s : State} {v : Variant} {hz : List F32} (hpos : 1 ≤ hz.length)
    (hmax : hz.length ≤ s.params.seqMax) (hlen : (s.installSequence v hz).genLen.toNat = hz.length) :
    (s.installSequence v hz).SourceInstalled := by
  have hparams : (s.installSequence v hz).params = s.params := by rw [State.installSequence_frame]
  have hcursor : (s.installSequence v hz).genCursor = 0#16 := by rw [State.installSequence_frame]
  refine ⟨?_, ?_, fun j hj => ⟨_, State.memRead_installSequence (hlen ▸ hj)⟩⟩
  · rw [hlen, hparams]
    exact ⟨hpos, hmax⟩
  · rw [hlen, hcursor]
    exact hpos

/-- Settles O38: the indices are those of `k` advances, and a fresh load starts them at 0. -/
theorem sequenceIsPeriodic : Obligations.SequenceIsPeriodic := by
  unfold Obligations.SequenceIsPeriodic
  refine ⟨fun s k h hv => ⟨h.advances hv k, fun idx hidx => existsUnique_add_mod_eq h.cursor hidx⟩, ?_⟩
  intro kind es s t hlegal hexec hok
  obtain ⟨hes, hmax, hz, hcount, rfl⟩ := exec_setSequence_ok hexec hok
  have hpos : 1 ≤ es.length := List.length_pos_iff.2 hes
  have hseqMax := hlegal.seqLen.2
  have hlen : (s.installSequence .sequence hz).genLen.toNat = hz.length :=
    State.toNat_installSequence_genLen (by omega)
  have hcursor : (s.installSequence .sequence hz).genCursor = 0#16 := by rw [State.installSequence_frame]
  have hvariant : (s.installSequence .sequence hz).genVariant = .sequence := by rw [State.installSequence_frame]
  have hsource := State.sourceInstalled_installSequence (v := .sequence) (by omega) (by omega) hlen
  obtain ⟨u, hu, -⟩ := (hsource.congr (t := (s.installSequence .sequence hz).respond .control .ok [])).advances hvariant
    (es.length + es.length)
  refine ⟨hcursor, u, ?_⟩
  rw [hu, State.respond_genCursor, State.respond_genLen, hcursor, hlen, hcount]
  exact congrArg (fun indices => Except.ok (indices, u)) (map_mod_range_add_self es.length)

end Sys2Proof.Machine
end

section
/-!
PROOFS. The sequencer of 43_sequencer.md: PREPARE (R76), SET_TEMPO (R77), FILL_BLOCK with and without a note boundary
(R78, R79), the bound on the timer (R80) and the number of blocks that a note lasts (R81).
-/

namespace Sys2Proof.Machine

/-! ### Accepted rates and tempos as bit patterns -/

/-- The accepted rates: from 1.0 up to the last finite pattern (43 R76). -/
theorem rateAccepted_iff_toNat {r : F32} :
    rateAccepted r = true ↔ 0x3F800000 ≤ r.toNat ∧ r.toNat < 0x7F800000 := by
  have hmag := fmag_lt r
  rw [rateAccepted_iff, isFinite_iff, toNat_eq_sign_mag r, oneMag, infMag]
  cases fsign r with
  | true => simp only [if_true, Bool.true_eq_false, false_and, false_iff]; omega
  | false => simp only [Bool.false_eq_true, if_false, true_and]; omega

/-- The accepted tempos: every positive finite pattern (43 R77). -/
theorem tempoAccepted_iff_toNat {npm : F32} :
    tempoAccepted npm = true ↔ 0 < npm.toNat ∧ npm.toNat < 0x7F800000 := by
  have hmag := fmag_lt npm
  have hpos : tempoAccepted npm = true ↔ isFinite npm = true ∧ 0 < fval npm := by
    rw [tempoAccepted, Bool.and_eq_true]
    refine and_congr_right fun hfinite => ?_
    rw [flt_iff (by decide) (not_isNaN_of_isFinite hfinite), fval_zero]
  rw [hpos, isFinite_iff, toNat_eq_sign_mag npm, infMag, fval]
  cases fsign npm with
  | true => simp only [if_true]; omega
  | false =>
    simp only [Bool.false_eq_true, if_false, Int.natCast_pos, units_pos]
    exact and_comm

/-! ### PREPARE (43 R76) -/

/-- PREPARE behind the fault gate: its two checks answer alike, so they are one. -/
theorem exec_prepare_eq (p : Word) (r : F32) (s : State) :
    exec (.prepare p r) s = s.gated (
      if 1 ≤ p.toNat ∧ p.toNat ≤ s.params.blockMax ∧ rateAccepted r = true then
        (State.recomputeDelta { s with spb := p, sr := r, prepared := true }).answer .ok
      else s.answer .invalidArgument) := by
  have hsize : (decide (u32Operand p < 1) || decide (u32Operand p > s.params.blockMax)) = false ↔
      1 ≤ p.toNat ∧ p.toNat ≤ s.params.blockMax := by
    rw [Bool.or_eq_false_iff, decide_eq_false_iff_not, decide_eq_false_iff_not, not_lt, not_lt, u32Operand]
  rw [exec, execPrepare]
  congr 1
  by_cases hp : 1 ≤ p.toNat ∧ p.toNat ≤ s.params.blockMax
  · rw [hsize.2 hp]
    cases rateAccepted r <;> simp [hp]
  · rw [Bool.eq_true_of_not_eq_false (mt hsize.1 hp), if_pos rfl, if_neg fun h => hp ⟨h.1, h.2.1⟩]

/-- Settles O39: the two checks, and the increment derived from the new rate. -/
theorem prepareRule : Obligations.PrepareRule := by
  unfold Obligations.PrepareRule
  intro p r s
  refine ⟨fun hs => State.gated_faulted hs _, fun hs hbad => ?_, fun hs hlow hhigh hone hinf => ?_⟩
  · rw [exec_prepare_eq, State.gated_sound hs, if_neg (by rw [rateAccepted_iff_toNat]; omega)]
    rfl
  · rw [exec_prepare_eq, State.gated_sound hs, if_pos ⟨hlow, hhigh, rateAccepted_iff_toNat.2 ⟨hone, hinf⟩⟩,
      State.recomputeDelta_eq]
    simp [State.answer, State.respond, State.derivedDelta]

/-! ### SET_TEMPO (43 R77) -/

section Tempo
variable {npm : F32} {s : State}

theorem exec_setTempo_rejected (hs : s.faulted = false) (hnpm : tempoAccepted npm = false) :
    exec (.setTempo npm) s = .next (s.respond .control .invalidArgument []) := by
  simp [exec, execSetTempo, State.gated_sound hs, State.answer, hnpm]

theorem exec_setTempo_unprepared (hs : s.faulted = false) (hnpm : tempoAccepted npm = true)
    (hprepared : s.prepared = false) :
    exec (.setTempo npm) s = .next (s.respond .control .invalidState []) := by
  simp [exec, execSetTempo, State.gated_sound hs, State.answer, hnpm, hprepared]

/-- With an accepted rate the note length, where it is finite, can be rounded; only then does its size matter. -/
theorem exec_setTempo_prepared (hs : s.faulted = false) (hnpm : tempoAccepted npm = true)
    (hprepared : s.prepared = true) (hsr : rateAccepted s.sr = true) :
    exec (.setTempo npm) s =
      if isFinite (noteLength s.sr npm) = true ∧ roundHalfAway (noteLength s.sr npm) ≤ Config.spnMax then
        State.answer { s with spn := BitVec.ofNat 32 (roundHalfAway (noteLength s.sr npm)), tempoValid := true } .ok
      else s.answer .invalidArgument := by
  simp only [exec, execSetTempo, State.gated_sound hs, hnpm, hprepared, Bool.not_true, Bool.false_eq_true, if_false]
  cases hfinite : isFinite (noteLength s.sr npm) with
  | false => simp
  | true =>
    simp only [domain_ok.2 ⟨noteLength_inDomain hsr hnpm hfinite, rfl⟩, Bool.not_true, Bool.false_eq_true, if_false,
      true_and, gt_iff_lt, ← not_le, ite_not]

end Tempo

/-- Settles O40: the checks up to the note length, and then whether its rounding fits SPN_MAX. -/
theorem setTempoRule : Obligations.SetTempoRule := by
  unfold Obligations.SetTempoRule
  intro npm s
  refine ⟨fun hs => State.gated_faulted hs _, fun hs hbad => ?_, fun hs hpos hinf hprepared => ?_,
    fun hs hpos hinf hprepared hone hrate d hd => ?_⟩
  · refine exec_setTempo_rejected hs ?_
    rw [← Bool.not_eq_true, tempoAccepted_iff_toNat]
    omega
  · exact exec_setTempo_unprepared hs (tempoAccepted_iff_toNat.2 ⟨hpos, hinf⟩) hprepared
  · have hexec := exec_setTempo_prepared hs (tempoAccepted_iff_toNat.2 ⟨hpos, hinf⟩) hprepared
      (rateAccepted_iff_toNat.2 ⟨hone, hrate⟩)
    rw [show noteLength s.sr npm = d from hd.symm] at hexec
    constructor
    · intro hbad
      rw [hexec, if_neg]
      · rfl
      · rintro ⟨hfinite, hfits⟩
        rcases hbad with hnot | hlong
        · exact Bool.false_ne_true (hnot.symm.trans hfinite)
        · exact absurd hfits (not_le.2 hlong)
    · intro hfinite hfits
      rw [hexec, if_pos ⟨hfinite, hfits⟩]
      rfl

/-! ### FILL_BLOCK (43 R78) -/

section Fill
variable {c : BitVec 16} {b : Word} {s t u w : State} {mono : List F32}

theorem exec_fillBlock_idle (hs : s.faulted = false) (hshape : s.shapeOk c b = true) (hidle : s.seqMode = .idle) :
    exec (.fillBlock c b) s = .next (s.respond .audio .ok (silence c b)) := by
  simp [exec, execFillBlock, hs, hshape, hidle]

/-- A FILL_BLOCK that passes every check runs the block. -/
theorem State.ReadyToFill.exec_eq (h : s.ReadyToFill c b) :
    exec (.fillBlock c b) s = outcomeOf (s.runBlock c b) := by
  simp [exec, execFillBlock, h.notFaulted, h.shape, h.running, h.checks]

/-- The next state of a FILL_BLOCK, from its boundary check and its render. -/
theorem State.ReadyToFill.exec_next (h : s.ReadyToFill c b) (hcheck : s.boundaryCheck = .ok u)
    (hrender : State.renderMono b.toNat u = .ok (mono, w)) :
    exec (.fillBlock c b) s =
      .next (State.respond { w with elapsed := w.elapsed + b.zeroExtend 64 } .audio .ok (planar c.toNat mono)) := by
  rw [h.exec_eq]
  exact outcomeOf_ok (State.runBlock_ok.2 ⟨u, mono, w, hcheck, hrender, rfl⟩)

theorem State.ReadyToFill.stream (h : s.ReadyToFill c b) : s.tblValid = true ∧ s.prepared = true := by
  obtain ⟨hvalid, hprepared, -, -⟩ := State.runningCause_none.1 h.checks
  exact ⟨hvalid, hprepared⟩

end Fill

/-- Settles O41: the response is silence, whose words are `C` times `B` zeros. -/
theorem idleFillBlockIsSilent : Obligations.IdleFillBlockIsSilent := by
  unfold Obligations.IdleFillBlockIsSilent
  intro c b s hs hidle hlow hchannels hframes
  exact exec_fillBlock_idle hs (State.shapeOk_iff.2 ⟨hlow, hchannels, hframes⟩) hidle

/-! ### The timer (43 R78, R80) -/

section Timer
variable {s t : State}

theorem State.boundaryCheck_of_le (h : s.elapsed.toNat ≤ s.spn.toNat) : s.boundaryCheck = .ok s :=
  if_neg (not_lt.2 h)

theorem State.boundaryCheck_of_lt (h : s.spn.toNat < s.elapsed.toNat) : s.boundaryCheck = s.noteBoundary :=
  if_pos h

/-- The timer after a boundary check: restarted, or not yet past `spn`. -/
theorem State.boundaryCheck_elapsed_le (h : s.boundaryCheck = .ok t) : t.elapsed.toNat ≤ s.spn.toNat := by
  by_cases hlt : s.spn.toNat < s.elapsed.toNat
  · rw [State.boundaryCheck_of_lt hlt] at h
    rw [State.noteBoundary_frame h]
    exact Nat.zero_le _
  · rw [State.boundaryCheck_of_le (not_lt.1 hlt)] at h
    cases h
    exact not_lt.1 hlt

/-- A timer that has passed the boundary check has room for one more block. -/
theorem toNat_elapsed_add_frames {elapsed : BitVec 64} {spn frames : Word} (h : elapsed.toNat ≤ spn.toNat) :
    (elapsed + frames.zeroExtend 64).toNat = elapsed.toNat + frames.toNat := by
  have hspn := spn.isLt
  have hframes := frames.isLt
  rw [BitVec.toNat_add, BitVec.toNat_setWidth]
  omega

end Timer

/-- Settles O45: the bound is part of soundness, which every step keeps, and BLOCK_MAX is below 2^32. -/
theorem timerNeverWraps : Obligations.TimerNeverWraps := by
  unfold Obligations.TimerNeverWraps
  intro s t hinv hstep
  have htimer := (everyStepKeepsSoundness.1 s t hinv hstep).timer
  rw [parametersNeverChange s t hstep] at htimer
  have hblock := hinv.legal.block.2
  exact ⟨htimer, by omega, fun u hu => State.boundaryCheck_elapsed_le hu⟩

/-! ### A block with no note boundary (43 R78) -/

/-- Settles O42: the boundary check passes the state on, and the render moves the phase alone. -/
theorem fillBlockWithoutBoundary : Obligations.FillBlockWithoutBoundary := by
  unfold Obligations.FillBlockWithoutBoundary
  intro c b s hinv hready hle
  obtain ⟨mono, u, hrender, hlen, hframe, -⟩ := (hinv.playable hready.stream.1).renderMono b.toNat
  have hexec := hready.exec_next (State.boundaryCheck_of_le hle) hrender
  rw [hframe] at hexec
  exact ⟨mono, u, _, hexec, hrender, hlen, rfl, toNat_elapsed_add_frames hle⟩

/-! ### A block at a note boundary (43 R79) -/

/-- The state with `f` as its frequency and the increment derived from it (43 R79, 40 R53). -/
def State.withFrequency (s : State) (f : F32) : State :=
  { s with oscFreq := f, oscDelta := fdiv (fmul f (toF32 s.tblSize.toNat)) s.sr }

section Boundary
variable {s t : State} {idx : Nat} {f : F32}

/-- An advance moves the cursor and consumes draws, and changes nothing else (42 R70). -/
theorem State.nextFrequency_frame (h : s.nextFrequency = .ok (idx, f, t)) :
    ∃ cursor draws pos, t = { s with genCursor := cursor, draws := draws, drawPos := pos } := by
  obtain ⟨-, -, rfl⟩ := State.nextFrequency_ok.1 h
  rw [State.nextIndex_frame s]
  exact ⟨_, _, _, rfl⟩

theorem State.nextFrequency_cursor (h : s.nextFrequency = .ok (idx, f, t)) :
    t.genCursor.toNat = (idx + 1) % s.genLen.toNat := by
  obtain ⟨-, hread, rfl⟩ := State.nextFrequency_ok.1 h
  have hlen : s.nextIndex.2.genLen = s.genLen := by rw [State.nextIndex_frame s]
  have hlt := (State.seqRead_ok.1 hread).1
  rw [State.toNat_cursorAfter idx (by rw [hlen]; omega), hlen]

/-- The four actions of a note boundary on a prepared stream with a table, as one update (43 R79). -/
theorem State.noteBoundary_eq (hnext : s.nextFrequency = .ok (idx, f, t)) (hvalid : s.tblValid = true)
    (hprepared : s.prepared = true) :
    s.noteBoundary = .ok { t.withFrequency f with
      elapsed := 0#64, notes := ⟨BitVec.ofNat 32 idx, f⟩ :: s.notes } := by
  refine State.noteBoundary_ok.2 ⟨idx, f, t, hnext, ?_⟩
  obtain ⟨cursor, draws, pos, rfl⟩ := State.nextFrequency_frame hnext
  rw [State.recomputeDelta_eq, if_pos ⟨hvalid, hprepared⟩]
  rfl

end Boundary

/-- Settles O43: the boundary is one update of the state, and the render, which does not see the source, the timer and the
notes, gives the same samples as from the old state with the new frequency and increment. -/
theorem fillBlockAtABoundary : Obligations.FillBlockAtABoundary := by
  unfold Obligations.FillBlockAtABoundary
  intro c b s hinv hready hlt
  obtain ⟨hvalid, hprepared⟩ := hready.stream
  obtain ⟨idx, f, hidx, hentry, hnext, -⟩ := (hinv.source.1 hready.running).nextFrequency
  have hcursor := State.nextFrequency_cursor hnext
  have hcheck := (State.boundaryCheck_of_lt hlt).trans (State.noteBoundary_eq hnext hvalid hprepared)
  obtain ⟨cursor, draws, pos, hs1⟩ := State.nextFrequency_frame hnext
  rw [hs1] at hnext hcursor hcheck
  have hplay : (s.withFrequency f).Playable := { hinv.playable hvalid with }
  obtain ⟨mono, u, hrender, hlen, -, -⟩ := hplay.renderMono b.toNat
  have hexec := hready.exec_next hcheck
    (State.renderMono_congr (s := s.withFrequency f) rfl rfl rfl rfl rfl rfl hrender)
  exact ⟨idx, f, _, u, _, mono, hnext, hidx, hentry, hexec, hrender, hlen, rfl, hcursor,
    (toNat_elapsed_add_frames (elapsed := 0#64) (Nat.zero_le s.spn.toNat)).trans (Nat.zero_add _)⟩

/-! ### The blocks of one note (43 R81) -/

/-- What FILL_BLOCKs with no note boundary among them can change: the phase, the timer and the responses. -/
def State.OnlyPlayed (s t : State) : Prop :=
  t = { s with oscIndex := t.oscIndex, elapsed := t.elapsed, responses := t.responses }

section Note
variable {c : BitVec 16} {b : Word} {s t u : State} {n m : Nat}

theorem State.OnlyPlayed.trans (hst : s.OnlyPlayed t) (htu : t.OnlyPlayed u) : s.OnlyPlayed u := by
  unfold State.OnlyPlayed at *
  rw [htu, hst]

/-- The checks of a FILL_BLOCK read nothing that playing changes. -/
theorem State.OnlyPlayed.readyToFill (h : s.OnlyPlayed t) (hready : s.ReadyToFill c b) : t.ReadyToFill c b := by
  rw [h]
  exact ⟨hready.notFaulted, hready.shape, hready.running, hready.checks⟩

theorem State.Inv.exec (h : s.Inv) {i : Instr} (hexec : exec i s = .next t) : t.Inv := by
  obtain ⟨u, hu, hsound⟩ := exec_sound (acc := False) ⟨h, False.elim⟩ i False.elim
  rw [hexec] at hu
  cases hu
  exact hsound.inv

theorem fillTimes_succ_of_next (h : exec (.fillBlock c b) s = .next t) :
    fillTimes c b (n + 1) s = fillTimes c b n t := by
  rw [fillTimes, h]

theorem fillTimes_add (h : fillTimes c b n s = some t) : fillTimes c b (n + m) s = fillTimes c b m t := by
  induction n generalizing s with
  | zero => cases h; rw [Nat.zero_add]
  | succ n ih =>
    rw [Nat.succ_add]
    cases hexec : exec (.fillBlock c b) s with
    | next u =>
      rw [fillTimes_succ_of_next hexec] at h ⊢
      exact ih h
    | fault e => rw [fillTimes, hexec] at h; cases h
    | refused e => rw [fillTimes, hexec] at h; cases h

/-- While the timer is at most `spn` before each of them, `n` blocks play and add their frames to it. -/
theorem fillTimes_withoutBoundary (hinv : s.Inv) (hready : s.ReadyToFill c b)
    (hroom : s.elapsed.toNat + n * b.toNat ≤ s.spn.toNat + b.toNat) :
    ∃ t, fillTimes c b n s = some t ∧ t.Inv ∧ s.OnlyPlayed t ∧
      t.elapsed.toNat = s.elapsed.toNat + n * b.toNat := by
  induction n generalizing s with
  | zero => exact ⟨s, rfl, hinv, rfl, by omega⟩
  | succ n ih =>
    rw [Nat.succ_mul] at hroom ⊢
    obtain ⟨_, _, u, hexec, -, -, hu, hadded⟩ := fillBlockWithoutBoundary c b s hinv hready (by omega)
    have hplayed : s.OnlyPlayed u := by unfold State.OnlyPlayed; rw [hu]
    have hspn : u.spn = s.spn := by rw [hplayed]
    obtain ⟨t, hfill, ht, hrest, helapsed⟩ :=
      ih (hinv.exec hexec) (hplayed.readyToFill hready) (by rw [hspn]; omega)
    exact ⟨t, (fillTimes_succ_of_next hexec).trans hfill, ht, hplayed.trans hrest, by omega⟩

end Note

/-- Settles O46: the first `k` blocks start with the timer at most `spn`, and the next one with it past `spn`. -/
theorem noteLastsWholeBlocks : Obligations.NoteLastsWholeBlocks := by
  unfold Obligations.NoteLastsWholeBlocks
  intro c b s hinv hready hzero hb k
  have hstart : s.elapsed.toNat = 0 := by rw [hzero]; rfl
  have hsplit : k * b.toNat = s.spn.toNat / b.toNat * b.toNat + b.toNat := Nat.succ_mul _ _
  have hdown := Nat.div_mul_le_self s.spn.toNat b.toNat
  have hpast : s.spn.toNat < k * b.toNat := hsplit ▸ Nat.lt_div_mul_add hb
  have hplay (n : Nat) (hn : n ≤ k) : ∃ t, fillTimes c b n s = some t ∧ t.Inv ∧ s.OnlyPlayed t ∧
      t.elapsed.toNat = n * b.toNat := by
    have hframes := Nat.mul_le_mul_right b.toNat hn
    obtain ⟨t, hfill, ht, hplayed, helapsed⟩ := fillTimes_withoutBoundary hinv hready (n := n) (by omega)
    exact ⟨t, hfill, ht, hplayed, by omega⟩
  refine ⟨hpast, fun n hn => ?_, ?_⟩
  · obtain ⟨t, hfill, -, hplayed, helapsed⟩ := hplay n hn
    exact ⟨t, hfill, helapsed, by rw [hplayed], by rw [hplayed], by rw [hplayed]⟩
  · obtain ⟨t, hfill, ht, hplayed, helapsed⟩ := hplay k le_rfl
    have hspn : t.spn = s.spn := by rw [hplayed]
    have hnotes : t.notes = s.notes := by rw [hplayed]
    obtain ⟨idx, f, _, _, v, _, -, -, -, hexec, -, -, hv, -, hrestart⟩ :=
      fillBlockAtABoundary c b t ht (hplayed.readyToFill hready) (by rw [hspn, helapsed]; exact hpast)
    refine ⟨v, ⟨BitVec.ofNat 32 idx, f⟩, ?_, hrestart, ?_⟩
    · rw [fillTimes_add hfill, fillTimes_succ_of_next hexec, fillTimes]
    · rw [hv, hnotes]

end Sys2Proof.Machine
end

section
/-!
PROOFS. The read-back commands of 44_debug.md: the checks and the word of READ_TABLE (R84), READ_REG (R85) and READ_SEQ
(R86), and the bits of the STATUS word.
-/

namespace Sys2Proof.Machine

/-! ### READ_REG (44 R85) -/

/-- The STATUS word as a number: seven flags from bit 0 up, bit 7 clear, and the cause code above it. -/
theorem toNat_statusWord (s : State) :
    (statusWord s).toNat = (seqModeBit s.seqMode).toNat + 2 * s.faulted.toNat + 4 * s.tblValid.toNat +
      8 * s.prepared.toNat + 16 * s.tempoValid.toNat + 32 * s.genVariant.bit.toNat + 64 * s.genBank.toNat +
      256 * (faultCauseCode s.faultCause).toNat := by
  have hbits : statusWord s =
      ((((((((0#16 ++ faultCauseCode s.faultCause).concat false).concat s.genBank).concat s.genVariant.bit).concat
        s.tempoValid).concat s.prepared).concat s.tblValid).concat s.faulted).concat (seqModeBit s.seqMode) := rfl
  have hcause : (0#16 ++ faultCauseCode s.faultCause).toNat = (faultCauseCode s.faultCause).toNat := by
    rw [BitVec.toNat_append, BitVec.toNat_zero, Nat.zero_shiftLeft, Nat.zero_or]
  rw [hbits]
  simp only [BitVec.toNat_concat, hcause, Bool.toNat_false]
  omega

theorem toNat_seqModeBit (m : SeqMode) : (seqModeBit m).toNat = if m = .running then 1 else 0 := by
  cases m <;> rfl

theorem toNat_variantBit (v : Variant) : v.bit.toNat = if v = .random then 1 else 0 := by
  cases v <;> rfl

theorem toNat_lowHalf (x : BitVec 64) : (x.extractLsb' 0 32).toNat = x.toNat % 2 ^ 32 := by
  rw [BitVec.extractLsb'_toNat, Nat.shiftRight_zero]

theorem toNat_highHalf (x : BitVec 64) : (x.extractLsb' 32 32).toNat = x.toNat / 2 ^ 32 := by
  rw [BitVec.extractLsb'_toNat, Nat.shiftRight_eq_div_pow]
  have hlt := x.isLt
  omega

section ReadReg
variable {sel w : Word} {s : State}

theorem State.regWord_eq_none {n : Nat} (s : State) (hn : 13 < n) : s.regWord n = none := by
  obtain ⟨k, rfl⟩ := Nat.exists_eq_add_of_le' hn
  rfl

theorem State.exists_regWord {n : Nat} (s : State) (hn : n ≤ 13) : ∃ w, s.regWord n = some w := by
  interval_cases n <;> exact ⟨_, rfl⟩

theorem exec_readReg_noRegister (h : s.regWord sel.toNat = none) :
    exec (.readReg sel) s = .next (s.respond .control .invalidArgument []) := by
  rw [exec, execReadReg, u32Operand, h, State.answer]

theorem exec_readReg_register (h : s.regWord sel.toNat = some w) :
    exec (.readReg sel) s = .next (s.respond .control .ok [w]) := by
  rw [exec, execReadReg, u32Operand, h]
  rfl

end ReadReg

/-- Settles O48: a selector has a register exactly up to 13, and each register's word is the one the table of 44 R85
gives. -/
theorem readRegRule : Obligations.ReadRegRule := by
  unfold Obligations.ReadRegRule
  refine fun sel s => ⟨fun hsel => exec_readReg_noRegister (s.regWord_eq_none hsel), fun hsel => ?_⟩
  obtain ⟨w, hw⟩ := s.exists_regWord hsel
  have word_eq {n : Nat} {v : Word} (hn : s.regWord n = some v) (h : sel.toNat = n) : w = v := by
    rw [h, hn] at hw
    exact (Option.some_inj.1 hw).symm
  refine ⟨w, exec_readReg_register hw, fun h => ?status, word_eq rfl, word_eq rfl, word_eq rfl, word_eq rfl,
    word_eq rfl, word_eq rfl, word_eq rfl, word_eq rfl, word_eq rfl, fun h => ?low, fun h => ?high,
    fun h => ?len, fun h => ?cursor⟩
  case status =>
    rw [word_eq rfl h, toNat_statusWord, toNat_seqModeBit, toNat_variantBit]
    simp only [Bool.toNat, cond_eq_ite, mul_ite, mul_one, mul_zero]
    cases s.faultCause <;> rfl
  case low => rw [word_eq rfl h, toNat_lowHalf]
  case high => rw [word_eq rfl h, toNat_highHalf]
  case len => rw [word_eq rfl h]; exact BitVec.toNat_setWidth_of_le (by decide)
  case cursor => rw [word_eq rfl h]; exact BitVec.toNat_setWidth_of_le (by decide)

/-! ### READ_TABLE (44 R84) -/

section ReadTable
variable {i v : Word} {s : State}

theorem exec_readTable_unbuilt (hv : s.tblValid = false) :
    exec (.readTable i) s = .next (s.respond .control .invalidState []) := by
  simp [exec, execReadTable, State.answer, hv]

theorem exec_readTable_aboveGuard (hv : s.tblValid = true) (hi : s.tblSize.toNat < i.toNat) :
    exec (.readTable i) s = .next (s.respond .control .invalidArgument []) := by
  simp [exec, execReadTable, u32Operand, State.answer, hv, hi]

theorem exec_readTable_word (hr : s.tblRead i.toNat = .ok v) :
    exec (.readTable i) s = .next (s.respond .control .ok [v]) := by
  obtain ⟨hv, hi, -⟩ := State.tblRead_ok.1 hr
  simp [exec, execReadTable, u32Operand, State.answerRead, State.answerWord, hv, hi, hr]

end ReadTable

/-- Settles O47: one equation per check, and the word that MemRead gives. -/
theorem readTableRule : Obligations.ReadTableRule := by
  unfold Obligations.ReadTableRule
  exact fun i s => ⟨exec_readTable_unbuilt, exec_readTable_aboveGuard,
    fun hv hi v hread => exec_readTable_word (State.tblRead_ok.2 ⟨hv, hi, hread⟩)⟩

/-! ### READ_SEQ (44 R86) -/

section ReadSeq
variable {i v : Word} {s : State}

theorem exec_readSeq_idle (hm : s.seqMode = .idle) :
    exec (.readSeq i) s = .next (s.respond .control .invalidState []) := by
  simp [exec, execReadSeq, State.answer, hm]

theorem exec_readSeq_pastEnd (hm : s.seqMode = .running) (hi : s.genLen.toNat ≤ i.toNat) :
    exec (.readSeq i) s = .next (s.respond .control .invalidArgument []) := by
  simp [exec, execReadSeq, u32Operand, State.answer, hm, hi]

theorem exec_readSeq_word (hm : s.seqMode = .running) (hr : s.seqRead i.toNat = .ok v) :
    exec (.readSeq i) s = .next (s.respond .control .ok [v]) := by
  obtain ⟨hi, -⟩ := State.seqRead_ok.1 hr
  simp [exec, execReadSeq, u32Operand, State.answerRead, State.answerWord, hm, hi, hr]

end ReadSeq

/-- Settles O49: one equation per check, and the word that MemRead gives from the active bank. -/
theorem readSeqRule : Obligations.ReadSeqRule := by
  unfold Obligations.ReadSeqRule
  exact fun i s => ⟨exec_readSeq_idle, exec_readSeq_pastEnd,
    fun hm hi v hread => exec_readSeq_word hm (State.seqRead_ok.2 ⟨hi, hread⟩)⟩

end Sys2Proof.Machine
end

section
/-!
PROOFS. The exceptions and notifications of 60_exceptions.md: the fatal faults of FILL_BLOCK (R89, R90), the faulted block
(R91, R92), NoteChanged (R94), the events of the other agents (R98, R101), and that a sound block never stops (R99).
-/

namespace Sys2Proof.Machine

/-! ### Progress and the events of the other agents (60 R98, R99, R101) -/

/-- Settles O14: `step_sound` with no claim on the frequencies, so with no premise on the notes. -/
theorem soundStatesNeverStop : Obligations.SoundStatesNeverStop := by
  unfold Obligations.SoundStatesNeverStop
  intro s hinv
  have hsound : s.SoundIf False := ⟨hinv, False.elim⟩
  obtain ⟨t, hstep, -⟩ := step_sound hsound False.elim
  exact ⟨t, hstep⟩

/-- Settles O11: an idle step is `step_nil`; the other events are their updates of the state without its first event. -/
theorem environmentEventsTouchNoRegister : Obligations.EnvironmentEventsTouchNoRegister := by
  unfold Obligations.EnvironmentEventsTouchNoRegister
  refine fun s rest n => ⟨step_nil, fun htake => ?_, fun hsupply => ?_⟩
  · rw [step_cons htake]; rfl
  · rw [step_cons hsupply]; rfl

/-! ### The fatal faults of FILL_BLOCK (60 R89, R90) -/

section Fatal
variable {c : BitVec 16} {b : Word} {s : State} {cause : FaultCause}

/-- The shapes that the buffer does not hold (60 R89, BAD_SHAPE). -/
theorem State.shapeOk_eq_false_iff :
    s.shapeOk c b = false ↔ c.toNat < 1 ∨ s.params.channelsMax < c.toNat ∨ s.params.blockMax < b.toNat := by
  rw [← Bool.not_eq_true, State.shapeOk_iff]
  omega

/-- Which cause a RUNNING FILL_BLOCK finds first (43 R78). -/
theorem State.runningCause_eq_some_iff :
    s.runningCause b = some cause ↔
      cause = .noTable ∧ s.tblValid = false ∨
      cause = .notPrepared ∧ s.tblValid = true ∧ s.prepared = false ∨
      cause = .noTempo ∧ s.tblValid = true ∧ s.prepared = true ∧ s.tempoValid = false ∨
      cause = .blockTooLarge ∧ s.tblValid = true ∧ s.prepared = true ∧ s.tempoValid = true ∧ s.spb.toNat < b.toNat := by
  unfold State.runningCause u32Operand
  cases s.tblValid with
  | false => simp [@eq_comm _ _ cause]
  | true =>
    cases s.prepared with
    | false => simp [@eq_comm _ _ cause]
    | true => cases s.tempoValid <;> simp [@eq_comm _ _ cause, and_comm]

theorem exec_fillBlock_badShape (hs : s.faulted = false) (hshape : s.shapeOk c b = false) :
    exec (.fillBlock c b) s = .next (s.raiseFatal .badShape []) := by
  simp [exec, execFillBlock, hs, hshape]

theorem exec_fillBlock_fatal (hs : s.faulted = false) (hshape : s.shapeOk c b = true) (hm : s.seqMode = .running)
    (hcause : s.runningCause b = some cause) :
    exec (.fillBlock c b) s = .next (s.raiseFatal cause (silence c b)) := by
  simp [exec, execFillBlock, hs, hshape, hm, hcause]

end Fatal

/-- Settles O23: the four conditions of a RUNNING block are those under which `runningCause` gives each cause. -/
theorem fatalFaultsInOrder : Obligations.FatalFaultsInOrder := by
  unfold Obligations.FatalFaultsInOrder
  refine fun c b s hs => ⟨fun hshape => ?_, fun hlow hchannels hframes hm cause hcause => ?_⟩
  · exact exec_fillBlock_badShape hs (State.shapeOk_eq_false_iff.2 hshape)
  · exact exec_fillBlock_fatal hs (State.shapeOk_iff.2 ⟨hlow, hchannels, hframes⟩) hm
      (State.runningCause_eq_some_iff.2 hcause)

/-! ### The faulted block (60 R91, R92) -/

section Faulted
variable {c : BitVec 16} {b : Word} {i : Instr} {e : Event} {s t : State}

theorem exec_fillBlock_faulted (hs : s.faulted = true) :
    exec (.fillBlock c b) s = .next (s.respond .audio .faulted (s.faultedBuffer c b)) := by
  simp [exec, execFillBlock, hs]

theorem State.faultedBuffer_of_shapeOk (h : s.shapeOk c b = true) : s.faultedBuffer c b = silence c b := if_pos h

theorem State.faultedBuffer_of_badShape (h : s.shapeOk c b = false) : s.faultedBuffer c b = [] := by
  simp [State.faultedBuffer, h]

/-- Every control command but the read-backs stands behind the fault gate (60 R91). -/
theorem exec_control_faulted (hs : s.faulted = true) (hread : isReadBack i = false) (hport : i.port = .control) :
    exec i s = .next (s.respond .control .faulted []) := by
  cases i with
  | buildTable size harmonics => exact State.gated_faulted hs _
  | prepare samplesPerBlock sampleRate => exact State.gated_faulted hs _
  | setFrequency freq => exact State.gated_faulted hs _
  | setAmplitude amp => exact State.gated_faulted hs _
  | setTempo npm => exact State.gated_faulted hs _
  | setSequence kind variant entries => exact State.gated_faulted hs _
  | fillBlock channels frames => cases hport
  | readTable index => cases hread
  | readReg selector => cases hread
  | readSeq index => cases hread

/-- No fault gate applies to a read-back (60 R91). -/
theorem exec_readBack_code (hread : isReadBack i = true) (h : exec i s = .next t) :
    ∃ p code d, code ≠ ResponseCode.faulted ∧ t = s.respond p code d := by
  have hanswer : (∃ code, code ≠ ResponseCode.ok ∧ code ≠ .fatal ∧ code ≠ .faulted ∧ t = s.respond .control code []) ∨
      ∃ w, t = s.respond .control .ok [w] := by
    cases i with
    | readTable index => exact execReadTable_next h
    | readReg selector => exact execReadReg_next h
    | readSeq index => exact execReadSeq_next h
    | _ => cases hread
  rcases hanswer with ⟨code, -, -, hcode, ht⟩ | ⟨w, ht⟩
  · exact ⟨_, code, _, hcode, ht⟩
  · exact ⟨_, .ok, _, by decide, ht⟩

/-- While faulted, FILL_BLOCK only answers, and the other commands never write the fault registers. -/
theorem exec_keeps_fault (hs : s.faulted = true) (h : exec i s = .next t) :
    t.faulted = s.faulted ∧ t.faultCause = s.faultCause := by
  by_cases hfill : ∃ c b, i = .fillBlock c b
  · obtain ⟨c, b, rfl⟩ := hfill
    rw [exec_fillBlock_faulted hs] at h
    cases h
    exact ⟨rfl, rfl⟩
  · obtain ⟨-, -, hfaulted, hcause, -⟩ := exec_playback h fun c b hi => hfill ⟨c, b, hi⟩
    exact ⟨hfaulted, hcause⟩

/-- Reset is the only exit from the fault state (60 R92). -/
theorem runEvent_keeps_fault (hs : s.faulted = true) (hreset : e ≠ .reset) (h : runEvent e s = .next t) :
    t.faulted = s.faulted ∧ t.faultCause = s.faultCause := by
  cases e with
  | command p k =>
    cases hd : decode p k with
    | instr i => rw [runEvent_of_instr hd] at h; exact exec_keeps_fault hs h
    | illegal why => rw [runEvent_of_illegal hd] at h; cases h; exact ⟨rfl, rfl⟩
  | supplyDraw raw => cases h; exact ⟨rfl, rfl⟩
  | takeNote => cases h; exact ⟨rfl, rfl⟩
  | reset => exact absurd rfl hreset

end Faulted

/-- Settles O22: taking the event from the list leaves the fault registers, and so does every event but reset. -/
theorem faultCauseStaysUntilReset : Obligations.FaultCauseStaysUntilReset := by
  unfold Obligations.FaultCauseStaysUntilReset
  intro s t e rest hs hpending hreset hstep
  rw [step_cons hpending] at hstep
  obtain ⟨hfaulted, hcause⟩ := runEvent_keeps_fault (s := { s with pending := rest }) hs hreset hstep
  exact ⟨hfaulted.trans hs, hcause⟩

/-- Settles O21: the fault gate of the control commands, the buffer of a FAULTED block by its shape, the answers of the
read-backs, and the fault kept by every event but reset. -/
theorem faultedBlockAnswersFaulted : Obligations.FaultedBlockAnswersFaulted := by
  unfold Obligations.FaultedBlockAnswersFaulted
  intro s hs
  refine ⟨fun i => exec_control_faulted hs, fun c b hlow hchannels hframes => ?silence, fun c b hshape => ?noWords,
    fun i t hread hexec r hr => ?readBack, fun t e rest hpending hreset hstep => ?kept⟩
  case silence =>
    rw [exec_fillBlock_faulted hs, State.faultedBuffer_of_shapeOk (State.shapeOk_iff.2 ⟨hlow, hchannels, hframes⟩)]
    rfl
  case noWords =>
    rw [exec_fillBlock_faulted hs, State.faultedBuffer_of_badShape (State.shapeOk_eq_false_iff.2 hshape)]
    rfl
  case readBack =>
    obtain ⟨p, code, d, hcode, rfl⟩ := exec_readBack_code hread hexec
    obtain rfl : ⟨p, code, d⟩ = r := by simpa using hr
    exact hcode
  case kept => exact (faultCauseStaysUntilReset s t e rest hs hpending hreset hstep).1

/-! ### NoteChanged (60 R94) -/

/-- From `s` to `t` one NoteChanged is emitted when `boundary` holds, and none when it does not. -/
def State.NotifiesExactlyIf (s t : State) (boundary : Prop) : Prop :=
  (boundary ∧ ∃ n, t.notes = n :: s.notes) ∨ (¬boundary ∧ t.notes = s.notes)

section Notes
variable {c : BitVec 16} {b : Word} {i : Instr} {e : Event} {s t : State} {boundary : Prop}

theorem State.NotifiesExactlyIf.notes_ne_iff (h : s.NotifiesExactlyIf t boundary) : t.notes ≠ s.notes ↔ boundary := by
  rcases h with ⟨hb, n, hn⟩ | ⟨hb, hn⟩
  · simp [hb, hn]
  · simp [hb, hn]

theorem State.NotifiesExactlyIf.atMostOne (h : s.NotifiesExactlyIf t boundary) :
    t.notes = s.notes ∨ ∃ n, t.notes = n :: s.notes :=
  h.symm.imp And.right And.right

theorem State.NotifiesExactlyIf.congr {u : State} (h : s.NotifiesExactlyIf t boundary) (hnotes : u.notes = t.notes) :
    s.NotifiesExactlyIf u boundary := by
  unfold State.NotifiesExactlyIf
  rw [hnotes]
  exact h

/-- A note boundary emits one NoteChanged, whatever its advance gives (43 R79). -/
theorem State.noteBoundary_notes (h : s.noteBoundary = .ok t) : ∃ n, t.notes = n :: s.notes := by
  obtain ⟨idx, f, u, hnext, rfl⟩ := State.noteBoundary_ok.1 h
  obtain ⟨cursor, draws, pos, rfl⟩ := State.nextFrequency_frame hnext
  rw [State.recomputeDelta_eq]
  exact ⟨_, rfl⟩

theorem State.boundaryCheck_notes (h : s.boundaryCheck = .ok t) :
    s.NotifiesExactlyIf t (s.spn.toNat < s.elapsed.toNat) := by
  by_cases hlt : s.spn.toNat < s.elapsed.toNat
  · rw [State.boundaryCheck_of_lt hlt] at h
    exact .inl ⟨hlt, State.noteBoundary_notes h⟩
  · rw [State.boundaryCheck_of_le (not_lt.1 hlt)] at h
    cases h
    exact .inr ⟨hlt, rfl⟩

/-- Of a RUNNING block only the boundary check notifies: the render moves the phase alone. -/
theorem State.runBlock_notes (h : s.runBlock c b = .ok t) :
    s.NotifiesExactlyIf t (s.spn.toNat < s.elapsed.toNat) := by
  obtain ⟨u, mono, w, hcheck, hrender, rfl⟩ := State.runBlock_ok.1 h
  obtain ⟨-, hframe⟩ := State.renderMono_frame hrender
  have hnotes : w.notes = u.notes := by rw [hframe]
  exact (State.boundaryCheck_notes hcheck).congr hnotes

/-- A FILL_BLOCK that answers FAULTED, IDLE silence or a fatal fault has not passed its checks, and notifies of nothing. -/
theorem exec_fillBlock_notes (h : exec (.fillBlock c b) s = .next t) :
    s.NotifiesExactlyIf t (s.ReadyToFill c b ∧ s.spn.toNat < s.elapsed.toNat) := by
  by_cases hready : s.ReadyToFill c b
  · rw [hready.exec_eq] at h
    simpa [State.NotifiesExactlyIf, hready] using State.runBlock_notes (outcomeOf_next.1 h)
  · refine .inr ⟨fun hb => hready hb.1, ?_⟩
    rcases execFillBlock_next h with ⟨-, rfl⟩ | ⟨-, -, rfl⟩ | ⟨-, -, -, rfl⟩ | ⟨cause, -, -, -, -, rfl⟩ |
      ⟨hs, hshape, hm, hcause, -⟩
    · rfl
    · rfl
    · rfl
    · rfl
    · exact absurd ⟨hs, hshape, hm, hcause⟩ hready

/-- The one way in which an event reaches a note boundary (60 R94). -/
def Event.FillsAtBoundary (e : Event) (s : State) : Prop :=
  ∃ k c b, e = .command .audio k ∧ decode .audio k = .instr (.fillBlock c b) ∧ s.ReadyToFill c b ∧
    s.spn.toNat < s.elapsed.toNat

theorem Event.fillsAtBoundary_iff {k : Packet} (hd : decode .audio k = .instr (.fillBlock c b)) :
    Event.FillsAtBoundary (.command .audio k) s ↔ s.ReadyToFill c b ∧ s.spn.toNat < s.elapsed.toNat := by
  constructor
  · rintro ⟨k', c', b', he, hd', hat⟩
    cases he
    cases hd.symm.trans hd'
    exact hat
  · exact fun hat => ⟨k, c, b, rfl, hd, hat⟩

theorem Event.not_fillsAtBoundary {p : Port} {k : Packet} (hd : ∀ c b, decode p k ≠ .instr (.fillBlock c b)) :
    ¬Event.FillsAtBoundary (.command p k) s := by
  rintro ⟨k', c, b, he, hd', -⟩
  cases he
  exact hd c b hd'

/-- A command that is no FILL_BLOCK never notifies; FILL_BLOCK decodes on the audio port only (30 R45). -/
theorem runEvent_command_notes {p : Port} {k : Packet} (hd : decode p k = .instr i) (h : exec i s = .next t) :
    s.NotifiesExactlyIf t (Event.FillsAtBoundary (.command p k) s) := by
  by_cases hfill : ∃ c b, i = .fillBlock c b
  · obtain rfl : p = .audio := (onlyFillBlockComesOnTheAudioPort p k i hd).2 hfill
    obtain ⟨c, b, rfl⟩ := hfill
    rw [Event.fillsAtBoundary_iff hd]
    exact exec_fillBlock_notes h
  · have hi : ∀ c b, i ≠ .fillBlock c b := fun c b hi => hfill ⟨c, b, hi⟩
    obtain ⟨-, -, -, -, hnotes, -⟩ := exec_playback h hi
    refine .inr ⟨Event.not_fillsAtBoundary fun c b hd' => ?_, hnotes⟩
    cases hd.symm.trans hd'
    exact hi c b rfl

theorem runEvent_notes (h : runEvent e s = .next t) : s.NotifiesExactlyIf t (e.FillsAtBoundary s) := by
  cases e with
  | command p k =>
    cases hd : decode p k with
    | instr i => rw [runEvent_of_instr hd] at h; exact runEvent_command_notes hd h
    | illegal why =>
      rw [runEvent_of_illegal hd] at h
      cases h
      exact .inr ⟨Event.not_fillsAtBoundary fun c b hd' => (nomatch hd.symm.trans hd'), rfl⟩
  | supplyDraw raw => cases h; exact .inr ⟨fun ⟨_, _, _, he, _⟩ => (nomatch he), rfl⟩
  | takeNote => cases h; exact .inr ⟨fun ⟨_, _, _, he, _⟩ => (nomatch he), rfl⟩
  | reset => cases h; exact .inr ⟨fun ⟨_, _, _, he, _⟩ => (nomatch he), rfl⟩

/-- The checks of a FILL_BLOCK and its timer do not read the pending events. -/
theorem Event.fillsAtBoundary_pending {rest : List Event} :
    e.FillsAtBoundary { s with pending := rest } ↔ e.FillsAtBoundary s := by
  constructor
  · rintro ⟨k, c, b, he, hd, hready, hlt⟩
    exact ⟨k, c, b, he, hd, { hready with }, hlt⟩
  · rintro ⟨k, c, b, he, hd, hready, hlt⟩
    exact ⟨k, c, b, he, hd, { hready with }, hlt⟩

end Notes

/-- Settles O44: each event notifies exactly at a boundary, and then once; the checks do not read the pending events. -/
theorem notesOnlyAtBoundaries : Obligations.NotesOnlyAtBoundaries := by
  unfold Obligations.NotesOnlyAtBoundaries
  intro s t e rest hpending hstep
  rw [step_cons hpending] at hstep
  have hnotes := runEvent_notes hstep
  rw [Event.fillsAtBoundary_pending] at hnotes
  exact ⟨hnotes.atMostOne, hnotes.notes_ne_iff⟩

end Sys2Proof.Machine
end

section
/-!
PROOFS. What 70_reset_and_hazards.md says of reset: one step puts every register at its reset value and leaves no memory
word readable (R102, R103), and keeps the parameters and the environment (R104).
-/

namespace Sys2Proof.Machine

/-! ### The reset values (70 R102, R103) -/

/-- The registers of 10 §2 in the order of its table, each at the value of 70 R102, and the memories with no readable word. -/
def State.AtReset (t : State) : Prop :=
  t.seqMode = .idle ∧ t.faulted = false ∧ t.faultCause = .none ∧
  t.tblValid = false ∧ t.tblSize = 0#32 ∧ t.tblHarm = 0#32 ∧
  t.oscIndex = 0#32 ∧ t.oscDelta = 0#32 ∧ t.oscAmp = 0#32 ∧ t.oscFreq = 0#32 ∧
  t.prepared = false ∧ t.sr = 0#32 ∧ t.spb = 0#32 ∧ t.tempoValid = false ∧ t.spn = 0#32 ∧ t.elapsed = 0#64 ∧
  t.genVariant = .sequence ∧ t.genBank = false ∧ t.genLen = 0#16 ∧ t.genCursor = 0#16 ∧
  ∀ i, memRead t.tbl i = none ∧ memRead t.seq0 i = none ∧ memRead t.seq1 i = none

/-- Each register's value is the one `resetWith` writes, and its memories are empty lists. -/
theorem State.resetWith_atReset (p : Params) : (State.resetWith p).AtReset := by
  unfold State.AtReset
  refine ⟨rfl, rfl, rfl, rfl, rfl, rfl, rfl, rfl, rfl, rfl, rfl, rfl, rfl, rfl, rfl, rfl, rfl, rfl, rfl, rfl, fun i => ?_⟩
  exact ⟨memRead_nil i, memRead_nil i, memRead_nil i⟩

/-- The reset agent's step writes the registers of `resetWith`; what it keeps is no register. -/
theorem State.doReset_atReset (s : State) : s.doReset.AtReset := State.resetWith_atReset s.params

/-- What reset keeps: the parameters and the record of the environment (70 R104). -/
theorem State.doReset_keeps (s : State) :
    s.doReset.params = s.params ∧ s.doReset.pending = s.pending ∧ s.doReset.responses = s.responses ∧
    s.doReset.notes = s.notes ∧ s.doReset.draws = s.draws ∧ s.doReset.drawPos = s.drawPos :=
  ⟨rfl, rfl, rfl, rfl, rfl, rfl⟩

/-- After reset the block is IDLE and not faulted, so its first FILL_BLOCK is the silent one of 43 R78. -/
theorem State.AtReset.fillBlock_silent {t : State} (h : t.AtReset) (c : BitVec 16) (b : Word) (hlow : 1 ≤ c.toNat)
    (hchannels : c.toNat ≤ t.params.channelsMax) (hframes : b.toNat ≤ t.params.blockMax) :
    exec (.fillBlock c b) t = .next { t with
      responses := ⟨.audio, .ok, List.replicate (c.toNat * b.toNat) 0#32⟩ :: t.responses } := by
  obtain ⟨hidle, hfaulted, -⟩ := h
  exact idleFillBlockIsSilent c b t hfaulted hidle hlow hchannels hframes

theorem step_of_reset {s : State} {rest : List Event} (h : s.pending = .reset :: rest) :
    step s = .next { s with pending := rest }.doReset :=
  step_cons h

/-- Of the cause codes of 60 R89 only that of no fault is 0. -/
theorem faultCauseCode_eq_zero_iff {cause : FaultCause} : faultCauseCode cause = 0#8 ↔ cause = .none := by
  cases cause <;> decide

/-! ### The statements of 70_reset_and_hazards.md -/

/-- Settles O9: `State.reset` is at the reset values, whose fault cause is the one with code 0. -/
theorem resetStateHasTheResetValues : Obligations.ResetStateHasTheResetValues := by
  unfold Obligations.ResetStateHasTheResetValues
  have hreset : State.reset.AtReset := State.resetWith_atReset Params.reference
  have hresponses : State.reset.responses = [] := rfl
  have hsilent := hreset.fillBlock_silent
  rw [hresponses] at hsilent
  simpa only [State.AtReset, faultCauseCode_eq_zero_iff, and_assoc] using And.intro hreset hsilent

/-- Settles O10: the step is `doReset` on the events that remain, whose state is at the reset values and keeps the rest. -/
theorem resetPutsEveryRegisterToItsValue : Obligations.ResetPutsEveryRegisterToItsValue := by
  unfold Obligations.ResetPutsEveryRegisterToItsValue
  intro s rest hpending
  have hreset := State.doReset_atReset { s with pending := rest }
  have hsilent := hreset.fillBlock_silent
  have hkeeps := State.doReset_keeps { s with pending := rest }
  refine ⟨_, step_of_reset hpending, ?_⟩
  simpa only [State.AtReset, and_assoc] using And.intro hreset ⟨hsilent, hkeeps⟩

end Sys2Proof.Machine
end
